-- ==== Sys2Proof/Word.lean ====
section
/-! DEFINITION. The widths of the machine (`00_scope.md` R5, R6). -/

namespace Sys2Proof

/-- A guard register, and one byte of the model's memory cells. -/
abbrev Byte := BitVec 8

/-- A data word, index register or 16-bit control register (R5). -/
abbrev Word := BitVec 16

/-- An instruction word, and the 32-bit product register P (R5, R90). -/
abbrev Code := BitVec 32

/-- A 40-bit accumulator value `A2:A1:A0` (R5, R22). -/
abbrev Long := BitVec 40

end Sys2Proof
end

