-- ==== Sys2Proof/Config.lean ====
section
/-! DEFINITION. What an implementation fixes and what the manual leaves open: the parameters of
`92_eei_decisions.md` that have no default, the reset vector, and the free values. The parameters
with a default that a later test could show wrong are in `Machine/Params.lean`. -/

namespace Sys2Proof

/-- The three address spaces (R50). -/
inductive Space where
  | x
  | y
  | i
  deriving DecidableEq, Repr

/-- Who drives a bus value: the X move, the Y move, or LOOP's count operand. -/
inductive Port where
  | x
  | y
  | loop
  deriving DecidableEq, Repr

/-- The two readings of EXP's count that R190 allows: E1 counts the bits below the MSB that equal
it, E2 counts one more. -/
inductive ExpReading where
  | redundant
  | runLength
  deriving DecidableEq, Repr, Inhabited

/-- The values of parameter PFRAC_OVF (R222, D38). -/
inductive PfracOvf where
  | wrap32
  | keep40
  deriving DecidableEq, Repr, Inhabited

/-- The values of parameter P_MODE_POLICY (R223, D15). -/
inductive PModePolicy where
  | strict
  | current
  deriving DecidableEq, Repr

/-- The values of parameter RND_R0 (R194, D17). -/
inductive RndR0 where
  | trunc0
  | floor
  | nearestHalfToZero
  deriving DecidableEq, Repr

/-- The places where a step draws a free value, one name for each, so that two draws of one step
are independent (log 12). -/
inductive Site where
  /-- bits of a bus value that the register does not drive (R260, R262, R263) -/
  | junk (p : Port)
  /-- which of LC, LC - 1 a read of LC next to a loop end returns (R399) -/
  | lcSeen (p : Port)
  /-- what a device returns (R67) -/
  | device (s : Space)
  /-- the index register after a modulo step outside its domain (R268) -/
  | postMod (p : Port)
  /-- P read under other modes than at the multiplication, and whether that read saturated (R223) -/
  | pOperand
  | pSaturated
  /-- ASHL with a count out of range: the result and the five flags (R185) -/
  | shiftResult
  | shiftZ
  | shiftN
  | shiftV
  | shiftE
  | shiftC
  /-- C after ABS (R151) -/
  | absCarry
  /-- the outcome of a jump whose condition flags just changed (R312) -/
  | condition
  /-- the flow after a violated change-of-flow restriction (R392, R393, R401) -/
  | flowPc
  | flowPending
  | flowTarget
  | flowPaged
  | flowPage
  | flowIpr0
  /-- LC after a violated loop-end restriction (R393, R397) -/
  | flowLc
  /-- the page of a fetch after a move changed IPR0 (R261) -/
  | fetchPage
  /-- a word fetched too soon after STI wrote it (R75) -/
  | stiFetch
  /-- the page of an LDI/STI access, and the guard register after LDI (R280) -/
  | ibusPage
  | ibusGuard
  /-- whether the interrupt peripheral is disabled after a system reset (R358) -/
  | resetIrqOff
  deriving DecidableEq, Repr

/-- The free value drawn at a site in the step that `freeCtr` numbers: any 64 bits, of which a draw
takes as many as it needs. It has no body, so nothing can be proved of it (R9, log 12). -/
opaque Config.free : Nat → Site → BitVec 64

/-- What a byte of memory holds that nothing has written since the power-on or reset numbered by
the first argument: contents after reset are unspecified (R51, D26, log 2). -/
opaque Config.unwritten : Nat → Space → Nat → Byte

/-- Parameter expCount: which of the two readings EXP follows (R190, D16, log 24). -/
opaque Config.expReading : ExpReading

/-- Parameter PFRAC_OVF: the fractional read of P that overflows with S = 0 (R222, D38, log 26). -/
opaque Config.pfracOvf : PfracOvf

/-- The page of the 32-bit X space in which the 16-bit X space lies: not stated (R61, N5, log 33). -/
opaque Config.xPage : Word

/-- DESIGN CHOICE (unsafe): parameter RESET_VECTOR, "normally 0x4000" (R51, D3, log 7). -/
def Config.resetVector : Word := 0x4000

end Sys2Proof
end

