-- ==== Sys2Proof/Syntax.lean ====
section
/-! DEFINITION. The instructions, one constructor per row of `opcode_table.json`, with operands as
names (never raw encodings), and the reasons for which a word is rejected. -/

namespace Sys2Proof

/-- The accumulators A, B, C, D (R22). -/
inductive Acc where
  | a
  | b
  | c
  | d
  deriving DecidableEq, Repr

/-- The 16-bit arithmetic registers (R20): `lo x` is x0 and `hi x` is x1, so `lo .a` is A0 and
`hi .d` is D1. -/
inductive AReg where
  | lo (x : Acc)
  | hi (x : Acc)
  deriving DecidableEq, Repr

/-- ALU operands (R103). -/
inductive AluSrc where
  | reg (r : AReg)
  | null
  | ones
  | p
  | acc (x : Acc)
  deriving DecidableEq, Repr

/-- Signedness of the two multiplier operands (R105, Table 7). -/
inductive MulMode where
  | ss
  | su
  | us
  | uu
  deriving DecidableEq, Repr

/-- The number of an index register I0 .. I7 (R26). -/
abbrev IReg := Fin 8

/-- Registers of full moves, register moves and LDC (R110, Table 10). `nop` is the move NOP. -/
inductive MoveReg where
  | areg (r : AReg)
  | lr0
  | lr1
  | mr0
  | null
  | lc
  | ls
  | le
  | idx (n : IReg)
  | guard (x : Acc)
  | nop
  | ipr0
  | ipr1
  deriving DecidableEq, Repr

/-- The data buses (R60). -/
inductive Bus where
  | x
  | y
  deriving DecidableEq, Repr

/-- A full move `s rrr pppp RRRRRR` (R111); the four bits of `post` are read by R112 and R265. -/
structure FullMove where
  store : Bool
  idx   : IReg
  post  : BitVec 4
  reg   : MoveReg
  deriving DecidableEq, Repr

/-- A short move `s rrr p RRR` (R113). -/
structure ShortMove where
  store : Bool
  idx   : IReg
  star  : Bool
  reg   : AReg
  deriving DecidableEq, Repr

/-- The parallel moves whose coding is lost (R116): their semantics are R278, R280 and R282, and no
word decodes to them. -/
inductive UncodedMove where
  | regMove (src dst : MoveReg)
  | longX (store : Bool) (reg : MoveReg) (idx : IReg)
  | ibus (store : Bool) (x : Acc) (idx : IReg) (post : BitVec 4)
  deriving DecidableEq, Repr

/-- The parallel move beside an ALU or multiplier operation (R115, R116). -/
inductive PMove where
  | full (bus : Bus) (m : FullMove)
  | short (x y : ShortMove)
  | uncoded (m : UncodedMove)
  deriving DecidableEq, Repr

/-- The jump conditions of Table 1 (R117). -/
inductive Cond where
  | always
  | cs
  | es
  | vs
  | ns
  | zs
  | lt
  | le
  | cc
  | ec
  | vc
  | nc
  | zc
  | ge
  | gt
  deriving DecidableEq, Repr

/-- JMPI's index update: mm = 00, 01, 11 (R106). -/
inductive JmpiStep where
  | keep
  | inc
  | dec
  deriving DecidableEq, Repr

/-- One constructor per row of `opcode_table.json`, in the table's order. -/
inductive Instr where
  | ldc (const : Word) (reg : MoveReg)
  | nop
  | jrcc (cond : Cond)
  | jrccOp1 (cond : Cond) (page : IReg)
  | reti
  | retiOp1 (page : IReg)
  | resp (op1 op2 : AReg)
  | loop (last : Word) (count : MoveReg)
  | jcc (addr : Word) (cond : Cond)
  | callcc (addr : Word) (cond : Cond)
  | jmpi (addr : Word) (mm : JmpiStep) (reg : IReg)
  /-- MVX/MVY, double register move (R283): no word decodes to it (R108) -/
  | mvDouble (xSrc xDst ySrc yDst : MoveReg)
  | halt
  | dmove (x y : FullMove)
  /-- LDX alone: a double full move whose Y half is the move NOP (R125); likewise STX, LDY, STY -/
  | ldx (idx : IReg) (post : BitVec 4) (reg : MoveReg)
  | stx (idx : IReg) (post : BitVec 4) (reg : MoveReg)
  | ldy (idx : IReg) (post : BitVec 4) (reg : MoveReg)
  | sty (idx : IReg) (post : BitVec 4) (reg : MoveReg)
  | add (op1 op2 : AluSrc) (dst : AReg) (pm : PMove)
  | sub (op1 op2 : AluSrc) (dst : AReg) (pm : PMove)
  | addc (op1 op2 : AluSrc) (dst : AReg) (pm : PMove)
  | subc (op1 op2 : AluSrc) (dst : AReg) (pm : PMove)
  | ashl (op1 op2 : AluSrc) (dst : AReg) (pm : PMove)
  | and (op1 op2 : AluSrc) (dst : AReg) (pm : PMove)
  | or (op1 op2 : AluSrc) (dst : AReg) (pm : PMove)
  | xor (op1 op2 : AluSrc) (dst : AReg) (pm : PMove)
  | mac (op1 : AReg) (mm : MulMode) (op2 : AReg) (acc : AReg) (pm : PMove)
  | msu (op1 : AReg) (mm : MulMode) (op2 : AReg) (acc : AReg) (pm : PMove)
  | abs (op2 : AluSrc) (dst : AReg) (pm : PMove)
  | asr (op2 : AluSrc) (dst : AReg) (pm : PMove)
  | lsr (op2 : AluSrc) (dst : AReg) (pm : PMove)
  | lsrc (op2 : AluSrc) (dst : AReg) (pm : PMove)
  | exp (op2 : AluSrc) (dst : AReg) (pm : PMove)
  | sat (op2 : AluSrc) (dst : AReg) (pm : PMove)
  | rnd (op2 : AluSrc) (dst : AReg) (pm : PMove)
  | nopMove (pm : PMove)
  | mul (mm : MulMode) (op2 op1 : AReg) (pm : PMove)
  /-- LSL: the words of ADD with one operand twice (R153) -/
  | lsl (op2 : AluSrc) (dst : AReg) (pm : PMove)
  /-- LSLC: the words of ADDC with one operand twice (R154) -/
  | lslc (op2 : AluSrc) (dst : AReg) (pm : PMove)
  /-- NOT: the words of XOR with ONES as Op1 (R184) -/
  | not (op2 : AluSrc) (dst : AReg) (pm : PMove)
  /-- two short moves, beside the single-op NOP (R255) -/
  | parShort (x y : ShortMove)
  /-- one full move, beside the single-op NOP (R257) -/
  | parFull (bus : Bus) (m : FullMove)
  /-- a parallel move whose coding is lost, beside the single-op NOP (R278, R280, R282) -/
  | parUncoded (m : UncodedMove)
  deriving DecidableEq, Repr

/-- Why a word has no meaning (R119, R193, R194): the decoder rejects by one of these names, and so
does a meaning that is given an ill-formed instruction. All are safe: the model stops. -/
inductive Reject where
  /-- opcode 1110 -/
  | reservedOpcode
  /-- control codes 0011, 1100, 1110, 1111 -/
  | reservedControl
  /-- single-op codes 1000 .. 1101 -/
  | reservedSingleOp
  /-- ALU operand code 1010, or P as Op1, or P as the operand of LSL or LSLC -/
  | reservedOperand
  /-- an even result code in a 40-bit operation -/
  | reservedResult
  /-- a 40-bit operand as the count of ASHL -/
  | wideShiftCount
  /-- a 16-bit operand of SAT or RND -/
  | narrowSatRnd
  /-- a move register code that Table 10 reserves or does not list -/
  | reservedRegister
  /-- a loop count register that five bits cannot name -/
  | loopRegister
  /-- a condition code that Table 1 does not list -/
  | unlistedCondition
  /-- JMPI with mm = 10 -/
  | jmpiMode
  /-- control code 1011: the layout of the double register move is lost (R108) -/
  | doubleMoveLayout
  /-- parallel selector 01: the layout is lost (R116) -/
  | parallelMoveLayout
  deriving DecidableEq, Repr

end Sys2Proof
end

