-- ==== Sys2Proof/Machine/Legality.lean ====
section
/-! DEFINITION. Which instructions the spec gives a meaning: operand, result and register codes
(R119, R193, R194), two writers of one register in a word (R259, R402), and the units of a double
register move (R283). -/

namespace Sys2Proof

/-- The space a data bus reaches (R50). -/
def Bus.space : Bus → Space
  | .x => .x
  | .y => .y

/-- The port of a data bus. -/
def Bus.port : Bus → Port
  | .x => .x
  | .y => .y

/-- A 40-bit operand: P, A, B, C, D (R141). NULL and ONES count as 16 bits wide (R23). -/
def AluSrc.wide : AluSrc → Bool
  | .p | .acc _ => true
  | .reg _ | .null | .ones => false

/-- A high half A1 .. D1: the result codes that a 40-bit operation may name (R104). -/
def AReg.isHigh : AReg → Bool
  | .hi _ => true
  | .lo _ => false

/-- The accumulator that a register is half of. -/
def AReg.acc : AReg → Acc
  | .hi x => x
  | .lo x => x

/-- A two-operand ALU operation is 40 bits wide when one of its operands is (R141). -/
def wide2 (op1 op2 : AluSrc) : Bool := op1.wide || op2.wide

/-- A 40-bit result needs one of A, B, C, D (R104, R143). -/
def rejectResult (wide : Bool) (dst : AReg) : Option Reject :=
  if wide && !dst.isHigh then some .reservedResult else none

/-- The checks of a two-operand ALU instruction: P only as Op2 (R103), the result code (R104). -/
def rejectAlu2 (op1 op2 : AluSrc) (dst : AReg) : Option Reject :=
  if op1 = .p then some .reservedOperand else rejectResult (wide2 op1 op2) dst

/-- The checks of ASHL: the count is a 16-bit operand and the width is Op1's (R186). -/
def rejectAshl (op1 op2 : AluSrc) (dst : AReg) : Option Reject :=
  if op1 = .p then some .reservedOperand
  else if op2.wide then some .wideShiftCount
  else rejectResult op1.wide dst

/-- The checks of LSL and LSLC: P is not an operand (R153, R154). -/
def rejectDoubled (op2 : AluSrc) (dst : AReg) : Option Reject :=
  if op2 = .p then some .reservedOperand else rejectResult op2.wide dst

/-- The registers that LOOP's five bits can name (R118). -/
def MoveReg.loopable : MoveReg → Bool
  | .guard _ | .nop | .ipr0 | .ipr1 => false
  | _ => true

/-- Why an instruction is ill-formed, if it is (R119, R193, R194). -/
def Instr.reject : Instr → Option Reject
  | .loop _ count => if count.loopable then none else some .loopRegister
  | .add op1 op2 dst _ | .sub op1 op2 dst _ | .addc op1 op2 dst _ | .subc op1 op2 dst _
  | .and op1 op2 dst _ | .or op1 op2 dst _ | .xor op1 op2 dst _ => rejectAlu2 op1 op2 dst
  | .ashl op1 op2 dst _ => rejectAshl op1 op2 dst
  | .mac _ _ _ acc _ | .msu _ _ _ acc _ => rejectResult true acc
  | .abs op2 dst _ | .asr op2 dst _ | .lsr op2 dst _ | .lsrc op2 dst _ | .not op2 dst _ =>
      rejectResult op2.wide dst
  | .sat op2 dst _ => if op2.wide then rejectResult true dst else some .narrowSatRnd
  | .rnd op2 _ _ => if op2.wide then none else some .narrowSatRnd
  | .lsl op2 dst _ | .lslc op2 dst _ => rejectDoubled op2 dst
  | .exp _ _ _ | .nopMove _ | .mul _ _ _ _ => none
  | .ldc _ _ | .nop | .jrcc _ | .jrccOp1 _ _ | .reti | .retiOp1 _ | .resp _ _ | .jcc _ _
  | .callcc _ _ | .jmpi _ _ _ | .mvDouble _ _ _ _ | .halt | .dmove _ _ | .ldx _ _ _
  | .stx _ _ _ | .ldy _ _ _ | .sty _ _ _ => none
  | .parShort _ _ | .parFull _ _ | .parUncoded _ => none

/-- A piece of a register that an instruction word can write, as R259 compares them. -/
inductive Target where
  /-- x0, x1, x2 of an accumulator (0, 1, 2) -/
  | part (x : Acc) (k : Fin 3)
  | index (n : IReg)
  /-- an index register by its own step: a load into it in the same word wins (D6, log 29) -/
  | step (n : IReg)
  | control (r : MoveReg)
  deriving DecidableEq, Repr

/-- What a 16-bit write of a register writes: a high half takes its guard register along (R24). -/
def AReg.targets : AReg → List Target
  | .lo x => [.part x 0]
  | .hi x => [.part x 1, .part x 2]

/-- What a 40-bit write of an accumulator writes (R22). -/
def Acc.targets (x : Acc) : List Target := [.part x 0, .part x 1, .part x 2]

/-- What an ALU result writes (R143). -/
def resultTargets (wide : Bool) (dst : AReg) : List Target :=
  if wide then dst.acc.targets else dst.targets

/-- What a load, register move or LDC into a register writes (R261). -/
def MoveReg.targets : MoveReg → List Target
  | .areg r => r.targets
  | .guard x => [.part x 2]
  | .idx n => [.index n]
  | .null | .nop => []
  | r => [.control r]

/-- What a post-modification writes: nothing when it is `(In)` (R259). It is no second writer beside a
load into that register (D6, U15, log 29). -/
def postTargets (n : IReg) (post : BitVec 4) : List Target :=
  if post = 0 then [] else [.step n]

/-- What a full move writes; a move NOP writes nothing (R264). -/
def FullMove.targets (m : FullMove) : List Target :=
  if m.reg = .nop then []
  else (if m.store then [] else m.reg.targets) ++ postTargets m.idx m.post

/-- A short move as the full move it abbreviates (R255). -/
def ShortMove.full (m : ShortMove) : FullMove :=
  { store := m.store, idx := m.idx, post := if m.star then 8 else 0, reg := .areg m.reg }

/-- What a register move writes: nothing when either code is the move NOP (R264, R282). -/
def moveTargets (src dst : MoveReg) : List Target :=
  if src = .nop then [] else dst.targets

/-- What a move of a lost coding writes (R278, R280, R282). -/
def UncodedMove.targets : UncodedMove → List Target
  | .regMove src dst => moveTargets src dst
  | .longX store reg _ => if store then [] else reg.targets
  | .ibus store x idx post => (if store then [] else x.targets) ++ postTargets idx post

/-- What a parallel move writes (R115). -/
def PMove.targets : PMove → List Target
  | .full _ m => m.targets
  | .short x y => x.full.targets ++ y.full.targets
  | .uncoded m => m.targets

/-- What an instruction word writes through its moves and its ALU result, once per writer. Control
instructions carry no move and have one writer. MR0 is not listed for the ALU flags: an explicit
move overrides them (R36). -/
def Instr.targets : Instr → List Target
  | .mvDouble xs xd ys yd => moveTargets xs xd ++ moveTargets ys yd
  | .dmove x y => x.targets ++ y.targets
  | .ldx n post r => FullMove.targets { store := false, idx := n, post := post, reg := r }
  | .ldy n post r => FullMove.targets { store := false, idx := n, post := post, reg := r }
  | .stx n post r => FullMove.targets { store := true, idx := n, post := post, reg := r }
  | .sty n post r => FullMove.targets { store := true, idx := n, post := post, reg := r }
  | .add op1 op2 dst pm | .sub op1 op2 dst pm | .addc op1 op2 dst pm | .subc op1 op2 dst pm
  | .and op1 op2 dst pm | .or op1 op2 dst pm | .xor op1 op2 dst pm =>
      resultTargets (wide2 op1 op2) dst ++ pm.targets
  | .ashl op1 _ dst pm => resultTargets op1.wide dst ++ pm.targets
  | .mac _ _ _ acc pm | .msu _ _ _ acc pm => resultTargets true acc ++ pm.targets
  | .abs op2 dst pm | .asr op2 dst pm | .lsr op2 dst pm | .lsrc op2 dst pm | .not op2 dst pm
  | .lsl op2 dst pm | .lslc op2 dst pm => resultTargets op2.wide dst ++ pm.targets
  | .exp _ dst pm | .rnd _ dst pm => resultTargets false dst ++ pm.targets
  | .sat _ dst pm => resultTargets true dst ++ pm.targets
  | .nopMove pm | .mul _ _ _ pm => pm.targets
  | .parShort x y => x.full.targets ++ y.full.targets
  | .parFull _ m => m.targets
  | .parUncoded m => m.targets
  | .ldc _ _ | .nop | .jrcc _ | .jrccOp1 _ _ | .reti | .retiOp1 _ | .resp _ _ | .loop _ _
  | .jcc _ _ | .callcc _ _ | .jmpi _ _ _ | .halt => []

/-- Whether a list names something twice. -/
def hasRepeat : List Target → Bool
  | [] => false
  | t :: ts => ts.contains t || hasRepeat ts

/-- Two writers of one register in one word (R259, R402). -/
def Instr.conflict (i : Instr) : Bool := hasRepeat i.targets

/-- The execution units of R283. -/
inductive ExecUnit where
  | alu
  | dag
  | pcu
  deriving DecidableEq, Repr

/-- The unit a register belongs to; NULL and the move NOP belong to none (R283, log 55). -/
def MoveReg.execUnit : MoveReg → Option ExecUnit
  | .areg _ | .guard _ => some .alu
  | .idx _ => some .dag
  | .lr0 | .lr1 | .mr0 | .lc | .ls | .le | .ipr0 | .ipr1 => some .pcu
  | .null | .nop => none

/-- Source and destination of a move in the same unit (R283). -/
def sameUnit (src dst : MoveReg) : Bool :=
  src.execUnit.isSome && src.execUnit == dst.execUnit

end Sys2Proof
end

