-- ==== Sys2Proof/WellFormed.lean ====
section
/-! DEFINITION. Well-formed instructions: those whose operands the spec gives a meaning (R119,
R193, R194). The checks themselves stand in `Machine/Legality.lean`. -/

namespace Sys2Proof

/-- No check of R119, R193 or R194 rejects the instruction. -/
abbrev Instr.WellFormed (i : Instr) : Prop := i.reject = none

/-- No two writers of one register (R259). -/
abbrev Instr.ConflictFree (i : Instr) : Prop := i.conflict = false

end Sys2Proof
end

