-- ==== Sys2Proof/Decode.lean ====
section
/-! DEFINITION. The decoder (R123 with the checks of R119), total on every 32-bit word and rejecting
by name, and after it the encoder, written from the same tables. Codes are numbers here; beyond
this file the machine sees names only. The parallel-move selector bits (GK2) and the X half of a
double move (GK3) are PRESUMED (log 10, 11); the layouts of LOOP, Jcc, MUL and the single-operand
group are DEDUCED (log 50). -/

namespace Sys2Proof

/-- The field of `len` bits of `w` whose lowest bit is bit `lo` (R6). -/
def field (w : Code) (lo len : Nat) : Nat := w.toNat / 2 ^ lo % 2 ^ len

/-! ### Code tables -/

/-- Tables 6 and 9: A0, A1, B0, B1, C0, C1, D0, D1 (R105, R113). -/
def AReg.ofCode (n : Nat) : AReg :=
  match n with
  | 0 => .lo .a
  | 1 => .hi .a
  | 2 => .lo .b
  | 3 => .hi .b
  | 4 => .lo .c
  | 5 => .hi .c
  | 6 => .lo .d
  | _ => .hi .d

def AReg.code : AReg → Nat
  | .lo .a => 0
  | .hi .a => 1
  | .lo .b => 2
  | .hi .b => 3
  | .lo .c => 4
  | .hi .c => 5
  | .lo .d => 6
  | .hi .d => 7

def Acc.ofCode (n : Nat) : Acc :=
  match n with
  | 0 => .a
  | 1 => .b
  | 2 => .c
  | _ => .d

def Acc.code : Acc → Nat
  | .a => 0
  | .b => 1
  | .c => 2
  | .d => 3

/-- Table 4 (R103); 1010 is reserved. -/
def AluSrc.ofCode (n : Nat) : Except Reject AluSrc :=
  match n with
  | 8 => .ok .null
  | 9 => .ok .ones
  | 10 => .error .reservedOperand
  | 11 => .ok .p
  | 12 => .ok (.acc .a)
  | 13 => .ok (.acc .b)
  | 14 => .ok (.acc .c)
  | 15 => .ok (.acc .d)
  | n => .ok (.reg (AReg.ofCode n))

def AluSrc.code : AluSrc → Nat
  | .reg r => r.code
  | .null => 8
  | .ones => 9
  | .p => 11
  | .acc x => 12 + x.code

/-- Table 7 (R105). -/
def MulMode.ofCode (n : Nat) : MulMode :=
  match n with
  | 0 => .ss
  | 1 => .su
  | 2 => .us
  | _ => .uu

def MulMode.code : MulMode → Nat
  | .ss => 0
  | .su => 1
  | .us => 2
  | .uu => 3

/-- Table 10 (R110); 001011, 011000 .. 011111 and 100101 .. 111101 are rejected (R119). -/
def MoveReg.ofCode (n : Nat) : Except Reject MoveReg :=
  if n < 8 then .ok (.areg (AReg.ofCode n))
  else if n = 8 then .ok .lr0
  else if n = 9 then .ok .lr1
  else if n = 10 then .ok .mr0
  else if n = 12 then .ok .null
  else if n = 13 then .ok .lc
  else if n = 14 then .ok .ls
  else if n = 15 then .ok .le
  else if 16 ≤ n ∧ n < 24 then .ok (.idx (Fin.ofNat 8 (n - 16)))
  else if 32 ≤ n ∧ n < 36 then .ok (.guard (Acc.ofCode (n - 32)))
  else if n = 36 then .ok .nop
  else if n = 62 then .ok .ipr0
  else if n = 63 then .ok .ipr1
  else .error .reservedRegister

def MoveReg.code : MoveReg → Nat
  | .areg r => r.code
  | .lr0 => 8
  | .lr1 => 9
  | .mr0 => 10
  | .null => 12
  | .lc => 13
  | .ls => 14
  | .le => 15
  | .idx n => 16 + n.val
  | .guard x => 32 + x.code
  | .nop => 36
  | .ipr0 => 62
  | .ipr1 => 63

/-- Table 1 (R117); every other code is rejected. -/
def Cond.ofCode (n : Nat) : Except Reject Cond :=
  if n = 0 then .ok .always
  else if n = 1 then .ok .cs
  else if n = 2 then .ok .es
  else if n = 3 then .ok .vs
  else if n = 4 then .ok .ns
  else if n = 5 then .ok .zs
  else if n = 8 then .ok .lt
  else if n = 9 then .ok .le
  else if n = 17 then .ok .cc
  else if n = 18 then .ok .ec
  else if n = 19 then .ok .vc
  else if n = 20 then .ok .nc
  else if n = 21 then .ok .zc
  else if n = 24 then .ok .ge
  else if n = 25 then .ok .gt
  else .error .unlistedCondition

def Cond.code : Cond → Nat
  | .always => 0
  | .cs => 1
  | .es => 2
  | .vs => 3
  | .ns => 4
  | .zs => 5
  | .lt => 8
  | .le => 9
  | .cc => 17
  | .ec => 18
  | .vc => 19
  | .nc => 20
  | .zc => 21
  | .ge => 24
  | .gt => 25

/-- JMPI's mm (R106); 10 is rejected. -/
def JmpiStep.ofCode (n : Nat) : Except Reject JmpiStep :=
  match n with
  | 0 => .ok .keep
  | 1 => .ok .inc
  | 2 => .error .jmpiMode
  | _ => .ok .dec

def JmpiStep.code : JmpiStep → Nat
  | .keep => 0
  | .inc => 1
  | .dec => 3

/-! ### Move fields -/

/-- The full move whose lowest bit is bit `lo` (R111). -/
def decodeFull (w : Code) (lo : Nat) : Except Reject FullMove :=
  match MoveReg.ofCode (field w lo 6) with
  | .error r => .error r
  | .ok reg => .ok { store := field w (lo + 13) 1 == 1, idx := Fin.ofNat 8 (field w (lo + 10) 3),
                     post := BitVec.ofNat 4 (field w (lo + 6) 4), reg := reg }

def FullMove.code (m : FullMove) : Nat :=
  m.store.toNat * 8192 + m.idx.val * 1024 + m.post.toNat * 64 + m.reg.code

/-- The short move whose lowest bit is bit `lo` (R113). -/
def decodeShort (w : Code) (lo : Nat) : ShortMove :=
  { store := field w (lo + 7) 1 == 1, idx := Fin.ofNat 8 (field w (lo + 4) 3),
    star := field w (lo + 3) 1 == 1, reg := AReg.ofCode (field w lo 3) }

def ShortMove.code (m : ShortMove) : Nat :=
  m.store.toNat * 128 + m.idx.val * 16 + m.star.toNat * 8 + m.reg.code

/-- Bits 16:0 beside an ALU operation (R115, PMOVE_SEL's default, PRESUMED, log 10). -/
def decodePMove (w : Code) : Except Reject PMove :=
  if field w 16 1 = 1 then .ok (.short (decodeShort w 8) (decodeShort w 0))
  else if field w 15 1 = 1 then .error .parallelMoveLayout
  else
    match decodeFull w 0 with
    | .error r => .error r
    | .ok m => .ok (.full (if field w 14 1 = 1 then .y else .x) m)

/-- The pmove field; a move whose coding is lost has none (R116). -/
def PMove.code : PMove → Option Nat
  | .short x y => some (65536 + x.code * 256 + y.code)
  | .full .x m => some m.code
  | .full .y m => some (16384 + m.code)
  | .uncoded _ => none

/-! ### Instruction formats -/

/-- The move NOP in its canonical bits (R114, R121). -/
def FullMove.moveNop : FullMove := { store := false, idx := 0, post := 0, reg := .nop }

/-- Format ALU2 (R92). -/
def decodeAlu2 (mk : AluSrc → AluSrc → AReg → PMove → Instr) (w : Code) : Except Reject Instr :=
  match AluSrc.ofCode (field w 24 4) with
  | .error r => .error r
  | .ok op1 =>
    match AluSrc.ofCode (field w 20 4) with
    | .error r => .error r
    | .ok op2 =>
      match decodePMove w with
      | .error r => .error r
      | .ok pm => .ok (mk op1 op2 (AReg.ofCode (field w 17 3)) pm)

/-- Format MAC (R93). -/
def decodeMac (mk : AReg → MulMode → AReg → AReg → PMove → Instr) (w : Code) :
    Except Reject Instr :=
  match decodePMove w with
  | .error r => .error r
  | .ok pm => .ok (mk (AReg.ofCode (field w 25 3)) (MulMode.ofCode (field w 23 2))
                      (AReg.ofCode (field w 20 3)) (AReg.ofCode (field w 17 3)) pm)

/-- Format ALU1 (R94). -/
def decodeAlu1 (mk : AluSrc → AReg → PMove → Instr) (w : Code) : Except Reject Instr :=
  match AluSrc.ofCode (field w 20 4) with
  | .error r => .error r
  | .ok op2 =>
    match decodePMove w with
    | .error r => .error r
    | .ok pm => .ok (mk op2 (AReg.ofCode (field w 17 3)) pm)

/-- The single-op NOP beside a move: bits 23:17 are ignored (R195). -/
def decodeNopMove (w : Code) : Except Reject Instr :=
  match decodePMove w with
  | .error r => .error r
  | .ok pm => .ok (.nopMove pm)

/-- Format MUL (R95, reconstructed, log 50). -/
def decodeMul (w : Code) : Except Reject Instr :=
  match decodePMove w with
  | .error r => .error r
  | .ok pm => .ok (.mul (MulMode.ofCode (field w 23 2)) (AReg.ofCode (field w 20 3))
                        (AReg.ofCode (field w 17 3)) pm)

/-- Opcode 1111 (R94, Table 8). -/
def decodeSingle (w : Code) : Except Reject Instr :=
  match field w 24 4 with
  | 0 => decodeAlu1 .abs w
  | 1 => decodeAlu1 .asr w
  | 2 => decodeAlu1 .lsr w
  | 3 => decodeAlu1 .lsrc w
  | 4 => decodeNopMove w
  | 5 => decodeAlu1 .exp w
  | 6 => decodeAlu1 .sat w
  | 7 => decodeAlu1 .rnd w
  | 14 => decodeMul w
  | 15 => decodeMul w
  | _ => .error .reservedSingleOp

/-- LDC (R109). -/
def decodeLdc (w : Code) : Except Reject Instr :=
  match MoveReg.ofCode (field w 0 6) with
  | .error r => .error r
  | .ok reg => .ok (.ldc (BitVec.ofNat 16 (field w 6 16)) reg)

/-- JRcc with and without the page operand (R97). -/
def decodeJr (w : Code) : Except Reject Instr :=
  match Cond.ofCode (field w 0 6) with
  | .error r => .error r
  | .ok c => .ok (if field w 23 1 = 1 then .jrccOp1 c (Fin.ofNat 8 (field w 6 3)) else .jrcc c)

/-- LOOP (R100, R118, reconstructed, log 50). -/
def decodeLoop (w : Code) : Except Reject Instr :=
  match MoveReg.ofCode (field w 0 5) with
  | .error r => .error r
  | .ok count => .ok (.loop (BitVec.ofNat 16 (field w 6 16)) count)

/-- Jcc and CALLcc (R101, R102). -/
def decodeJump (mk : Word → Cond → Instr) (w : Code) : Except Reject Instr :=
  match Cond.ofCode (field w 0 6) with
  | .error r => .error r
  | .ok c => .ok (mk (BitVec.ofNat 16 (field w 6 16)) c)

/-- JMPI (R106). -/
def decodeJmpi (w : Code) : Except Reject Instr :=
  match JmpiStep.ofCode (field w 3 2) with
  | .error r => .error r
  | .ok mm => .ok (.jmpi (BitVec.ofNat 16 (field w 6 16)) mm (Fin.ofNat 8 (field w 0 3)))

/-- Opcode 0010 (R96, Table 3). -/
def decodeControl (w : Code) : Except Reject Instr :=
  match field w 24 4 with
  | 0 => decodeJr w
  | 1 => .ok (if field w 23 1 = 1 then .retiOp1 (Fin.ofNat 8 (field w 6 3)) else .reti)
  | 2 => .ok (.resp (AReg.ofCode (field w 17 3)) (AReg.ofCode (field w 20 3)))
  | 4 => decodeLoop w
  | 5 => decodeLoop w
  | 6 => decodeLoop w
  | 7 => decodeLoop w
  | 8 => decodeJump .jcc w
  | 9 => decodeJump .callcc w
  | 10 => decodeJmpi w
  | 11 => .error .doubleMoveLayout
  | 13 => .ok .halt
  | _ => .error .reservedControl

/-- Opcode 0011: X move in 27:14, Y move in 13:0 (R114, GK3, PRESUMED, log 11). -/
def decodeDouble (w : Code) : Except Reject Instr :=
  match decodeFull w 14 with
  | .error r => .error r
  | .ok x =>
    match decodeFull w 0 with
    | .error r => .error r
    | .ok y => .ok (.dmove x y)

/-- The decode order of R123, by the opcode in bits 31:28 (R91). -/
def decodeCore (w : Code) : Except Reject Instr :=
  match field w 28 4 with
  | 0 => decodeLdc w
  | 1 => decodeLdc w
  | 2 => decodeControl w
  | 3 => decodeDouble w
  | 4 => decodeAlu2 .add w
  | 5 => decodeMac .mac w
  | 6 => decodeAlu2 .sub w
  | 7 => decodeMac .msu w
  | 8 => decodeAlu2 .addc w
  | 9 => decodeAlu2 .subc w
  | 10 => decodeAlu2 .ashl w
  | 11 => decodeAlu2 .and w
  | 12 => decodeAlu2 .or w
  | 13 => decodeAlu2 .xor w
  | 14 => .error .reservedOpcode
  | _ => decodeSingle w

/-- A double full move with one half the move NOP is the single move that is left (R125). -/
def canonDouble (x y : FullMove) : Instr :=
  if x.reg = .nop ∧ y.reg ≠ .nop then
    if y.store then .sty y.idx y.post y.reg else .ldy y.idx y.post y.reg
  else if y.reg = .nop ∧ x.reg ≠ .nop then
    if x.store then .stx x.idx x.post x.reg else .ldx x.idx x.post x.reg
  else .dmove x y

/-- A single move as the double full move it is (R125), under the name its word decodes to. -/
def canonSingle (b : Bus) (m : FullMove) : Instr :=
  match b with
  | .x => canonDouble m .moveNop
  | .y => canonDouble .moveNop m

/-- Where rows of the opcode table share a word, the one constructor that stands for it (R125,
log 49). The word of `i` decodes to `i.canon`, and both have the same meaning. -/
def Instr.canon : Instr → Instr
  | .ldc c r => if r = .nop then .nop else .ldc c r
  | .dmove x y => canonDouble x y
  | .ldx n post r => canonSingle .x { store := false, idx := n, post := post, reg := r }
  | .stx n post r => canonSingle .x { store := true, idx := n, post := post, reg := r }
  | .ldy n post r => canonSingle .y { store := false, idx := n, post := post, reg := r }
  | .sty n post r => canonSingle .y { store := true, idx := n, post := post, reg := r }
  | .xor op1 op2 dst pm => if op1 = .ones then .not op2 dst pm else .xor op1 op2 dst pm
  | .lsl op2 dst pm => .add op2 op2 dst pm
  | .lslc op2 dst pm => .addc op2 op2 dst pm
  | .parShort x y => .nopMove (.short x y)
  | .parFull b m => .nopMove (.full b m)
  | .parUncoded m => .nopMove (.uncoded m)
  | .nop => .nop
  | .jrcc c => .jrcc c
  | .jrccOp1 c n => .jrccOp1 c n
  | .reti => .reti
  | .retiOp1 n => .retiOp1 n
  | .resp op1 op2 => .resp op1 op2
  | .loop last count => .loop last count
  | .jcc addr c => .jcc addr c
  | .callcc addr c => .callcc addr c
  | .jmpi addr mm n => .jmpi addr mm n
  | .mvDouble xs xd ys yd => .mvDouble xs xd ys yd
  | .halt => .halt
  | .add op1 op2 dst pm => .add op1 op2 dst pm
  | .sub op1 op2 dst pm => .sub op1 op2 dst pm
  | .addc op1 op2 dst pm => .addc op1 op2 dst pm
  | .subc op1 op2 dst pm => .subc op1 op2 dst pm
  | .ashl op1 op2 dst pm => .ashl op1 op2 dst pm
  | .and op1 op2 dst pm => .and op1 op2 dst pm
  | .or op1 op2 dst pm => .or op1 op2 dst pm
  | .mac op1 mm op2 acc pm => .mac op1 mm op2 acc pm
  | .msu op1 mm op2 acc pm => .msu op1 mm op2 acc pm
  | .abs op2 dst pm => .abs op2 dst pm
  | .asr op2 dst pm => .asr op2 dst pm
  | .lsr op2 dst pm => .lsr op2 dst pm
  | .lsrc op2 dst pm => .lsrc op2 dst pm
  | .exp op2 dst pm => .exp op2 dst pm
  | .sat op2 dst pm => .sat op2 dst pm
  | .rnd op2 dst pm => .rnd op2 dst pm
  | .nopMove pm => .nopMove pm
  | .mul mm op2 op1 pm => .mul mm op2 op1 pm
  | .not op2 dst pm => .not op2 dst pm

/-- The decoder: R123, then the checks of R119, then the row's own name (log 49). -/
def decode (w : Code) : Except Reject Instr :=
  match decodeCore w with
  | .error r => .error r
  | .ok i =>
    match i.reject with
    | some r => .error r
    | none => .ok i.canon

/-! ### The encoder. Don't-care bits are 0 (R120). -/

/-- A word from the parts above its pmove field; none when the pmove has no coding. -/
def withPMove (top : Nat) (pm : PMove) : Option Code :=
  match pm.code with
  | none => none
  | some low => some (BitVec.ofNat 32 (top + low))

def encodeAlu2 (opcode : Nat) (op1 op2 : AluSrc) (dst : AReg) (pm : PMove) : Option Code :=
  withPMove (opcode * 268435456 + op1.code * 16777216 + op2.code * 1048576 + dst.code * 131072) pm

def encodeMac (opcode : Nat) (op1 : AReg) (mm : MulMode) (op2 acc : AReg) (pm : PMove) :
    Option Code :=
  withPMove (opcode * 268435456 + op1.code * 33554432 + mm.code * 8388608 + op2.code * 1048576
    + acc.code * 131072) pm

def encodeAlu1 (sub : Nat) (op2 : AluSrc) (dst : AReg) (pm : PMove) : Option Code :=
  withPMove (15 * 268435456 + sub * 16777216 + op2.code * 1048576 + dst.code * 131072) pm

def encodeDouble (x y : FullMove) : Option Code :=
  some (BitVec.ofNat 32 (3 * 268435456 + x.code * 16384 + y.code))

/-- A control word: bits 27:24 and the rest (R96). -/
def encodeControl (sub rest : Nat) : Option Code :=
  some (BitVec.ofNat 32 (2 * 268435456 + sub * 16777216 + rest))

/-- The word of an instruction, don't-care bits 0; none for the forms whose layout is lost. -/
def encode : Instr → Option Code
  | .ldc c r => some (BitVec.ofNat 32 (c.toNat * 64 + r.code))
  | .nop => some (BitVec.ofNat 32 MoveReg.nop.code)
  | .jrcc c => encodeControl 0 c.code
  | .jrccOp1 c n => encodeControl 0 (8388608 + n.val * 64 + c.code)
  | .reti => encodeControl 1 0
  | .retiOp1 n => encodeControl 1 (8388608 + n.val * 64)
  | .resp op1 op2 => encodeControl 2 (op2.code * 1048576 + op1.code * 131072)
  | .loop last count => encodeControl 4 (last.toNat * 64 + count.code)
  | .jcc addr c => encodeControl 8 (addr.toNat * 64 + c.code)
  | .callcc addr c => encodeControl 9 (addr.toNat * 64 + c.code)
  | .jmpi addr mm n => encodeControl 10 (addr.toNat * 64 + mm.code * 8 + n.val)
  | .mvDouble _ _ _ _ => none
  | .halt => encodeControl 13 0
  | .dmove x y => encodeDouble x y
  | .ldx n post r => encodeDouble { store := false, idx := n, post := post, reg := r } .moveNop
  | .stx n post r => encodeDouble { store := true, idx := n, post := post, reg := r } .moveNop
  | .ldy n post r => encodeDouble .moveNop { store := false, idx := n, post := post, reg := r }
  | .sty n post r => encodeDouble .moveNop { store := true, idx := n, post := post, reg := r }
  | .add op1 op2 dst pm => encodeAlu2 4 op1 op2 dst pm
  | .sub op1 op2 dst pm => encodeAlu2 6 op1 op2 dst pm
  | .addc op1 op2 dst pm => encodeAlu2 8 op1 op2 dst pm
  | .subc op1 op2 dst pm => encodeAlu2 9 op1 op2 dst pm
  | .ashl op1 op2 dst pm => encodeAlu2 10 op1 op2 dst pm
  | .and op1 op2 dst pm => encodeAlu2 11 op1 op2 dst pm
  | .or op1 op2 dst pm => encodeAlu2 12 op1 op2 dst pm
  | .xor op1 op2 dst pm => encodeAlu2 13 op1 op2 dst pm
  | .mac op1 mm op2 acc pm => encodeMac 5 op1 mm op2 acc pm
  | .msu op1 mm op2 acc pm => encodeMac 7 op1 mm op2 acc pm
  | .abs op2 dst pm => encodeAlu1 0 op2 dst pm
  | .asr op2 dst pm => encodeAlu1 1 op2 dst pm
  | .lsr op2 dst pm => encodeAlu1 2 op2 dst pm
  | .lsrc op2 dst pm => encodeAlu1 3 op2 dst pm
  | .exp op2 dst pm => encodeAlu1 5 op2 dst pm
  | .sat op2 dst pm => encodeAlu1 6 op2 dst pm
  | .rnd op2 dst pm => encodeAlu1 7 op2 dst pm
  | .nopMove pm => withPMove (15 * 268435456 + 4 * 16777216) pm
  | .mul mm op2 op1 pm => withPMove (127 * 33554432 + mm.code * 8388608 + op2.code * 1048576
      + op1.code * 131072) pm
  | .lsl op2 dst pm => encodeAlu2 4 op2 op2 dst pm
  | .lslc op2 dst pm => encodeAlu2 8 op2 op2 dst pm
  | .not op2 dst pm => encodeAlu2 13 .ones op2 dst pm
  | .parShort x y => withPMove (15 * 268435456 + 4 * 16777216) (.short x y)
  | .parFull b m => withPMove (15 * 268435456 + 4 * 16777216) (.full b m)
  | .parUncoded m => withPMove (15 * 268435456 + 4 * 16777216) (.uncoded m)

/-- The instruction the decoder reads from a word of the opcode table: `w` in the table's bit
numbering (one 32-bit word, bit 0 least significant), bits from `nbits` up being 0. -/
def decodeTableWord (nbits w : Nat) : Option Instr :=
  match decode (BitVec.ofNat 32 (w % 2 ^ nbits)) with
  | .ok i => some i
  | .error _ => none

end Sys2Proof
end

