-- ==== Sys2Proof/Machine/Params.lean ====
section
/-! DEFINITION. Parameters of `92_eei_decisions.md` that have a default. -/

namespace Sys2Proof.Machine

/-- PRESUMED (unsafe), the spec's GK1: parameter MR0_POS (R36, D10, log 8), the positions of C, E, V, N, Z, L, S, I, R. -/
def mr0PosC : Nat := 0
def mr0PosE : Nat := 1
def mr0PosV : Nat := 2
def mr0PosN : Nat := 3
def mr0PosZ : Nat := 4
def mr0PosL : Nat := 5
def mr0PosS : Nat := 8
def mr0PosI : Nat := 9
def mr0PosR : Nat := 10

/-- DESIGN CHOICE (safe): parameter P_MODE_POLICY at its default (R223, D15, log 27). -/
def pModePolicy : PModePolicy := .strict

/-- DESIGN CHOICE (unsafe): parameter RND_R0 at its default (R194, D17, log 25). -/
def rndR0 : RndR0 := .trunc0

end Sys2Proof.Machine
end

