-- ==== Sys2Proof/Machine/State.lean ====
section
/-! DEFINITION. The machine's state as plain data (`10_state.md`), the reasons for which a step
stops, and the state after reset (R51, R390). -/

namespace Sys2Proof.Machine

/-- An accumulator: guard x2, high half x1, low half x0 (R22). -/
structure Accum where
  x2 : Byte
  x1 : Word
  x0 : Word
  deriving DecidableEq, Repr

/-- The nine named bits of MR0 (R36, R39 to R47). -/
structure Mr0 where
  s : Bool
  i : Bool
  r : Bool
  l : Bool
  z : Bool
  n : Bool
  v : Bool
  e : Bool
  c : Bool
  deriving DecidableEq, Repr

/-- DS: a pending delayed transfer, with the page it loads into IPR0 if any (R31). -/
structure Delayed where
  target : Word
  page   : Option Word
  deriving DecidableEq, Repr

/-- S and I when a multiplication last wrote P (R223). -/
structure PMode where
  s : Bool
  i : Bool
  deriving DecidableEq, Repr

/-- An interrupt vector: the address is 0x20 plus this number (R352, R355). -/
abbrev Vec := Fin 32

/-- HLT (R31, R330). -/
inductive Hlt where
  | running
  | waiting
  | draining (k : Fin 4) (vec : Vec)
  deriving DecidableEq, Repr

/-- PREVK: the kind of the previously executed instruction (R31). -/
inductive Kind where
  | other
  | cof
  | jmpi
  | ldsti
  deriving DecidableEq, Repr

/-- INTSM: the core's interrupt state machine (R31, R351). -/
inductive Intsm where
  | idle
  | pending (vec : Vec)
  deriving DecidableEq, Repr

/-- What the running instruction hands to the sequencing of R32. -/
inductive Transfer where
  | none
  | delayed (target : Word) (page : Option Word)
  | immediate (target : Word)
  deriving DecidableEq, Repr

/-- The kinds of address of X_MEM, Y_MEM and I_MEM (D2); `absent` is not admitted. -/
inductive MemKind where
  | ram
  | rom
  | device
  | absent
  deriving DecidableEq, Repr

/-- `size` consecutive word addresses of one kind. -/
structure Region where
  space : Space
  base  : Nat
  size  : Nat
  kind  : MemKind
  deriving DecidableEq, Repr

/-- The platform's parameters (D2, D19, D26, log 3): the first region that holds an address gives
its kind, and an address in no region is RAM; INT_GLOB_ENA_ADDR; the image that the platform loads. -/
structure Platform where
  regions    : List Region
  intGlobEna : Bus × Nat
  xImage     : List Host.Cell
  yImage     : List Host.Cell
  iImage     : List Host.Cell
  deriving DecidableEq, Repr

/-- What the environment does at one boundary (R352, R390, log 14). -/
inductive Event where
  | quiet
  | request (vec : Vec)
  | reset
  deriving DecidableEq, Repr

/-- Why the machine stops. The hardware has no fault (R350): each of these is the model's. -/
inductive Fault where
  /-- raised by a fetch, load or store at an address the platform does not admit: the core is stuck
  (R68, D2); safe -/
  | noMemory (space : Space) (address : Nat)
  /-- raised by an interrupt entry directly after a JMPI: unpredictable with no effect given (R323,
  R352); safe -/
  | interruptAfterJmpi
  /-- raised by an interrupt entry whose vector word is no JMPI: "any value for all state" (R353,
  U23); safe -/
  | vectorNotJmpi
  deriving DecidableEq, Repr

/-- Why a word is not run. -/
inductive Refusal where
  /-- raised by exec's arm of an instruction without a meaning (none is left); safe -/
  | notModelled (mnemonic : String)
  /-- raised by the decoder, and by a meaning given an ill-formed instruction (R119, R193, R194); safe -/
  | rejected (why : Reject)
  /-- raised by a word with two writers of one register (R140, R259, R402); safe -/
  | writeConflict
  /-- raised by a double register move within one unit (R283); safe -/
  | unitRestriction
  deriving DecidableEq, Repr

/-- The machine. `INVENTORY.md` lists every field with its rule and reset value. -/
structure State where
  accA     : Accum
  accB     : Accum
  accC     : Accum
  accD     : Accum
  p        : Code
  idx      : Vector Word 8
  pc       : Word
  lr0      : Word
  lr1      : Word
  mr0      : Mr0
  ipr0     : Word
  ipr1     : Word
  ls       : Word
  le       : Word
  lc       : Word
  ds       : Option Delayed
  lsup     : Fin 3
  fprev    : Mr0
  pmode    : Option PMode
  hlt      : Hlt
  prevk    : Kind
  intsm    : Intsm
  xmem     : List Host.Cell
  ymem     : List Host.Cell
  imem     : List Host.Cell
  /-- the environment (R12, R351, R352, R358; log 3, 14) -/
  plat     : Platform
  events   : List Event
  irqOff   : Bool
  /-- the model's own fields from here on (log 12, 37, 46, 47, 52) -/
  npc      : Word
  xfer     : Transfer
  pageOpen : Bool
  sti1     : Option Code
  sti2     : Option Code
  memEpoch : Nat
  freeCtr  : Nat
  deriving DecidableEq, Repr

/-- An accumulator of zeros. -/
def Accum.zero : Accum := { x2 := 0, x1 := 0, x0 := 0 }

/-- MR0 with all nine bits clear. -/
def Mr0.zero : Mr0 :=
  { s := false, i := false, r := false, l := false, z := false, n := false, v := false, e := false,
    c := false }

/-- DESIGN CHOICE (unsafe): the platform after reset, every address RAM (log 3). -/
def Platform.default : Platform :=
  { regions := [], intGlobEna := (.y, 0xC000), xImage := [], yImage := [], iImage := [] }

/-- The machine right after reset (R51, R390): every register zero except LE and PC. -/
def State.reset : State :=
  { accA := .zero, accB := .zero, accC := .zero, accD := .zero, p := 0,
    idx := Vector.replicate 8 0, pc := Config.resetVector, lr0 := 0, lr1 := 0, mr0 := .zero,
    ipr0 := 0, ipr1 := 0, ls := 0, le := 0xFFFF, lc := 0, ds := none, lsup := 0, fprev := .zero,
    pmode := none, hlt := .running, prevk := .other, intsm := .idle, xmem := [], ymem := [],
    imem := [], plat := .default, events := [], irqOff := false, npc := 0, xfer := .none,
    pageOpen := false, sti1 := none, sti2 := none, memEpoch := 0, freeCtr := 0 }

end Sys2Proof.Machine
end

