-- ==== Sys2Proof/Machine/Flags.lean ====
section
/-! DEFINITION. MR0 on the bus, the flags of a result (R43 to R47, R144), and the jump conditions (R311). -/

namespace Sys2Proof.Machine

/-- The five status flags an ALU operation writes (R48). -/
structure Flags where
  z : Bool
  n : Bool
  v : Bool
  e : Bool
  c : Bool
  deriving DecidableEq, Repr

/-- MR0 with its status flags replaced; S, I, R and L stay (R48). -/
def Mr0.withFlags (m : Mr0) (f : Flags) : Mr0 :=
  { m with z := f.z, n := f.n, v := f.v, e := f.e, c := f.c }

/-- V set also when the read of P saturated (R146, R180, D32, log 22). -/
def Flags.orV (f : Flags) (psat : Bool) : Flags := { f with v := f.v || psat }

/-- A word with one bit replaced. -/
def setBit (w : Word) (pos : Nat) (b : Bool) : Word :=
  if b then w ||| (1#16 <<< pos) else w &&& ~~~(1#16 <<< pos)

/-- What a read of MR0 drives: the nine bits at MR0_POS, every other bit from `junk` (R36, R260). -/
def Mr0.pack (m : Mr0) (junk : Word) : Word :=
  let w := setBit (setBit (setBit junk mr0PosC m.c) mr0PosE m.e) mr0PosV m.v
  let w := setBit (setBit (setBit w mr0PosN m.n) mr0PosZ m.z) mr0PosL m.l
  setBit (setBit (setBit w mr0PosS m.s) mr0PosI m.i) mr0PosR m.r

/-- What a write of MR0 stores: the nine bits at MR0_POS; the other bits are ignored (R36, R261). -/
def Mr0.unpack (w : Word) : Mr0 :=
  { s := w.getLsbD mr0PosS, i := w.getLsbD mr0PosI, r := w.getLsbD mr0PosR,
    l := w.getLsbD mr0PosL, z := w.getLsbD mr0PosZ, n := w.getLsbD mr0PosN,
    v := w.getLsbD mr0PosV, e := w.getLsbD mr0PosE, c := w.getLsbD mr0PosC }

/-- E: in a 40-bit operation, bits 39:31 are not all the same; 0 in a 16-bit one (R46, R144). -/
def extended {w : Nat} (r : BitVec w) : Bool :=
  w == 40 && r.extractLsb' 31 9 != 0 && r.extractLsb' 31 9 != BitVec.allOnes 9

/-- Z, N and E from the result as written, with V and C as given (R144). -/
def resultFlags {w : Nat} (r : BitVec w) (v c : Bool) : Flags :=
  { z := r == 0, n := r.msb, v := v, e := extended r, c := c }

/-- `lt` of R311: N xor (V and not S). -/
def Mr0.lessThan (m : Mr0) : Bool := m.n ^^ (m.v && !m.s)

/-- The condition of a code over a flag set (R117, R311). -/
def Cond.holds (c : Cond) (m : Mr0) : Bool :=
  match c with
  | .always => true
  | .cs => m.c
  | .es => m.e
  | .vs => m.v
  | .ns => m.n
  | .zs => m.z
  | .lt => m.lessThan
  | .le => m.lessThan || m.z
  | .cc => !m.c
  | .ec => !m.e
  | .vc => !m.v
  | .nc => !m.n
  | .zc => !m.z
  | .ge => !m.lessThan
  | .gt => !(m.lessThan || m.z)

end Sys2Proof.Machine
end

