-- ==== Sys2Proof/Machine/Memory.lean ====
section
/-! DEFINITION. Memory as a sorted list of byte cells (log 1, 2): a 16-bit word at address `a` of X
or Y is the cells 2a (low byte) and 2a+1, a 32-bit word at address `a` of I the cells 4a .. 4a+3,
low byte first. No instruction can observe this order (R63). -/

namespace Sys2Proof.Machine

/-- The canonical form: addresses strictly rising. An unlisted address holds no written value, so
no entry can equal what an unlisted address reads as (log 2). -/
def Memory.wf : List Host.Cell → Bool
  | [] => true
  | [_] => true
  | (a, _) :: (b, y) :: m => decide (a < b) && Memory.wf ((b, y) :: m)

/-- The byte written at an address, if any. -/
def Memory.get : List Host.Cell → Nat → Option Byte
  | [], _ => none
  | (b, x) :: m, a => if a = b then some x else Memory.get m a

/-- Write one byte, keeping the canonical form. -/
def Memory.set : List Host.Cell → Nat → Byte → List Host.Cell
  | [], a, v => [(a, v)]
  | (b, x) :: m, a, v =>
    if a < b then (a, v) :: (b, x) :: m
    else if a = b then (a, v) :: m
    else (b, x) :: Memory.set m a v

/-- Write a 16-bit word at a word address. -/
def Memory.set16 (m : List Host.Cell) (a : Nat) (v : Word) : List Host.Cell :=
  Memory.set (Memory.set m (2 * a) (v.extractLsb' 0 8)) (2 * a + 1) (v.extractLsb' 8 8)

/-- Write a 32-bit word at a word address. -/
def Memory.set32 (m : List Host.Cell) (a : Nat) (v : Code) : List Host.Cell :=
  Memory.set (Memory.set (Memory.set (Memory.set m (4 * a) (v.extractLsb' 0 8))
    (4 * a + 1) (v.extractLsb' 8 8)) (4 * a + 2) (v.extractLsb' 16 8)) (4 * a + 3)
    (v.extractLsb' 24 8)

/-- The memory of a space. DESIGN CHOICE (unsafe): the three are disjoint, so a data store never changes
an instruction word; whether they overlap physically is the platform's (R50, N19, log 58). -/
def State.mem (s : State) : Space → List Host.Cell
  | .x => s.xmem
  | .y => s.ymem
  | .i => s.imem

/-- One byte cell as a read sees it: what was written, or the unspecified initial contents (R51, D26). -/
def State.byteAt (s : State) (sp : Space) (k : Nat) : Byte :=
  (Memory.get (s.mem sp) k).getD (Config.unwritten s.memEpoch sp k)

/-- The stored 16-bit word at a word address of X or Y. -/
def State.word16 (s : State) (sp : Space) (a : Nat) : Word :=
  s.byteAt sp (2 * a + 1) ++ s.byteAt sp (2 * a)

/-- The stored 32-bit word at a word address of I. -/
def State.word32 (s : State) (a : Nat) : Code :=
  (s.byteAt .i (4 * a + 3) ++ s.byteAt .i (4 * a + 2)) ++
    (s.byteAt .i (4 * a + 1) ++ s.byteAt .i (4 * a))

/-- The kind of a word address on this platform (D2): the first region that holds it, else RAM. -/
def State.kindAt (s : State) (sp : Space) (a : Nat) : MemKind :=
  match s.plat.regions.find? (fun r => r.space == sp && r.base ≤ a && a < r.base + r.size) with
  | some r => r.kind
  | none => .ram

/-- The free value of a site in this step, `w` bits of it (log 12). -/
def State.free (s : State) (site : Site) (w : Nat) : BitVec w :=
  (Config.free s.freeCtr site).setWidth w

/-- A free bit. -/
def State.freeBit (s : State) (site : Site) : Bool :=
  (Config.free s.freeCtr site).getLsbD 0


end Sys2Proof.Machine
end

