-- ==== Sys2Proof/Machine/Operands.lean ====
section
/-! DEFINITION. Every way an instruction reads a register: the 16- and 40-bit ALU operands (R103,
R142), the read of P (R222, R223), the multiplier's operands (R221), and the registers a move can
name (R260). -/

namespace Sys2Proof.Machine

/-- The accumulator of a name (R22). -/
def State.acc (s : State) : Acc → Accum
  | .a => s.accA
  | .b => s.accB
  | .c => s.accC
  | .d => s.accD

/-- The 40-bit value `x2:x1:x0` (R7, R22). -/
def Accum.value (x : Accum) : Long := x.x2 ++ (x.x1 ++ x.x0)

/-- A 16-bit arithmetic register (R20). -/
def State.areg (s : State) : AReg → Word
  | .lo x => (s.acc x).x0
  | .hi x => (s.acc x).x1

/-- Index register `I[n]` (R26). -/
def State.index (s : State) (n : IReg) : Word := s.idx[n.val]

/-- The number of the pair register: the LSB of the number inverted (R26). -/
def IReg.pair (n : IReg) : IReg := n ^^^ 1

/-- A 16-bit register in a 40-bit operation: `S:reg:0000` (R103, R142). -/
def widen (v : Word) : Long := (v.signExtend 24 ++ (0#16 : Word) : BitVec (24 + 16))

/-- The modes under which P may not be read: S or I changed since the multiplication (R223, D15). -/
def State.pModeBroken (s : State) : Bool :=
  match pModePolicy, s.pmode with
  | .strict, some m => !(m.s == s.mr0.s && m.i == s.mr0.i)
  | .strict, none => false
  | .current, _ => false

/-- The product that the fractional shift pushes out of 32 bits with S = 0 (R222, PFRAC_OVF, log 26). -/
def fractionalOverflow (p : Code) : Long :=
  match Config.pfracOvf with
  | .wrap32 => (p <<< 1).signExtend 40
  | .keep40 => p.signExtend 40 <<< 1

/-- P as an ALU operand, and whether the read saturated (R222). Under other modes than at the
multiplication both are free (R223, log 27). -/
def State.pRead (s : State) : Long × Bool :=
  if s.pModeBroken then (s.free .pOperand 40, s.freeBit .pSaturated)
  else if s.mr0.i then (s.p.signExtend 40, false)
  else if s.p.getLsbD 31 == s.p.getLsbD 30 then ((s.p <<< 1).signExtend 40, false)
  else if s.mr0.s then (if s.p.getLsbD 31 then 0xFF80000000 else 0x007FFFFFFF, true)
  else (fractionalOverflow s.p, false)

/-- An operand in a 16-bit operation (R142). P and the accumulators never reach it (R141). -/
def State.operand16 (s : State) : AluSrc → Word
  | .reg r => s.areg r
  | .ones => 0xFFFF
  | .null | .p | .acc _ => 0

/-- An operand in a 40-bit operation (R142), and whether it was a read of P that saturated. -/
def State.operand40 (s : State) : AluSrc → Long × Bool
  | .reg r => (widen (s.areg r), false)
  | .null => (0, false)
  | .ones => (BitVec.allOnes 40, false)
  | .p => s.pRead
  | .acc x => ((s.acc x).value, false)

/-- The 32-bit product pattern of R221: each operand signed or unsigned by `mm`. -/
def product (mm : MulMode) (a b : Word) : Code :=
  match mm with
  | .ss => BitVec.ofInt 32 (a.toInt * b.toInt)
  | .su => BitVec.ofInt 32 (a.toInt * (b.toNat : Int))
  | .us => BitVec.ofInt 32 ((a.toNat : Int) * b.toInt)
  | .uu => BitVec.ofInt 32 ((a.toNat : Int) * (b.toNat : Int))

/-- S and I as a multiplication records them (R223). -/
def State.modes (s : State) : PMode := { s := s.mr0.s, i := s.mr0.i }

/-- Whether the loop-end test of the instruction executed next will fire (R399): it is at LE, LC is
not 0, L is clear and the test is not suppressed. -/
def State.nextTestFires (s : State) : Bool :=
  s.npc == s.le && s.lc != 0 && !s.mr0.l && s.lsup != 1

/-- LC as a move or LOOP sees it: next to a firing loop end either LC or LC - 1 (R399, D34, log 41). -/
def State.lcSeen (s : State) (port : Port) : Word :=
  if s.nextTestFires && s.freeBit (.lcSeen port) then s.lc - 1 else s.lc

/-- `readReg` of R260: the 16 bits a store, register move or LOOP takes from a register. The upper
byte of a guard register (R262), the unnamed bits of MR0 (R36) and NULL (R263) are free. -/
def State.readReg (s : State) (port : Port) : MoveReg → Word
  | .areg r => s.areg r
  | .lr0 => s.lr0
  | .lr1 => s.lr1
  | .mr0 => s.mr0.pack (s.free (.junk port) 16)
  | .null => s.free (.junk port) 16
  | .lc => s.lcSeen port
  | .ls => s.ls
  | .le => s.le
  | .idx n => s.index n
  | .guard x => (s.free (.junk port) 8 : Byte) ++ (s.acc x).x2
  | .nop => s.free (.junk port) 16
  | .ipr0 => s.ipr0
  | .ipr1 => s.ipr1

end Sys2Proof.Machine
end

