-- ==== Sys2Proof/Machine/Address.lean ====
section
/-! DEFINITION. Post-modification of index registers (R265 to R272), as functions of the index
register and its pair. -/

namespace Sys2Proof.Machine

/-- The smallest power of two that holds a buffer of `size` words, up to 8192 (R268). -/
def bufferSpan (size : Nat) : Nat :=
  ([1, 2, 4, 8, 16, 32, 64, 128, 256, 512, 1024, 2048, 4096, 8192].find?
    (fun k => decide (size ≤ k))).getD 8192

/-- `modstep` of R268: none where the offset lies outside the buffer or the step exceeds its size. -/
def modStep (i : Word) (step : Int) (size : Nat) : Option Word :=
  let span := bufferSpan size
  let base := i.toNat / span * span
  let off := i.toNat % span
  if off ≥ size ∨ step > size ∨ step < -(size : Int) then none
  else
    let moved : Int := off + step
    let wrapped :=
      if moved ≥ size then moved - size else if moved < 0 then moved + size else moved
    some (BitVec.ofInt 16 (base + wrapped))

/-- The number of bits of `q`, searched below `fuel` bits: one more than its highest 1 bit (R272). -/
def bitLength : Nat → Nat → Nat
  | 0, _ => 0
  | fuel + 1, q => if q = 0 then 0 else 1 + bitLength fuel (q / 2)

/-- `rev_k` of R272: the low `k` bits in reverse order. -/
def reverseBits : Nat → Nat → Nat
  | 0, _ => 0
  | k + 1, x => x % 2 * 2 ^ k + reverseBits k (x / 2)

/-- `bitrev` of R272: addition with the carry running towards the LSB, in a buffer of 2^k words. -/
def bitReverseStep (i m : Word) : Word :=
  let q := m.toNat % 8192
  if q = 0 then i
  else
    let k := bitLength 13 q
    let low := reverseBits k ((reverseBits k i.toNat + reverseBits k q) % 2 ^ k)
    BitVec.ofNat 16 (i.toNat / 2 ^ k * 2 ^ k + low)

/-- The two's complement number in the low `len` bits of `n` (R6). -/
def signedField (n len : Nat) : Int :=
  let v := n % 2 ^ len
  if v < 2 ^ (len - 1) then (v : Int) else (v : Int) - 2 ^ len

/-- `starmod` of R266: the mode is the three highest bits of the pair register `m`. None where R268
calls the result unpredictable. -/
def starMod (i m : Word) : Option Word :=
  match m.toNat / 8192 with
  | 0 => some (i + m)
  | 1 => modStep i (signedField (m.toNat / 64) 7) (m.toNat % 64 + 1)
  | 2 => modStep i (signedField (m.toNat / 64) 8) (m.toNat % 64 * 64 + 64)
  | 3 => modStep i (signedField (m.toNat / 64) 8) (m.toNat % 64 * 64 + 64)
  | 4 => modStep i 1 (m.toNat % 8192 + 1)
  | 5 => modStep i (-1) (m.toNat % 8192 + 1)
  | 6 => some (bitReverseStep i m)
  | _ => some (i + m)

/-- `postmod` of R265: the four-bit code is a two's complement step, except 1000, which steps by the
pair register. -/
def postMod (i m : Word) (post : BitVec 4) : Option Word :=
  if post = 8 then starMod i m else some (i + post.signExtend 16)

/-- `I[n]` after an access through it: free outside the domain of a modulo step (R268, D23, log 36). -/
def State.postMod (s : State) (port : Port) (n : IReg) (post : BitVec 4) : Word :=
  (Machine.postMod (s.index n) (s.index (IReg.pair n)) post).getD (s.free (.postMod port) 16)

end Sys2Proof.Machine
end

