-- ==== Sys2Proof/Machine/Alu.lean ====
section
/-! DEFINITION. Results and flags of the ALU at either width (`40_alu_arith.md`,
`41_alu_logic_shift.md`): each function takes operands of one width and returns the value written
and the flags. -/

namespace Sys2Proof.Machine

/-- A result of width `w` with the five flags. -/
structure AluOut (w : Nat) where
  r     : BitVec w
  flags : Flags
  deriving DecidableEq, Repr

/-- The largest positive value of a width (R145). -/
def maxPos (w : Nat) : BitVec w := BitVec.ofNat w (2 ^ (w - 1) - 1)

/-- The most negative value of a width (R145). -/
def minNeg (w : Nat) : BitVec w := BitVec.ofNat w (2 ^ (w - 1))

/-- `sat` of R145: on overflow in saturation mode, the limit on the side of `neg`. -/
def saturate {w : Nat} (mode v neg : Bool) (r : BitVec w) : BitVec w :=
  if mode && v then (if neg then minNeg w else maxPos w) else r

/-- `addcore` of R146, with `mode` the S bit. C is the carry of the unsaturated sum (D31). -/
def addCore {w : Nat} (mode : Bool) (a b : BitVec w) (cin : Bool) : AluOut w :=
  let t := a.toNat + b.toNat + cin.toNat
  let raw := BitVec.ofNat w t
  let v := a.msb == b.msb && raw.msb != a.msb
  let r := saturate mode v a.msb raw
  { r := r, flags := resultFlags r v (decide (2 ^ w ≤ t)) }

/-- `Op1 + ~Op2 + cin`: the subtractions of R149, R150 and R227. -/
def subCore {w : Nat} (mode : Bool) (a b : BitVec w) (cin : Bool) : AluOut w :=
  addCore mode a (~~~b) cin

/-- A logic result: V and C cleared (R180). -/
def logicOut {w : Nat} (r : BitVec w) : AluOut w :=
  { r := r, flags := resultFlags r false false }

/-- ABS (R151); C is the free bit `c` (D33, log 23). -/
def absOut {w : Nat} (mode c : Bool) (b : BitVec w) : AluOut w :=
  let v := b.msb && b == minNeg w
  let r := if b.msb then saturate mode v false (-b) else b
  { r := r, flags := resultFlags r v c }

/-- Right shift by one with `top` entering at the MSB and the LSB going to C (R187 to R189). -/
def shiftRightOut {w : Nat} (top : Bool) (b : BitVec w) : AluOut w :=
  let r := (b >>> 1) ||| (if top then minNeg w else 0)
  { r := r, flags := resultFlags r false (b.getLsbD 0) }

/-- How many of the bits `i-1, i-2, ..` of `b`, in this order, equal its MSB before one differs. -/
def signRun {w : Nat} (b : BitVec w) : Nat → Nat
  | 0 => 0
  | i + 1 => if b.getLsbD i == b.msb then 1 + signRun b i else 0

/-- The largest shift count of a width: 39 or 15 (R185, R186). -/
def shiftLimit (w : Nat) : Int := (w : Int) - 1

/-- ASHL with a count in range (R186). -/
def ashlInRange {w : Nat} (mode : Bool) (a : BitVec w) (n : Int) : AluOut w :=
  if n = 0 then { r := a, flags := resultFlags a false false }
  else if 0 < n then
    let k := n.toNat
    let v := decide (signRun a (w - 1) < k)
    let r := saturate mode v a.msb (a <<< k)
    { r := r, flags := resultFlags r v (a.getLsbD (w - k)) }
  else
    let m := (-n).toNat
    let r := a.sshiftRight m
    { r := r, flags := resultFlags r false (a.getLsbD (m - 1)) }

/-- ASHL: out of range the result and the five flags are free (R185, U1, log 28). -/
def State.ashlOut (s : State) {w : Nat} (a : BitVec w) (n : Int) : AluOut w :=
  if shiftLimit w < n ∨ n < -shiftLimit w then
    { r := s.free .shiftResult w,
      flags := { z := s.freeBit .shiftZ, n := s.freeBit .shiftN, v := s.freeBit .shiftV,
                 e := s.freeBit .shiftE, c := s.freeBit .shiftC } }
  else ashlInRange s.mr0.s a n

/-- `expCount` of R190 under either reading; 0 for the operand 0 (log 24). -/
def expCount {w : Nat} (b : BitVec w) : Nat :=
  if b = 0 then 0
  else
    match Config.expReading with
    | .redundant => signRun b (w - 1)
    | .runLength => signRun b (w - 1) + 1

/-- EXP's 16-bit result and flags (R192). -/
def expOut {w : Nat} (b : BitVec w) : AluOut 16 :=
  let r := BitVec.ofNat 16 (expCount b)
  { r := r, flags := { z := r == 0, n := false, v := false, e := false, c := false } }

/-- SAT: a 40-bit value to the 32-bit range (R193). -/
def satOut (b : Long) : AluOut 40 :=
  if 0x7FFFFFFF < b.toInt then
    { r := 0x007FFFFFFF, flags := { z := false, n := false, v := true, e := false, c := false } }
  else if b.toInt < -0x80000000 then
    { r := 0xFF80000000, flags := { z := false, n := true, v := true, e := false, c := false } }
  else { r := b, flags := { z := b == 0, n := b.msb, v := false, e := false, c := false } }

/-- The rounded quotient by 2^16 of R194: to nearest with ties to even when R = 1, else by RND_R0
(log 25). -/
def rounded (nearest : Bool) (x : Int) : Int :=
  let q := x / 65536
  let f := x % 65536
  if nearest then (if f > 0x8000 ∨ (f = 0x8000 ∧ q % 2 = 1) then q + 1 else q)
  else
    match rndR0 with
    | .trunc0 => if x < 0 ∧ f ≠ 0 then q + 1 else q
    | .floor => q
    | .nearestHalfToZero => if f > 0x8000 ∨ (f = 0x8000 ∧ x < 0) then q + 1 else q

/-- RND: a 40-bit value rounded and saturated to 16 bits (R194). -/
def rndOut (nearest : Bool) (b : Long) : AluOut 16 :=
  let q := rounded nearest b.toInt
  let v := decide (0x7FFF < q) || decide (q < -0x8000)
  let r : Word :=
    if 0x7FFF < q then 0x7FFF else if q < -0x8000 then 0x8000 else BitVec.ofInt 16 q
  { r := r, flags := { z := r == 0, n := r.msb, v := v, e := false, c := false } }

end Sys2Proof.Machine
end

