-- ==== Sys2Proof/Machine/Ops.lean ====
section
/-! DEFINITION. The named operations over registers and memory. An instruction word reads everything
first and then writes (R10, D5, log 57): its meaning computes from the state a list of `Write`s, and
`State.writes` performs them in order. Taking an interrupt (R353), returning from one (R317, R318)
and system reset (R390) stand at the end. -/

namespace Sys2Proof.Machine

/-- One write that an instruction word performs. -/
inductive Write where
  /-- a 16-bit arithmetic register, with the guard register after a high half (R24) -/
  | result16 (r : AReg) (v : Word)
  /-- a 40-bit accumulator, as computed (R24, R143) -/
  | result40 (x : Acc) (v : Long)
  /-- Z, N, V, E, C -/
  | flags (f : Flags)
  /-- P and the modes recorded with it (R223) -/
  | product (v : Code) (m : Option PMode)
  /-- a register named by a move code (R261) -/
  | reg (r : MoveReg) (v : Word)
  | index (n : IReg) (v : Word)
  /-- a word of X or Y memory at a key (log 33) -/
  | data (b : Bus) (key : Nat) (v : Word)
  /-- a word of instruction memory, by STI (R280) -/
  | code (addr : Code) (v : Code)
  /-- x1:x0 by LDI, with what stands in x2 (R280) -/
  | accLow (x : Acc) (v : Code) (guard : Byte)
  /-- the next-but-one loop-end test is suppressed (R398) -/
  | lsup
  /-- LR0 by CALLcc (R314) -/
  | link (v : Word)
  /-- L cleared by a change of flow (R320) -/
  | clearL
  /-- LS, LE and LC by LOOP (R325) -/
  | loop (ls le lc : Word)
  /-- IPR0 zeroed by JMPI (R321) -/
  | page0
  | transfer (t : Transfer)
  /-- HLT becomes waiting (R330) -/
  | halt
  deriving DecidableEq, Repr

/-! ### Registers -/

def State.setAcc (s : State) (x : Acc) (v : Accum) : State :=
  match x with
  | .a => { s with accA := v }
  | .b => { s with accB := v }
  | .c => { s with accC := v }
  | .d => { s with accD := v }

/-- The guard register that goes with a 16-bit value of the high half (R24). -/
def signGuard (v : Word) : Byte := if v.msb then 0xFF else 0x00

/-- A 16-bit write of an arithmetic register (R24). -/
def State.setAReg (s : State) (r : AReg) (v : Word) : State :=
  match r with
  | .lo x => s.setAcc x { s.acc x with x0 := v }
  | .hi x => s.setAcc x { s.acc x with x1 := v, x2 := signGuard v }

/-- A 40-bit write (R7, R24). -/
def State.setLong (s : State) (x : Acc) (v : Long) : State :=
  s.setAcc x { x2 := v.extractLsb' 32 8, x1 := v.extractLsb' 16 16, x0 := v.extractLsb' 0 16 }

def State.setIndex (s : State) (n : IReg) (v : Word) : State :=
  { s with idx := s.idx.set n.val v }

/-- A move into IPR0: the page of the following fetches is open unless the value is unchanged
(R37, R261, log 37). -/
def State.setIpr0 (s : State) (v : Word) : State :=
  if v = s.ipr0 then s else { s with ipr0 := v, pageOpen := true }

/-- `writeReg` of R261. -/
def State.writeReg (s : State) (r : MoveReg) (v : Word) : State :=
  match r with
  | .areg r => s.setAReg r v
  | .lr0 => { s with lr0 := v }
  | .lr1 => { s with lr1 := v }
  | .mr0 => { s with mr0 := Mr0.unpack v }
  | .null => s
  | .lc => { s with lc := v }
  | .ls => { s with ls := v }
  | .le => { s with le := v }
  | .idx n => s.setIndex n v
  | .guard x => s.setAcc x { s.acc x with x2 := v.extractLsb' 0 8 }
  | .nop => s
  | .ipr0 => s.setIpr0 v
  | .ipr1 => { s with ipr1 := v }

/-! ### Memory -/

/-- The key of a 32-bit X address `page:low` (R61, R278): inside the page that holds the 16-bit
space it is that space's own word, elsewhere a word of its own (log 33). -/
def longKey (page low : Word) : Nat :=
  if page = Config.xPage then low.toNat else 65536 + page.toNat * 65536 + low.toNat

/-- A load from X or Y (R8, R67, R68). -/
def State.readData (s : State) (b : Bus) (key : Nat) : Except Fault Word :=
  match s.kindAt b.space key with
  | .absent => .error (.noMemory b.space key)
  | .device => .ok (s.free (.device b.space) 16)
  | .ram => .ok (s.word16 b.space key)
  | .rom => .ok (s.word16 b.space key)

/-- Whether a store or an instruction-memory access is admitted (R68). -/
def State.admitted (s : State) (sp : Space) (a : Nat) : Bool := s.kindAt sp a != .absent

/-- The word of instruction memory at an address that is admitted (R8). -/
def State.codeWord (s : State) (a : Nat) : Code :=
  match s.kindAt .i a with
  | .device => s.free (.device .i) 32
  | .ram | .rom | .absent => s.word32 a

/-- Replace the memory behind a data bus. -/
def State.setData (s : State) (b : Bus) (m : List Host.Cell) : State :=
  match b with
  | .x => { s with xmem := m }
  | .y => { s with ymem := m }

/-- The write to INT_GLOB_ENA re-enables interrupts in the peripheral (R358, D19). -/
def State.noteEnable (s : State) (b : Bus) (key : Nat) : State :=
  if s.plat.intGlobEna = (b, key) then { s with irqOff := false } else s

/-- What stands in memory after a store: every admitted address but a device's takes the word, ROM
included (R67, R71, log 6); a device keeps nothing that a later read would return. -/
def State.storeData (s : State) (b : Bus) (key : Nat) (v : Word) : State :=
  match s.kindAt b.space key with
  | .ram | .rom => (s.setData b (Memory.set16 (s.mem b.space) key v)).noteEnable b key
  | .device => s.noteEnable b key
  | .absent => s

/-- A store to instruction memory by STI, remembered for R75. -/
def State.storeCode (s : State) (addr v : Code) : State :=
  match s.kindAt .i addr.toNat with
  | .ram | .rom => { s with imem := Memory.set32 s.imem addr.toNat v, sti1 := some addr }
  | .device => { s with sti1 := some addr }
  | .absent => s

/-! ### Performing writes -/

def State.write (s : State) : Write → State
  | .result16 r v => s.setAReg r v
  | .result40 x v => s.setLong x v
  | .flags f => { s with mr0 := s.mr0.withFlags f }
  | .product v m => { s with p := v, pmode := m }
  | .reg r v => s.writeReg r v
  | .index n v => s.setIndex n v
  | .data b key v => s.storeData b key v
  | .code addr v => s.storeCode addr v
  | .accLow x v g => s.setAcc x { x2 := g, x1 := v.extractLsb' 16 16, x0 := v.extractLsb' 0 16 }
  | .lsup => { s with lsup := 2 }
  | .link v => { s with lr0 := v }
  | .clearL => { s with mr0 := { s.mr0 with l := false } }
  | .loop ls le lc => { s with ls := ls, le := le, lc := lc }
  | .page0 => { s with ipr0 := 0, pageOpen := false }
  | .transfer t => { s with xfer := t }
  | .halt => { s with hlt := .waiting }

def State.writes (s : State) : List Write → State
  | [] => s
  | w :: ws => (s.write w).writes ws

/-- The outcome of a planned word: its writes performed, or the fault its reads met. -/
def perform (s : State) (plan : Except Fault (List Write)) : Host.Outcome State Fault Refusal :=
  match plan with
  | .error f => .fault f
  | .ok ws => .next (s.writes ws)

/-- Run a word that may be run: rejected if ill-formed (R119), refused if two of its parts write one
register (R259), performed otherwise. Every meaning is one call of this. -/
def runWord (i : Instr) (s : State) (plan : Except Fault (List Write)) :
    Host.Outcome State Fault Refusal :=
  match i.reject with
  | some why => .refused (.rejected why)
  | none => if i.conflict then .refused .writeConflict else perform s plan

/-! ### Moves -/

/-- The index update of an access: none for `(In)` (R265). -/
def State.postWrites (s : State) (port : Port) (n : IReg) (post : BitVec 4) : List Write :=
  if post = 0 then [] else [.index n (s.postMod port n post)]

/-- A memory load into a loop register suppresses a loop-end test (R398). -/
def lsupWrites : MoveReg → List Write
  | .lc | .ls | .le => [.lsup]
  | _ => []

/-- The index update of a full move; none for a move NOP (R264, R265). -/
def State.fullStep (s : State) (b : Bus) (m : FullMove) : List Write :=
  if m.reg = .nop then [] else s.postWrites b.port m.idx m.post

/-- The access of a full move: a load, a store, or none (R251 to R254, R263, R264). -/
def State.fullAccess (s : State) (b : Bus) (m : FullMove) : Except Fault (List Write) :=
  let key := (s.index m.idx).toNat
  if m.reg = .nop then .ok []
  else if m.store then
    if s.admitted b.space key then .ok [.data b key (s.readReg b.port m.reg)]
    else .error (.noMemory b.space key)
  else if m.reg = .null then .ok []
  else
    match s.readData b key with
    | .error f => .error f
    | .ok v => .ok (.reg m.reg v :: lsupWrites m.reg)

/-- Two plans of one word, both read from the state before it (R258). DESIGN CHOICE (safe): where
neither memory is there, the fault names the first, the X access (log 59). -/
def both (p q : Except Fault (List Write)) : Except Fault (List Write) :=
  match p, q with
  | .error f, _ => .error f
  | .ok _, .error f => .error f
  | .ok ws, .ok vs => .ok (ws ++ vs)

/-- A full move on a bus: a load wins over the step of the index register it loads (D6, log 29). -/
def State.fullMove (s : State) (b : Bus) (m : FullMove) : Except Fault (List Write) :=
  both (.ok (s.fullStep b m)) (s.fullAccess b m)

/-- A load from memory into LS, LE or LC. -/
def loadsLoop (m : FullMove) : Bool :=
  !m.store && (m.reg == .lc || m.reg == .ls || m.reg == .le)

/-- The state in which the registers of a double move are read: beside a load of a loop register the
next loop-end test is not suppressed, and a read of LC sees that (R398, R399, log 41). -/
def State.reading (s : State) (x y : FullMove) : State :=
  if loadsLoop x || loadsLoop y then { s with lsup := 2 } else s

/-- An X move and a Y move in one word (R256, R74). -/
def State.doubleMove (s : State) (x y : FullMove) : Except Fault (List Write) :=
  let r := s.reading x y
  both (.ok (s.fullStep .x x ++ s.fullStep .y y)) (both (r.fullAccess .x x) (r.fullAccess .y y))

/-- A register-to-register move (R282); with the move NOP it does not happen (R264). -/
def State.regMove (s : State) (port : Port) (src dst : MoveReg) : List Write :=
  if src = .nop then [] else [.reg dst (s.readReg port src)]

/-- The long-X move: the address is `Ibar(n):I[n]`, no index update (R278, C12). -/
def State.longMove (s : State) (store : Bool) (reg : MoveReg) (n : IReg) :
    Except Fault (List Write) :=
  let key := longKey (s.index (IReg.pair n)) (s.index n)
  if reg = .nop then .ok []
  else if store then
    if s.admitted .x key then .ok [.data .x key (s.readReg .x reg)] else .error (.noMemory .x key)
  else if reg = .null then .ok []
  else
    match s.readData .x key with
    | .error f => .error f
    | .ok v => .ok (.reg reg v :: lsupWrites reg)

/-- LDI and STI (R280): the page of the access and x2 after LDI are not stated and free (log 32). -/
def State.ibusMove (s : State) (store : Bool) (x : Acc) (n : IReg) (post : BitVec 4) :
    Except Fault (List Write) :=
  let addr : Code := (s.free .ibusPage 16 : Word) ++ s.index n
  let update := s.postWrites .x n post
  if s.admitted .i addr.toNat then
    if store then .ok (.code addr ((s.acc x).x1 ++ (s.acc x).x0) :: update)
    else .ok (.accLow x (s.codeWord addr.toNat) (s.free .ibusGuard 8) :: update)
  else .error (.noMemory .i addr.toNat)

/-- A parallel move whose coding is lost (R116). -/
def State.uncodedMove (s : State) : UncodedMove → Except Fault (List Write)
  | .regMove src dst => .ok (s.regMove .x src dst)
  | .longX store reg n => s.longMove store reg n
  | .ibus store x n post => s.ibusMove store x n post

/-- The parallel move of a word (R255, R257, R115). -/
def State.parallel (s : State) : PMove → Except Fault (List Write)
  | .full b m => s.fullMove b m
  | .short x y => s.doubleMove x.full y.full
  | .uncoded m => s.uncodedMove m

/-- A word with an ALU or multiplier operation and a parallel move: the move's writes come last, so
that a move into MR0 overrides the flags (R36, R140). -/
def runParallel (i : Instr) (s : State) (op : List Write) (pm : PMove) :
    Host.Outcome State Fault Refusal :=
  runWord i s (both (.ok op) (s.parallel pm))

/-! ### ALU plans -/

/-- A 40-bit result with its flags (R143). -/
def writeWide (dst : AReg) (o : AluOut 40) : List Write := [.result40 dst.acc o.r, .flags o.flags]

/-- A 16-bit result with its flags (R143). -/
def writeNarrow (dst : AReg) (o : AluOut 16) : List Write := [.result16 dst o.r, .flags o.flags]

/-- V set when the read of P saturated (R146, R180). -/
def AluOut.orV {w : Nat} (o : AluOut w) (psat : Bool) : AluOut w :=
  { o with flags := o.flags.orV psat }

/-- A two-operand operation at the width its operands give (R141). -/
def State.alu2 (s : State) (f : (w : Nat) → BitVec w → BitVec w → AluOut w)
    (op1 op2 : AluSrc) (dst : AReg) : List Write :=
  if wide2 op1 op2 then
    let b := s.operand40 op2
    writeWide dst ((f 40 (s.operand40 op1).1 b.1).orV b.2)
  else writeNarrow dst (f 16 (s.operand16 op1) (s.operand16 op2))

/-- A single-operand operation at the width of its operand (R141). -/
def State.alu1 (s : State) (f : (w : Nat) → BitVec w → AluOut w) (op2 : AluSrc) (dst : AReg) :
    List Write :=
  if op2.wide then
    let b := s.operand40 op2
    writeWide dst ((f 40 b.1).orV b.2)
  else writeNarrow dst (f 16 (s.operand16 op2))

/-- The multiplier's write: the product and the modes it was formed under (R221, R223). -/
def State.multiply (s : State) (mm : MulMode) (op1 op2 : AReg) : Write :=
  .product (product mm (s.areg op1) (s.areg op2)) (some s.modes)

/-- The previous product added to or subtracted from an accumulator, and a new product (R226, R227). -/
def State.accumulate (s : State) (f : Long → Long → AluOut 40) (op1 : AReg) (mm : MulMode)
    (op2 acc : AReg) : List Write :=
  let p := s.pRead
  writeWide acc ((f (s.acc acc.acc).value p.1).orV p.2) ++ [s.multiply mm op1 op2]

/-! ### Control -/

/-- The outcome of a condition: the flags before the preceding instruction and the flags of MR0 must
agree, else it is free (R312, U10, log 38). -/
def State.takes (s : State) (c : Cond) : Bool :=
  if Cond.holds c s.fprev == Cond.holds c s.mr0 then Cond.holds c s.mr0 else s.freeBit .condition

/-- A delayed transfer if taken; L is cleared in any case (R313, R320). -/
def jumpWrites (taken : Bool) (target : Word) (page : Option Word) : List Write :=
  if taken then [.clearL, .transfer (.delayed target page)] else [.clearL]

/-- Return from interrupt: PC from LR1 after the delay slot, with a page if one is named; L is
cleared and nothing else is restored (R317, R318, R356). -/
def State.returnWrites (s : State) (page : Option Word) : List Write :=
  jumpWrites true s.lr1 page

/-- The address of an interrupt vector (R353). -/
def vectorAddress (vec : Vec) : Word := BitVec.ofNat 16 (32 + vec.val)

/-- `take Interrupt(vec)` of R353: LR1 and IPR1 take the return address and page, L is set, the page
is zero, and the core runs on at the vector. -/
def State.takeInterrupt (s : State) (vec : Vec) : State :=
  { s with lr1 := s.pc, ipr1 := s.ipr0, mr0 := { s.mr0 with l := true },
           fprev := { s.mr0 with l := true }, ipr0 := 0, pageOpen := false,
           pc := vectorAddress vec, ds := none, lsup := 0, prevk := .other, hlt := .running,
           intsm := .idle }

/-- System reset (R390): the reset state over the same platform. Memory holds the platform's image
and is otherwise unspecified anew (D26, log 47); the script goes on after the reset event. -/
def State.systemReset (s : State) : State :=
  { State.reset with plat := s.plat, events := s.events.tail, irqOff := s.freeBit .resetIrqOff,
                     xmem := s.plat.xImage, ymem := s.plat.yImage, imem := s.plat.iImage,
                     memEpoch := s.freeCtr + 1, freeCtr := s.freeCtr + 1 }

end Sys2Proof.Machine
end

