-- ==== Sys2Proof/Machine/Arith.lean ====
section
/-! DEFINITION. The add and subtract family (`40_alu_arith.md`). -/

namespace Sys2Proof.Machine

/-- ADD (R147). -/
def execAdd (op1 op2 : AluSrc) (dst : AReg) (pm : PMove) (s : State) :
    Host.Outcome State Fault Refusal :=
  runParallel (.add op1 op2 dst pm) s
    (s.alu2 (fun _ a b => addCore s.mr0.s a b false) op1 op2 dst) pm

/-- ADDC (R148). -/
def execAddc (op1 op2 : AluSrc) (dst : AReg) (pm : PMove) (s : State) :
    Host.Outcome State Fault Refusal :=
  runParallel (.addc op1 op2 dst pm) s
    (s.alu2 (fun _ a b => addCore s.mr0.s a b s.mr0.c) op1 op2 dst) pm

/-- SUB (R149). -/
def execSub (op1 op2 : AluSrc) (dst : AReg) (pm : PMove) (s : State) :
    Host.Outcome State Fault Refusal :=
  runParallel (.sub op1 op2 dst pm) s
    (s.alu2 (fun _ a b => subCore s.mr0.s a b true) op1 op2 dst) pm

/-- SUBC: `Op1 + ~Op2 + C` (R150, C4, D12, log 19). -/
def execSubc (op1 op2 : AluSrc) (dst : AReg) (pm : PMove) (s : State) :
    Host.Outcome State Fault Refusal :=
  runParallel (.subc op1 op2 dst pm) s
    (s.alu2 (fun _ a b => subCore s.mr0.s a b s.mr0.c) op1 op2 dst) pm

/-- ABS (R151). -/
def execAbs (op2 : AluSrc) (dst : AReg) (pm : PMove) (s : State) :
    Host.Outcome State Fault Refusal :=
  runParallel (.abs op2 dst pm) s
    (s.alu1 (fun _ b => absOut s.mr0.s (s.freeBit .absCarry) b) op2 dst) pm

/-- LSL: ADD with the operand twice (R153, C15). -/
def execLsl (op2 : AluSrc) (dst : AReg) (pm : PMove) (s : State) :
    Host.Outcome State Fault Refusal :=
  runParallel (.lsl op2 dst pm) s
    (s.alu2 (fun _ a b => addCore s.mr0.s a b false) op2 op2 dst) pm

/-- LSLC: ADDC with the operand twice (R154, C15). -/
def execLslc (op2 : AluSrc) (dst : AReg) (pm : PMove) (s : State) :
    Host.Outcome State Fault Refusal :=
  runParallel (.lslc op2 dst pm) s
    (s.alu2 (fun _ a b => addCore s.mr0.s a b s.mr0.c) op2 op2 dst) pm

end Sys2Proof.Machine
end

