-- ==== Sys2Proof/Machine/Control.lean ====
section
/-! DEFINITION. Control flow (`44_control.md`). `s.pc` is the address `a` of the instruction itself;
the transfer it produces is handed to the sequencing of R32 (`Machine/Flow.lean`). -/

namespace Sys2Proof.Machine

/-- Jcc (R313). -/
def execJcc (addr : Word) (cond : Cond) (s : State) : Host.Outcome State Fault Refusal :=
  runWord (.jcc addr cond) s (.ok (jumpWrites (s.takes cond) addr none))

/-- CALLcc: LR0 is written whether or not the call is taken (R314, D30, log 44). -/
def execCallcc (addr : Word) (cond : Cond) (s : State) : Host.Outcome State Fault Refusal :=
  runWord (.callcc addr cond) s
    (.ok (.link (s.pc + 2) :: jumpWrites (s.takes cond) addr none))

/-- JRcc (R315). -/
def execJrcc (cond : Cond) (s : State) : Host.Outcome State Fault Refusal :=
  runWord (.jrcc cond) s (.ok (jumpWrites (s.takes cond) s.lr0 none))

/-- JRcc (Op1): with a page change (R316). -/
def execJrccOp1 (cond : Cond) (page : IReg) (s : State) : Host.Outcome State Fault Refusal :=
  runWord (.jrccOp1 cond page) s
    (.ok (jumpWrites (s.takes cond) s.lr0 (some (s.index page))))

/-- RETI (R317). -/
def execReti (s : State) : Host.Outcome State Fault Refusal :=
  runWord .reti s (.ok (s.returnWrites none))

/-- RETI (Op1): with a page change (R318). -/
def execRetiOp1 (page : IReg) (s : State) : Host.Outcome State Fault Refusal :=
  runWord (.retiOp1 page) s (.ok (s.returnWrites (some (s.index page))))

/-- JMPI's step of its index register (R274, R322). -/
def jmpiStep (mm : JmpiStep) (v : Word) : Word :=
  match mm with
  | .keep => v
  | .inc => v + 1
  | .dec => v - 1

/-- JMPI (R321). -/
def execJmpi (addr : Word) (mm : JmpiStep) (reg : IReg) (s : State) :
    Host.Outcome State Fault Refusal :=
  runWord (.jmpi addr mm reg) s
    (.ok [.index reg (jmpiStep mm (s.index reg)), .page0, .transfer (.immediate addr)])

/-- LOOP (R325). -/
def execLoop (last : Word) (count : MoveReg) (s : State) : Host.Outcome State Fault Refusal :=
  runWord (.loop last count) s
    (.ok [.loop (s.pc + 2) last (s.readReg .loop count), .clearL])

/-- HALT: a NOP unless the interrupt state machine is idle (R330). -/
def execHalt (s : State) : Host.Outcome State Fault Refusal :=
  runWord .halt s (.ok (if s.intsm = .idle then [.halt] else []))

end Sys2Proof.Machine
end

