-- ==== Sys2Proof/Machine/Logic.lean ====
section
/-! DEFINITION. Logic, shift, count, saturate and round (`41_alu_logic_shift.md`). -/

namespace Sys2Proof.Machine

/-- AND (R181). -/
def execAnd (op1 op2 : AluSrc) (dst : AReg) (pm : PMove) (s : State) :
    Host.Outcome State Fault Refusal :=
  runParallel (.and op1 op2 dst pm) s (s.alu2 (fun _ a b => logicOut (a &&& b)) op1 op2 dst) pm

/-- OR (R182). -/
def execOr (op1 op2 : AluSrc) (dst : AReg) (pm : PMove) (s : State) :
    Host.Outcome State Fault Refusal :=
  runParallel (.or op1 op2 dst pm) s (s.alu2 (fun _ a b => logicOut (a ||| b)) op1 op2 dst) pm

/-- XOR (R183). -/
def execXor (op1 op2 : AluSrc) (dst : AReg) (pm : PMove) (s : State) :
    Host.Outcome State Fault Refusal :=
  runParallel (.xor op1 op2 dst pm) s (s.alu2 (fun _ a b => logicOut (a ^^^ b)) op1 op2 dst) pm

/-- NOT: the complement at the operand's width (R184). -/
def execNot (op2 : AluSrc) (dst : AReg) (pm : PMove) (s : State) :
    Host.Outcome State Fault Refusal :=
  runParallel (.not op2 dst pm) s (s.alu1 (fun _ b => logicOut (~~~b)) op2 dst) pm

/-- ASHL: the width is Op1's, the count Op2's 16 bits (R186). -/
def execAshl (op1 op2 : AluSrc) (dst : AReg) (pm : PMove) (s : State) :
    Host.Outcome State Fault Refusal :=
  runParallel (.ashl op1 op2 dst pm) s
    (s.alu1 (fun _ a => s.ashlOut a (s.operand16 op2).toInt) op1 dst) pm

/-- ASR (R187, C5, D13, log 20). -/
def execAsr (op2 : AluSrc) (dst : AReg) (pm : PMove) (s : State) :
    Host.Outcome State Fault Refusal :=
  runParallel (.asr op2 dst pm) s (s.alu1 (fun _ b => shiftRightOut b.msb b) op2 dst) pm

/-- LSR (R188). -/
def execLsr (op2 : AluSrc) (dst : AReg) (pm : PMove) (s : State) :
    Host.Outcome State Fault Refusal :=
  runParallel (.lsr op2 dst pm) s (s.alu1 (fun _ b => shiftRightOut false b) op2 dst) pm

/-- LSRC (R189). -/
def execLsrc (op2 : AluSrc) (dst : AReg) (pm : PMove) (s : State) :
    Host.Outcome State Fault Refusal :=
  runParallel (.lsrc op2 dst pm) s (s.alu1 (fun _ b => shiftRightOut s.mr0.c b) op2 dst) pm

/-- EXP: an operand of either width, a 16-bit result (R192). -/
def execExp (op2 : AluSrc) (dst : AReg) (pm : PMove) (s : State) :
    Host.Outcome State Fault Refusal :=
  runParallel (.exp op2 dst pm) s
    (writeNarrow dst
      (if op2.wide then (expOut (s.operand40 op2).1).orV (s.operand40 op2).2
       else expOut (s.operand16 op2))) pm

/-- SAT (R193). -/
def execSat (op2 : AluSrc) (dst : AReg) (pm : PMove) (s : State) :
    Host.Outcome State Fault Refusal :=
  runParallel (.sat op2 dst pm) s
    (writeWide dst ((satOut (s.operand40 op2).1).orV (s.operand40 op2).2)) pm

/-- RND (R194). -/
def execRnd (op2 : AluSrc) (dst : AReg) (pm : PMove) (s : State) :
    Host.Outcome State Fault Refusal :=
  runParallel (.rnd op2 dst pm) s
    (writeNarrow dst ((rndOut s.mr0.r (s.operand40 op2).1).orV (s.operand40 op2).2)) pm

/-- NOP beside a move: the move alone (R195). -/
def execNopMove (pm : PMove) (s : State) : Host.Outcome State Fault Refusal :=
  runParallel (.nopMove pm) s [] pm

end Sys2Proof.Machine
end

