-- ==== Sys2Proof/Machine/Moves.lean ====
section
/-! DEFINITION. Moves and LDC (`43_moves.md`). -/

namespace Sys2Proof.Machine

/-- LDC (R276). -/
def execLdc (const : Word) (reg : MoveReg) (s : State) : Host.Outcome State Fault Refusal :=
  runWord (.ldc const reg) s (.ok [.reg reg const])

/-- The total NOP: LDC to the NOP register (R121, R264). -/
def execNop (s : State) : Host.Outcome State Fault Refusal :=
  runWord .nop s (.ok [])

/-- Double full move (R256). -/
def execDmove (x y : FullMove) (s : State) : Host.Outcome State Fault Refusal :=
  runWord (.dmove x y) s (s.doubleMove x y)

/-- LDX (R251). -/
def execLdx (idx : IReg) (post : BitVec 4) (reg : MoveReg) (s : State) :
    Host.Outcome State Fault Refusal :=
  runWord (.ldx idx post reg) s
    (s.fullMove .x { store := false, idx := idx, post := post, reg := reg })

/-- STX (R253). -/
def execStx (idx : IReg) (post : BitVec 4) (reg : MoveReg) (s : State) :
    Host.Outcome State Fault Refusal :=
  runWord (.stx idx post reg) s
    (s.fullMove .x { store := true, idx := idx, post := post, reg := reg })

/-- LDY (R252). -/
def execLdy (idx : IReg) (post : BitVec 4) (reg : MoveReg) (s : State) :
    Host.Outcome State Fault Refusal :=
  runWord (.ldy idx post reg) s
    (s.fullMove .y { store := false, idx := idx, post := post, reg := reg })

/-- STY (R254). -/
def execSty (idx : IReg) (post : BitVec 4) (reg : MoveReg) (s : State) :
    Host.Outcome State Fault Refusal :=
  runWord (.sty idx post reg) s
    (s.fullMove .y { store := true, idx := idx, post := post, reg := reg })

/-- Two short moves (R255). -/
def execParShort (x y : ShortMove) (s : State) : Host.Outcome State Fault Refusal :=
  runWord (.parShort x y) s (s.doubleMove x.full y.full)

/-- One full move in the parallel field (R257). -/
def execParFull (bus : Bus) (m : FullMove) (s : State) : Host.Outcome State Fault Refusal :=
  runWord (.parFull bus m) s (s.fullMove bus m)

/-- A register move, long-X move, LDI or STI (R278, R280, R282). -/
def execParUncoded (m : UncodedMove) (s : State) : Host.Outcome State Fault Refusal :=
  runWord (.parUncoded m) s (s.uncodedMove m)

/-- Double register move: both sources are read, then both targets written; each move must join two
different units (R283). -/
def execMvDouble (xSrc xDst ySrc yDst : MoveReg) (s : State) : Host.Outcome State Fault Refusal :=
  if sameUnit xSrc xDst || sameUnit ySrc yDst then .refused .unitRestriction
  else
    runWord (.mvDouble xSrc xDst ySrc yDst) s
      (.ok (s.regMove .x xSrc xDst ++ s.regMove .y ySrc yDst))

end Sys2Proof.Machine
end

