-- ==== Sys2Proof/Machine/Multiply.lean ====
section
/-! DEFINITION. MUL, MAC, MSU and RESP (`42_multiply.md`). -/

namespace Sys2Proof.Machine

/-- MUL (R225). -/
def execMul (mm : MulMode) (op2 op1 : AReg) (pm : PMove) (s : State) :
    Host.Outcome State Fault Refusal :=
  runParallel (.mul mm op2 op1 pm) s [s.multiply mm op1 op2] pm

/-- MAC (R226). -/
def execMac (op1 : AReg) (mm : MulMode) (op2 acc : AReg) (pm : PMove) (s : State) :
    Host.Outcome State Fault Refusal :=
  runParallel (.mac op1 mm op2 acc pm) s
    (s.accumulate (fun a p => addCore s.mr0.s a p false) op1 mm op2 acc) pm

/-- MSU (R227). -/
def execMsu (op1 : AReg) (mm : MulMode) (op2 acc : AReg) (pm : PMove) (s : State) :
    Host.Outcome State Fault Refusal :=
  runParallel (.msu op1 mm op2 acc pm) s
    (s.accumulate (fun a p => subCore s.mr0.s a p true) op1 mm op2 acc) pm

/-- RESP: P0 from Op1, P1 from Op2; the modes recorded with P are forgotten (R228). -/
def execResp (op1 op2 : AReg) (s : State) : Host.Outcome State Fault Refusal :=
  runWord (.resp op1 op2) s (.ok [.product (s.areg op2 ++ s.areg op1) none])

end Sys2Proof.Machine
end

