-- ==== Sys2Proof/Machine/Dispatch.lean ====
section
/-! DEFINITION. One arm per constructor of Instr, each one direct call of its meaning. -/

namespace Sys2Proof.Machine

def exec (i : Instr) (s : State) : Host.Outcome State Fault Refusal :=
  match i with
  | .ldc const reg => Sys2Proof.Machine.execLdc const reg s
  | .nop => Sys2Proof.Machine.execNop s
  | .jrcc cond => Sys2Proof.Machine.execJrcc cond s
  | .jrccOp1 cond page => Sys2Proof.Machine.execJrccOp1 cond page s
  | .reti => Sys2Proof.Machine.execReti s
  | .retiOp1 page => Sys2Proof.Machine.execRetiOp1 page s
  | .resp op1 op2 => Sys2Proof.Machine.execResp op1 op2 s
  | .loop last count => Sys2Proof.Machine.execLoop last count s
  | .jcc addr cond => Sys2Proof.Machine.execJcc addr cond s
  | .callcc addr cond => Sys2Proof.Machine.execCallcc addr cond s
  | .jmpi addr mm reg => Sys2Proof.Machine.execJmpi addr mm reg s
  | .mvDouble xSrc xDst ySrc yDst => Sys2Proof.Machine.execMvDouble xSrc xDst ySrc yDst s
  | .halt => Sys2Proof.Machine.execHalt s
  | .dmove x y => Sys2Proof.Machine.execDmove x y s
  | .ldx idx post reg => Sys2Proof.Machine.execLdx idx post reg s
  | .stx idx post reg => Sys2Proof.Machine.execStx idx post reg s
  | .ldy idx post reg => Sys2Proof.Machine.execLdy idx post reg s
  | .sty idx post reg => Sys2Proof.Machine.execSty idx post reg s
  | .add op1 op2 dst pm => Sys2Proof.Machine.execAdd op1 op2 dst pm s
  | .sub op1 op2 dst pm => Sys2Proof.Machine.execSub op1 op2 dst pm s
  | .addc op1 op2 dst pm => Sys2Proof.Machine.execAddc op1 op2 dst pm s
  | .subc op1 op2 dst pm => Sys2Proof.Machine.execSubc op1 op2 dst pm s
  | .ashl op1 op2 dst pm => Sys2Proof.Machine.execAshl op1 op2 dst pm s
  | .and op1 op2 dst pm => Sys2Proof.Machine.execAnd op1 op2 dst pm s
  | .or op1 op2 dst pm => Sys2Proof.Machine.execOr op1 op2 dst pm s
  | .xor op1 op2 dst pm => Sys2Proof.Machine.execXor op1 op2 dst pm s
  | .mac op1 mm op2 acc pm => Sys2Proof.Machine.execMac op1 mm op2 acc pm s
  | .msu op1 mm op2 acc pm => Sys2Proof.Machine.execMsu op1 mm op2 acc pm s
  | .abs op2 dst pm => Sys2Proof.Machine.execAbs op2 dst pm s
  | .asr op2 dst pm => Sys2Proof.Machine.execAsr op2 dst pm s
  | .lsr op2 dst pm => Sys2Proof.Machine.execLsr op2 dst pm s
  | .lsrc op2 dst pm => Sys2Proof.Machine.execLsrc op2 dst pm s
  | .exp op2 dst pm => Sys2Proof.Machine.execExp op2 dst pm s
  | .sat op2 dst pm => Sys2Proof.Machine.execSat op2 dst pm s
  | .rnd op2 dst pm => Sys2Proof.Machine.execRnd op2 dst pm s
  | .nopMove pm => Sys2Proof.Machine.execNopMove pm s
  | .mul mm op2 op1 pm => Sys2Proof.Machine.execMul mm op2 op1 pm s
  | .lsl op2 dst pm => Sys2Proof.Machine.execLsl op2 dst pm s
  | .lslc op2 dst pm => Sys2Proof.Machine.execLslc op2 dst pm s
  | .not op2 dst pm => Sys2Proof.Machine.execNot op2 dst pm s
  | .parShort x y => Sys2Proof.Machine.execParShort x y s
  | .parFull bus m => Sys2Proof.Machine.execParFull bus m s
  | .parUncoded m => Sys2Proof.Machine.execParUncoded m s

end Sys2Proof.Machine
end

