-- ==== Sys2Proof/Machine/Fetch.lean ====
section
/-! DEFINITION. Fetching an instruction word (R30, R32, R62), and placing one where the next step
fetches it (log 48). -/

namespace Sys2Proof.Machine

/-- The page of the fetch: IPR0, or a free page after a move changed IPR0 (R261, U18, log 37). -/
def State.fetchPage (s : State) : Word := if s.pageOpen then s.free .fetchPage 16 else s.ipr0

/-- The 32-bit address `page:pc` of an instruction word (R30). -/
def codeAddress (page pc : Word) : Code := page ++ pc

/-- The word at `IPR0:PC`. A word that an STI wrote one or two instructions ago is free (R75, U24,
log 46); an address that is not admitted stops the machine (R68). -/
def State.fetch (s : State) : Except Fault Code :=
  let addr := codeAddress s.fetchPage s.pc
  if s.admitted .i addr.toNat then
    if s.sti1 = some addr ∨ s.sti2 = some addr then .ok (s.free .stiFetch 32)
    else .ok (s.codeWord addr.toNat)
  else .error (.noMemory .i addr.toNat)

/-- Make one instruction address RAM, if the platform does not let a word be stored and fetched
there. -/
def Platform.withCode (p : Platform) (a : Nat) : Platform :=
  { p with regions := { space := .i, base := a, size := 1, kind := .ram } :: p.regions }

/-- Store a word where the next step fetches, and clear what would keep that step from running it:
pending events, an interrupt about to be entered, HALT, an open page, an STI just done (log 48). -/
def State.placeFetchWord (s : State) (w : Code) : State :=
  let a := (codeAddress s.ipr0 s.pc).toNat
  let plat := if s.kindAt .i a = .ram ∨ s.kindAt .i a = .rom then s.plat else s.plat.withCode a
  { s with imem := Memory.set32 s.imem a w, plat := plat, events := [], intsm := .idle,
           hlt := .running, pageOpen := false, sti1 := none, sti2 := none }

end Sys2Proof.Machine
end

