-- ==== Sys2Proof/Machine/Flow.lean ====
section
/-! DEFINITION. The sequencing of R32 around one instruction, its hazards (R392, R393, R397, R401),
and what happens at a boundary between instructions (R351, R352, R353, R330, R390). -/

namespace Sys2Proof.Machine

/-! ### Kinds of instruction -/

/-- LDI and STI (R31, R401). -/
def uncodedKind : UncodedMove → Kind
  | .ibus _ _ _ _ => .ldsti
  | .regMove _ _ | .longX _ _ _ => .other

/-- The kind a parallel move gives its word. -/
def pmoveKind : PMove → Kind
  | .uncoded m => uncodedKind m
  | .full _ _ | .short _ _ => .other

/-- PREVK's value after an instruction (R31). -/
def kindOf : Instr → Kind
  | .jrcc _ | .jrccOp1 _ _ | .reti | .retiOp1 _ | .loop _ _ | .jcc _ _ | .callcc _ _ => .cof
  | .jmpi _ _ _ => .jmpi
  | .parUncoded m => uncodedKind m
  | .add _ _ _ pm | .sub _ _ _ pm | .addc _ _ _ pm | .subc _ _ _ pm | .ashl _ _ _ pm
  | .and _ _ _ pm | .or _ _ _ pm | .xor _ _ _ pm | .mac _ _ _ _ pm | .msu _ _ _ _ pm
  | .abs _ _ pm | .asr _ _ pm | .lsr _ _ pm | .lsrc _ _ pm | .exp _ _ pm | .sat _ _ pm
  | .rnd _ _ pm | .nopMove pm | .mul _ _ _ pm | .lsl _ _ pm | .lslc _ _ pm | .not _ _ pm =>
      pmoveKind pm
  | .ldc _ _ | .nop | .resp _ _ | .mvDouble _ _ _ _ | .halt | .dmove _ _ | .ldx _ _ _
  | .stx _ _ _ | .ldy _ _ _ | .sty _ _ _ | .parShort _ _ | .parFull _ _ => .other

/-- The change-of-flow set of R310: Jcc, CALLcc, JRcc, RETI, LOOP and JMPI. -/
def Kind.isFlow : Kind → Bool
  | .cof | .jmpi => true
  | .other | .ldsti => false

/-! ### Before the instruction -/

/-- Whether the loop-end test of this step starts a new round (R32, R326): L is the L that the fetch
saw (D27, log 42), and the test may be suppressed (R398). -/
def State.loopFires (s : State) : Bool :=
  s.pc == s.le && !s.fprev.l && s.lsup != 1 && s.lc != 0

/-- `seq` of R32, modulo 2^16 within the page (D14, log 45). -/
def State.seq (s : State) : Word := if s.loopFires then s.ls else s.pc + 1

/-- Where the instruction after this one is, unless this one transfers at once (R32). -/
def State.following (s : State) : Word :=
  match s.ds with
  | some d => d.target
  | none => s.seq

/-- The state in which the instruction executes: the loop count and LSUP have counted (R32). -/
def State.prepare (s : State) : State :=
  { s with lc := if s.loopFires then s.lc - 1 else s.lc, lsup := if s.lsup = 2 then 1 else 0,
           npc := s.following, xfer := .none, sti1 := none, sti2 := s.sti1 }

/-! ### After the instruction -/

/-- HLT counts one of the three instructions after a HALT (R330). -/
def Hlt.count : Hlt → Hlt
  | .draining k vec => .draining (if k = 0 then 0 else k - 1) vec
  | .running => .running
  | .waiting => .waiting

/-- The transfer of R32: a pending one is made; else the one this instruction produced is taken up. -/
def State.transfer (t : State) : State :=
  match t.ds with
  | some d =>
    match d.page with
    | some pg => { t with pc := d.target, ipr0 := pg, pageOpen := false, ds := none }
    | none => { t with pc := d.target, ds := none }
  | none =>
    match t.xfer with
    | .immediate a => { t with pc := a }
    | .delayed a pg => { t with pc := t.npc, ds := some { target := a, page := pg } }
    | .none => { t with pc := t.npc }

/-- What the next instruction finds in FPREV and PREVK (R31, R32); HLT counts, and the step's free
values are spent. -/
def State.close (t : State) (flags : Mr0) (k : Kind) : State :=
  { t with xfer := .none, fprev := flags, prevk := k, hlt := t.hlt.count,
           freeCtr := t.freeCtr + 1 }

/-! ### Violated restrictions: the machine goes on with free values (D28) -/

/-- The loop-end test of the next instruction would fire (R393). -/
def State.nextIsLoopEnd (s : State) : Bool := s.seq == s.le && s.lc != 0 && !s.mr0.l

/-- A change of flow in a delay slot (R392) or after LDI or STI (R401), on the state before the
step. -/
def State.slotHazard (s : State) (k : Kind) : Bool :=
  k.isFlow && (s.prevk == .cof || s.ds.isSome || s.prevk == .ldsti)

/-- A change of flow at or just before a live loop end, or a loop end in a delay slot (R32, R393). -/
def State.endHazard (s : State) (k : Kind) : Bool :=
  (s.loopFires && s.ds.isSome) || (k.isFlow && (s.loopFires || s.nextIsLoopEnd))

/-- `fires` of R397 for the next executed address. -/
def loopEndAt (x le lc : Word) (l : Bool) : Bool := x == le && lc != 0 && !l

/-- R397: the instruction that turned `p` into `t` wrote loop registers, and that matters at the next
executed address, the PC of `t`. -/
def State.loopWriteHazard (p t : State) : Bool :=
  let old := loopEndAt t.pc p.le p.lc p.mr0.l
  let new := loopEndAt t.pc t.le t.lc p.mr0.l
  (old || new) && (old != new || p.ls != t.ls || p.lc != t.lc)

/-- A free delayed transfer, or none. -/
def State.freeDelayed (s : State) : Option Delayed :=
  if s.freeBit .flowPending then
    some { target := s.free .flowTarget 16,
           page := if s.freeBit .flowPaged then some (s.free .flowPage 16) else none }
  else none

/-- Whether a pending transfer names a page. -/
def pagePending : Option Delayed → Bool
  | some d => d.page.isSome
  | none => false

/-- Whether an instruction handed over a transfer with a page. -/
def pageProduced : Transfer → Bool
  | .delayed _ page => page.isSome
  | .none | .immediate _ => false

/-- "any value for PC and what follows" (U11 to U13, log 39): PC and the pending transfer are free,
and IPR0 with them where a transfer with a page is at stake, the one that was pending or the one
this instruction produced. `before` is the state before the step. -/
def State.openFlow (t before : State) : State :=
  { t with pc := before.free .flowPc 16, ds := before.freeDelayed,
           ipr0 := if pagePending before.ds || pageProduced t.xfer then before.free .flowIpr0 16
                   else t.ipr0 }

/-- "any value for PC and LC" after R397 (log 40). -/
def State.openLoop (t before : State) : State :=
  { t with pc := before.free .flowPc 16, lc := before.free .flowLc 16 }

/-- The flow after a violated change-of-flow restriction. -/
def State.flowHazard (t before : State) (k : Kind) : State :=
  if before.endHazard k || before.slotHazard k then t.openFlow before else t

/-- Whether LC is open too: at a loop end (R393), or by R397 at the next executed address, be that
address the one the transfer gives or the free one of a violated restriction. -/
def State.loopHazard (t before : State) (k : Kind) : Bool :=
  before.endHazard k || before.prepare.loopWriteHazard t ||
    before.prepare.loopWriteHazard (t.flowHazard before k)

/-- Apply what the violated restrictions leave open. -/
def State.applyHazards (t before : State) (k : Kind) : State :=
  if t.loopHazard before k then (t.flowHazard before k).openLoop before
  else t.flowHazard before k

/-- From the state `t` that the instruction left to the state before the next one (R32). -/
def State.finish (before t : State) (k : Kind) : State :=
  (t.transfer.applyHazards before k).close before.mr0 k

/-- One instruction by R32. -/
def runInstr (i : Instr) (s : State) : Host.Outcome State Fault Refusal :=
  match exec i s.prepare with
  | .next t => .next (s.finish t (kindOf i))
  | .fault f => .fault f
  | .refused r => .refused r

/-- Decode and run a fetched word; one without a meaning is refused by name (R119). -/
def State.runFetched (s : State) (w : Code) : Host.Outcome State Fault Refusal :=
  match decode w with
  | .error why => .refused (.rejected why)
  | .ok i => runInstr i s

/-- Fetch, decode and run one instruction. -/
def State.runNext (s : State) : Host.Outcome State Fault Refusal :=
  match s.fetch with
  | .error f => .fault f
  | .ok w => s.runFetched w

/-! ### Boundaries -/

/-- The core receives a request, and the peripheral disables further ones (R351, R352, R358). -/
def State.receive (s : State) (vec : Vec) : State :=
  { s with intsm := .pending vec, irqOff := true,
           hlt := if s.hlt = .waiting then .draining 3 vec else s.hlt }

/-- The environment's part of a boundary (R352): a request is presented only to an idle state machine
and only while the peripheral's rule allows it; else it stays with the peripheral (log 54). -/
def State.takeEvent (s : State) : State :=
  match s.events with
  | [] => s
  | .quiet :: es => { s with events := es }
  | .request vec :: es =>
    if s.intsm = .idle ∧ s.irqOff = false then { s.receive vec with events := es } else s
  | .reset :: _ => s

/-- HLT does not hold the entry back (R352). -/
def Hlt.allowsEntry : Hlt → Bool
  | .draining k _ => k == 0
  | .running | .waiting => true

/-- The interrupt that is entered at this boundary, if any (R352). -/
def State.entryDue (s : State) : Option Vec :=
  match s.intsm with
  | .idle => none
  | .pending vec => if s.ds.isNone && s.hlt.allowsEntry then some vec else none

/-- Whether a word is a JMPI, by its bits 31:24 (R106). -/
def isJmpiWord (w : Code) : Bool := w.extractLsb' 24 8 == 0x2A

/-- Interrupt entry and the vector's JMPI, with no boundary between them (R352, R353, log 15): stopped
directly after a JMPI (R323) and where the word fetched at the vector is no JMPI. The word that is
checked is the word that runs, a device's free word included (log 16). -/
def State.enterInterrupt (s : State) (vec : Vec) : Host.Outcome State Fault Refusal :=
  if s.prevk = .jmpi then .fault .interruptAfterJmpi
  else
    match (s.takeInterrupt vec).fetch with
    | .error f => .fault f
    | .ok w =>
      if isJmpiWord w then (s.takeInterrupt vec).runFetched w else .fault .vectorNotJmpi

/-- A boundary after the environment has acted, and what follows it: an interrupt entry with its
vector's instruction, nothing on a halted core (R330), or one instruction. -/
def State.advance (s : State) : Host.Outcome State Fault Refusal :=
  match s.entryDue with
  | some vec => s.enterInterrupt vec
  | none => if s.hlt = .waiting then .next { s with freeCtr := s.freeCtr + 1 } else s.runNext

/-- Whether the environment resets the machine at this boundary (R390). -/
def State.resetDue (s : State) : Bool :=
  match s.events with
  | .reset :: _ => true
  | .quiet :: _ | .request _ :: _ | [] => false

/-- One step of the machine: one boundary and what follows it. -/
def State.machineStep (s : State) : Host.Outcome State Fault Refusal :=
  if s.resetDue then .next s.systemReset else s.takeEvent.advance

end Sys2Proof.Machine
end

