-- ==== Sys2Proof/Machine/Step.lean ====
section
/-! DEFINITION. The step function, which calls `Machine/Flow.lean`, and the host's way to place one
instruction (log 48). -/

namespace Sys2Proof.Machine

/-- One step: system reset, an interrupt entry with the vector's instruction, a halted boundary, or one
instruction. -/
def step (s : State) : Host.Outcome State Fault Refusal := s.machineStep

/-- `s` with the instruction word `w` (its bits from `nbits` up being 0) where the next step fetches;
an instruction is one 32-bit word. -/
def State.withFetchWord (s : State) (nbits w : Nat) : State :=
  s.placeFetchWord (BitVec.ofNat 32 (w % 2 ^ nbits))

end Sys2Proof.Machine
end

