-- ==== Sys2Proof/Safety.lean ====
section
/-! DEFINITION. The terms in which statements speak of the machine: the invariant of every step, when a
word runs, what the rules make of an exact number, the effect of a move, what each instruction may
write, and which words are reserved. Written from the rules' text, beside the meanings and not out
of them. -/

namespace Sys2Proof.Machine

/-! ### Runs -/

/-- HLT and INTSM agree (R330, R352): nothing is received while the core waits, and what it drains
for is what is pending. -/
def Hlt.agrees (h : Hlt) (i : Intsm) : Bool :=
  match h, i with
  | .running, _ => true
  | .waiting, .idle => true
  | .waiting, .pending _ => false
  | .draining _ _, .idle => false
  | .draining _ v, .pending u => v == u

/-- The invariant of every step: the memories and the platform's images are in canonical form, no
transfer is left over from an instruction, and HLT agrees with INTSM. -/
def State.Inv (s : State) : Prop :=
  Memory.wf s.xmem = true ∧ Memory.wf s.ymem = true ∧ Memory.wf s.imem = true ∧
  Memory.wf s.plat.xImage = true ∧ Memory.wf s.plat.yImage = true ∧
  Memory.wf s.plat.iImage = true ∧ s.xfer = .none ∧ s.hlt.agrees s.intsm = true

/-- A boundary at which an instruction is fetched: no reset, no interrupt entry, not halted. -/
def State.runs (s : State) : Bool :=
  !s.resetDue && s.takeEvent.entryDue.isNone && s.takeEvent.hlt != .waiting

/-- No sequence restriction of R392, R393, R397 or R401 is violated by an instruction of kind `k`
that leaves `t`. -/
def State.orderly (s t : State) (k : Kind) : Prop :=
  s.slotHazard k = false ∧ s.endHazard k = false ∧ s.prepare.loopWriteHazard t.transfer = false

/-- The address of the next instruction word, when its page is known. -/
def State.fetchAddress (s : State) : Code := codeAddress s.ipr0 s.pc

/-- The next word is fetched as it stands in memory: its page is known, it is in RAM or ROM, and no
STI wrote it one or two instructions ago. -/
def State.plainFetch (s : State) : Prop :=
  s.pageOpen = false ∧
  (s.kindAt .i s.fetchAddress.toNat = .ram ∨ s.kindAt .i s.fetchAddress.toNat = .rom) ∧
  s.sti1 ≠ some s.fetchAddress ∧ s.sti2 ≠ some s.fetchAddress

/-- The word at an interrupt vector is fetched as it stands in memory: it is in RAM or ROM, and no STI
wrote it one or two instructions ago. -/
def State.plainVector (s : State) (vec : Vec) : Prop :=
  (s.kindAt .i (32 + vec.val) = .ram ∨ s.kindAt .i (32 + vec.val) = .rom) ∧
  s.sti1 ≠ some (codeAddress 0 (vectorAddress vec)) ∧
  s.sti2 ≠ some (codeAddress 0 (vectorAddress vec))

/-- The word stored at the program counter decodes to `i`, and this boundary runs it. -/
def State.runsNext (s : State) (i : Instr) : Prop :=
  s.runs = true ∧ s.plainFetch ∧ decode (s.word32 s.fetchAddress.toNat) = .ok i

/-- A condition holds for the flags before and after the preceding instruction (R312). -/
def State.holdsBoth (s : State) (c : Cond) : Bool := Cond.holds c s.fprev && Cond.holds c s.mr0

/-- `i` is a jump, call or return that is taken in `s`, to `d.target` and with `d.page` for IPR0 if that
names a page (R313 to R318). -/
def State.jumpsTo (s : State) (i : Instr) (d : Delayed) : Prop :=
  (∃ c, s.holdsBoth c = true ∧
    (((i = .jcc d.target c ∨ i = .callcc d.target c) ∧ d.page = none) ∨
     (i = .jrcc c ∧ d = { target := s.lr0, page := none }) ∨
     ∃ n, i = .jrccOp1 c n ∧ d = { target := s.lr0, page := some (s.index n) })) ∨
  (i = .reti ∧ d = { target := s.lr1, page := none }) ∨
  ∃ n, i = .retiOp1 n ∧ d = { target := s.lr1, page := some (s.index n) }

/-! ### Exact numbers narrowed to a width (R144, R145) -/

/-- Whether an exact number has a two's complement image of width `w`. -/
def fits (w : Nat) (x : Int) : Bool := decide (-2 ^ (w - 1) ≤ x) && decide (x < 2 ^ (w - 1))

/-- An exact result at width `w`: V where it does not fit, saturated towards its own sign if `mode`,
wrapped if not; Z, N and E from what is written; C as given. -/
def narrow (w : Nat) (mode : Bool) (x : Int) (c : Bool) : AluOut w :=
  let r : BitVec w :=
    if mode && !fits w x then BitVec.ofInt w (if x < 0 then -2 ^ (w - 1) else 2 ^ (w - 1) - 1)
    else BitVec.ofInt w x
  { r := r,
    flags := { z := r == 0, n := decide (r.toInt < 0), v := !fits w x,
               e := w == 40 && !fits 32 r.toInt, c := c } }

/-- Write a 40-bit result and its flags; V is also set where the read of P saturated. -/
def State.result40 (s : State) (dst : AReg) (o : AluOut 40) (psat : Bool) : State :=
  { s.setLong dst.acc o.r with mr0 := s.mr0.withFlags (o.flags.orV psat) }

/-- Write a 16-bit result and its flags. -/
def State.result16 (s : State) (dst : AReg) (o : AluOut 16) (psat : Bool) : State :=
  { s.setAReg dst o.r with mr0 := s.mr0.withFlags (o.flags.orV psat) }

/-- A two-operand result at the width of R141, from one description of both widths. -/
def State.result2 (s : State) (op1 op2 : AluSrc) (dst : AReg)
    (f : (w : Nat) → BitVec w → BitVec w → AluOut w) : State :=
  if wide2 op1 op2 then
    s.result40 dst (f 40 (s.operand40 op1).1 (s.operand40 op2).1) (s.operand40 op2).2
  else s.result16 dst (f 16 (s.operand16 op1) (s.operand16 op2)) false

/-- A single-operand result at the width of R141. -/
def State.result1 (s : State) (op2 : AluSrc) (dst : AReg)
    (f : (w : Nat) → BitVec w → AluOut w) : State :=
  if op2.wide then s.result40 dst (f 40 (s.operand40 op2).1) (s.operand40 op2).2
  else s.result16 dst (f 16 (s.operand16 op2)) false

/-- `m` is the number of bits below the MSB that equal it, from the top (reading E1 of R190): the value
has an image of `m` bits less, and of no more than that. -/
def signBits (w : Nat) (x : Int) (m : Nat) : Prop :=
  m < w ∧ fits (w - m) x = true ∧ (m + 1 < w → fits (w - m - 1) x = false)

/-- EXP's count of an operand of width `w` (R190): 0 for 0, else the redundant sign bits, or one more
under reading E2. -/
def expCounts (w : Nat) (x : Int) (k : Nat) : Prop :=
  if x = 0 then k = 0
  else ∃ m, signBits w x m ∧ k = if Config.expReading = .redundant then m else m + 1

/-- An exact number limited to a width. -/
def clampTo (w : Nat) (x : Int) : Int :=
  if x < -2 ^ (w - 1) then -2 ^ (w - 1) else if 2 ^ (w - 1) ≤ x then 2 ^ (w - 1) - 1 else x

/-- RND's rounding of `x / 2^16` (R194): to the nearest integer with halves to even when R = 1,
towards zero when R = 0 (RND_R0's default, log 25). -/
def roundsTo (nearest : Bool) (x q : Int) : Prop :=
  if nearest then
    -32768 ≤ x - 65536 * q ∧ x - 65536 * q ≤ 32768 ∧
      ((x - 65536 * q = 32768 ∨ x - 65536 * q = -32768) → q % 2 = 0)
  else q = Int.tdiv x 65536

/-- The exact product of R221: each operand signed or unsigned as Table 7 says. -/
def exactProduct (mm : MulMode) (a b : Word) : Int :=
  (if mm = .ss ∨ mm = .su then a.toInt else (a.toNat : Int)) *
    (if mm = .ss ∨ mm = .us then b.toInt else (b.toNat : Int))

/-- A multiplication's write of P and PMODE (R221, R223). -/
def State.withProduct (t s : State) (mm : MulMode) (op1 op2 : AReg) : State :=
  { t with p := BitVec.ofInt 32 (exactProduct mm (s.areg op1) (s.areg op2)),
           pmode := some { s := s.mr0.s, i := s.mr0.i } }

/-! ### The effect of a move -/

/-- The word a load finds: what is stored, or the device's free answer (R67). -/
def State.loadValue (s : State) (b : Bus) (key : Nat) : Word :=
  if s.kindAt b.space key = .device then s.free (.device b.space) 16 else s.word16 b.space key

/-- The effect of a load into a register: R261, and LSUP for LS, LE and LC (R398). -/
def State.loadReg (t : State) (r : MoveReg) (v : Word) : State :=
  if r = .lc ∨ r = .ls ∨ r = .le then { t.writeReg r v with lsup := 2 } else t.writeReg r v

/-- The post-modification after an access (R265). -/
def State.stepIndex (t s : State) (port : Port) (n : IReg) (post : BitVec 4) : State :=
  if post = 0 then t else t.setIndex n (s.postMod port n post)

/-- The index update of a full move (R264, R265). -/
def State.stepMove (t s : State) (b : Bus) (m : FullMove) : State :=
  if m.reg = .nop then t else t.stepIndex s b.port m.idx m.post

/-- The access of a full move whose sources are read in `s` (R251 to R254, R263, R264). -/
def State.accessMove (t s : State) (b : Bus) (m : FullMove) : State :=
  let key := (s.index m.idx).toNat
  if m.reg = .nop then t
  else if m.store then t.storeData b key (s.readReg b.port m.reg)
  else if m.reg = .null then t
  else t.loadReg m.reg (s.loadValue b key)

/-- The effect on `t` of a full move whose sources are read in `s`: the register it steps and then its
access, so that a load into the stepped register wins (D6, log 29). -/
def State.applyMove (t s : State) (b : Bus) (m : FullMove) : State :=
  (t.stepMove s b m).accessMove s b m

/-- The effect of an X move and a Y move of one word: both steps, then both accesses (R258). A read of
LC beside a load of a loop register is R399's with the test not suppressed (R398, log 41). -/
def State.applyMoves (t s : State) (x y : FullMove) : State :=
  let r := s.reading x y
  ((((t.stepMove s .x x).stepMove s .y y).accessMove r .x x).accessMove r .y y)

/-- A register-to-register move (R282). -/
def State.applyRegMove (t s : State) (port : Port) (src dst : MoveReg) : State :=
  if src = .nop then t else t.writeReg dst (s.readReg port src)

/-- The address of an LDI or STI: its page is not stated (R280). -/
def State.ibusAddress (s : State) (n : IReg) : Code := (s.free .ibusPage 16 : Word) ++ s.index n

/-- The effect of a move of a lost coding (R278, R280, R282). -/
def State.applyUncoded (t s : State) : UncodedMove → State
  | .regMove src dst => t.applyRegMove s .x src dst
  | .longX store reg n =>
    let key := longKey (s.index (IReg.pair n)) (s.index n)
    if reg = .nop then t
    else if store then t.storeData .x key (s.readReg .x reg)
    else if reg = .null then t
    else t.loadReg reg (s.loadValue .x key)
  | .ibus true x n post =>
    (t.storeCode (s.ibusAddress n) ((s.acc x).x1 ++ (s.acc x).x0)).stepIndex s .x n post
  | .ibus false x n post =>
    let v := s.codeWord (s.ibusAddress n).toNat
    (t.setAcc x { x2 := s.free .ibusGuard 8, x1 := v.extractLsb' 16 16,
                  x0 := v.extractLsb' 0 16 }).stepIndex s .x n post

/-- The effect of a parallel move (R115, R255, R257). -/
def State.applyParallel (t s : State) : PMove → State
  | .full b m => t.applyMove s b m
  | .short x y => t.applyMoves s x.full y.full
  | .uncoded m => t.applyUncoded s m

/-- The memory that a full move accesses is there (R68); a move NOP or a load of NULL accesses none. -/
def State.fullAdmitted (s : State) (b : Bus) (m : FullMove) : Bool :=
  m.reg == .nop || (!m.store && m.reg == .null) || s.admitted b.space (s.index m.idx).toNat

/-- The memory that a move of a lost coding accesses is there. -/
def State.uncodedAdmitted (s : State) : UncodedMove → Bool
  | .regMove _ _ => true
  | .longX store reg n =>
    reg == .nop || (!store && reg == .null) ||
      s.admitted .x (longKey (s.index (IReg.pair n)) (s.index n))
  | .ibus _ _ n _ => s.admitted .i (s.ibusAddress n).toNat

/-- The memory that a parallel move accesses is there. -/
def State.parallelAdmitted (s : State) : PMove → Bool
  | .full b m => s.fullAdmitted b m
  | .short x y => s.fullAdmitted .x x.full && s.fullAdmitted .y y.full
  | .uncoded m => s.uncodedAdmitted m

/-- The word address a full move stores to, if it stores. -/
def State.fullStores (s : State) (b : Bus) (m : FullMove) : List (Space × Nat) :=
  if m.store && m.reg != .nop then [(b.space, (s.index m.idx).toNat)] else []

/-- The word address a move of a lost coding stores to, if it stores. -/
def State.uncodedStores (s : State) : UncodedMove → List (Space × Nat)
  | .regMove _ _ => []
  | .longX store reg n =>
    if store && reg != .nop then [(.x, longKey (s.index (IReg.pair n)) (s.index n))] else []
  | .ibus store _ n _ => if store then [(.i, (s.ibusAddress n).toNat)] else []

/-- The word addresses a parallel move stores to. -/
def State.parallelStores (s : State) : PMove → List (Space × Nat)
  | .full b m => s.fullStores b m
  | .short x y => s.fullStores .x x.full ++ s.fullStores .y y.full
  | .uncoded m => s.uncodedStores m

/-- How many byte cells a word of a space has (log 1). -/
def cellsPerWord : Space → Nat
  | .x | .y => 2
  | .i => 4

/-! ### Don't-care bits (R120) -/

/-- The don't-care bits of a control word. -/
def dontCareControl (w : Code) : Code :=
  match field w 24 4 with
  | 0 => if field w 23 1 = 1 then 0x007FFE00 else 0x007FFFC0
  | 1 => if field w 23 1 = 1 then 0x007FFE3F else 0x007FFFFF
  | 2 => 0x0081FFFF
  | 4 | 5 | 6 | 7 => 0x03C00020
  | 8 | 9 => 0x00C00000
  | 10 => 0x00C00020
  | 13 => 0x00FFFFFF
  | _ => 0

/-- The bits that R120 lists as don't care for the format of a word. -/
def dontCare (w : Code) : Code :=
  match field w 28 4 with
  | 0 | 1 => 0x1FC00000
  | 2 => dontCareControl w
  | 15 => if field w 24 4 = 4 then 0x00FE0000 else 0
  | _ => 0

/-! ### Reserved words (R119, R193, R194) -/

/-- The register codes that Table 10 reserves or does not list. -/
def reservedReg (n : Nat) : Bool :=
  n == 11 || (decide (24 ≤ n) && decide (n ≤ 31)) || (decide (37 ≤ n) && decide (n ≤ 61))

/-- The condition codes that Table 1 does not list. -/
def unlistedCondition (n : Nat) : Bool :=
  !([0, 1, 2, 3, 4, 5, 8, 9, 17, 18, 19, 20, 21, 24, 25].contains n)

/-- A parallel move with the selector 01 or with a reserved register. -/
def reservedParallel (w : Code) : Bool :=
  field w 16 1 == 0 && (field w 15 1 == 1 || reservedReg (field w 0 6))

/-- An even result code, which a 40-bit operation reserves. -/
def evenResult (w : Code) : Bool := field w 17 1 == 0

/-- The rows of R119 for opcode 0010. -/
def reservedControlWord (w : Code) : Bool :=
  match field w 24 4 with
  | 0 | 8 | 9 => unlistedCondition (field w 0 6)
  | 1 | 2 | 13 => false
  | 4 | 5 | 6 | 7 => reservedReg (field w 0 5)
  | 10 => field w 3 2 == 2
  | _ => true

/-- The rows of R119 for two operands. -/
def reservedAlu2Word (w : Code) : Bool :=
  field w 24 4 == 10 || field w 24 4 == 11 || field w 20 4 == 10 ||
    ((decide (12 ≤ field w 24 4) || decide (11 ≤ field w 20 4)) && evenResult w) ||
    reservedParallel w

/-- The rows of R119 for ASHL. -/
def reservedAshlWord (w : Code) : Bool :=
  field w 24 4 == 10 || field w 24 4 == 11 || decide (10 ≤ field w 20 4) ||
    (decide (12 ≤ field w 24 4) && evenResult w) || reservedParallel w

/-- The rows of R119, R193 and R194 for opcode 1111. -/
def reservedSingleWord (w : Code) : Bool :=
  match field w 24 4 with
  | 0 | 1 | 2 | 3 =>
    field w 20 4 == 10 || (decide (11 ≤ field w 20 4) && evenResult w) || reservedParallel w
  | 4 | 14 | 15 => reservedParallel w
  | 5 => field w 20 4 == 10 || reservedParallel w
  | 6 => decide (field w 20 4 ≤ 10) || evenResult w || reservedParallel w
  | 7 => decide (field w 20 4 ≤ 10) || reservedParallel w
  | _ => true

/-- The words to which the spec gives no meaning. -/
def reservedWord (w : Code) : Bool :=
  match field w 28 4 with
  | 0 | 1 => reservedReg (field w 0 6)
  | 2 => reservedControlWord w
  | 3 => reservedReg (field w 14 6) || reservedReg (field w 0 6)
  | 5 | 7 => evenResult w || reservedParallel w
  | 10 => reservedAshlWord w
  | 14 => true
  | 15 => reservedSingleWord w
  | _ => reservedAlu2Word w

end Sys2Proof.Machine

namespace Sys2Proof

open Machine

/-! ### The fields of the instruction formats (R91 to R115): lowest bit, length, value -/

/-- A full move whose lowest bit is bit `lo` (R111). -/
def FullMove.fields (m : FullMove) (lo : Nat) : List (Nat × Nat × Nat) :=
  [(lo + 13, 1, m.store.toNat), (lo + 10, 3, m.idx.val), (lo + 6, 4, m.post.toNat), (lo, 6, m.reg.code)]

/-- A short move whose lowest bit is bit `lo` (R113). -/
def ShortMove.fields (m : ShortMove) (lo : Nat) : List (Nat × Nat × Nat) :=
  [(lo + 7, 1, m.store.toNat), (lo + 4, 3, m.idx.val), (lo + 3, 1, m.star.toNat), (lo, 3, m.reg.code)]

/-- Bits 16:0 beside an operation (R115; the selectors of full moves are PRESUMED, log 10). -/
def PMove.fields : PMove → List (Nat × Nat × Nat)
  | .full .x m => (14, 3, 0) :: m.fields 0
  | .full .y m => (14, 3, 1) :: m.fields 0
  | .short x y => (16, 1, 1) :: (x.fields 8 ++ y.fields 0)
  | .uncoded _ => []

/-- Format ALU2 (R92). -/
def alu2Fields (opcode : Nat) (op1 op2 : AluSrc) (dst : AReg) (pm : PMove) :
    List (Nat × Nat × Nat) :=
  [(28, 4, opcode), (24, 4, op1.code), (20, 4, op2.code), (17, 3, dst.code)] ++ pm.fields

/-- Format MAC (R93). -/
def macFields (opcode : Nat) (op1 : AReg) (mm : MulMode) (op2 acc : AReg) (pm : PMove) :
    List (Nat × Nat × Nat) :=
  [(28, 4, opcode), (25, 3, op1.code), (23, 2, mm.code), (20, 3, op2.code), (17, 3, acc.code)]
    ++ pm.fields

/-- Format ALU1 (R94). -/
def alu1Fields (sub : Nat) (op2 : AluSrc) (dst : AReg) (pm : PMove) : List (Nat × Nat × Nat) :=
  [(28, 4, 15), (24, 4, sub), (20, 4, op2.code), (17, 3, dst.code)] ++ pm.fields

/-- A double full move (R114; the X half in 27:14 is PRESUMED, log 11). -/
def doubleFields (x y : FullMove) : List (Nat × Nat × Nat) :=
  (28, 4, 3) :: (x.fields 14 ++ y.fields 0)

/-- The fields of an instruction's word; a single move names its own half, and the other half holds the
move NOP (R125). The move NOP beside an ALU operation stands in `pm`. -/
def Instr.fields : Instr → List (Nat × Nat × Nat)
  | .ldc c r => [(29, 3, 0), (6, 16, c.toNat), (0, 6, r.code)]
  | .nop => [(29, 3, 0), (0, 6, 36)]
  | .jrcc c => [(28, 4, 2), (24, 4, 0), (23, 1, 0), (0, 6, c.code)]
  | .jrccOp1 c n => [(28, 4, 2), (24, 4, 0), (23, 1, 1), (6, 3, n.val), (0, 6, c.code)]
  | .reti => [(28, 4, 2), (24, 4, 1), (23, 1, 0)]
  | .retiOp1 n => [(28, 4, 2), (24, 4, 1), (23, 1, 1), (6, 3, n.val)]
  | .resp op1 op2 => [(28, 4, 2), (24, 4, 2), (20, 3, op2.code), (17, 3, op1.code)]
  | .loop last count => [(28, 4, 2), (26, 2, 1), (6, 16, last.toNat), (0, 5, count.code)]
  | .jcc addr c => [(28, 4, 2), (24, 4, 8), (6, 16, addr.toNat), (0, 6, c.code)]
  | .callcc addr c => [(28, 4, 2), (24, 4, 9), (6, 16, addr.toNat), (0, 6, c.code)]
  | .jmpi addr mm n =>
    [(28, 4, 2), (24, 4, 10), (6, 16, addr.toNat), (3, 2, mm.code), (0, 3, n.val)]
  | .mvDouble _ _ _ _ => []
  | .halt => [(28, 4, 2), (24, 4, 13)]
  | .dmove x y => doubleFields x y
  | .ldx n post r =>
    [(28, 4, 3), (0, 6, 36)] ++ FullMove.fields { store := false, idx := n, post := post, reg := r } 14
  | .stx n post r =>
    [(28, 4, 3), (0, 6, 36)] ++ FullMove.fields { store := true, idx := n, post := post, reg := r } 14
  | .ldy n post r =>
    [(28, 4, 3), (14, 6, 36)] ++ FullMove.fields { store := false, idx := n, post := post, reg := r } 0
  | .sty n post r =>
    [(28, 4, 3), (14, 6, 36)] ++ FullMove.fields { store := true, idx := n, post := post, reg := r } 0
  | .add op1 op2 dst pm => alu2Fields 4 op1 op2 dst pm
  | .sub op1 op2 dst pm => alu2Fields 6 op1 op2 dst pm
  | .addc op1 op2 dst pm => alu2Fields 8 op1 op2 dst pm
  | .subc op1 op2 dst pm => alu2Fields 9 op1 op2 dst pm
  | .ashl op1 op2 dst pm => alu2Fields 10 op1 op2 dst pm
  | .and op1 op2 dst pm => alu2Fields 11 op1 op2 dst pm
  | .or op1 op2 dst pm => alu2Fields 12 op1 op2 dst pm
  | .xor op1 op2 dst pm => alu2Fields 13 op1 op2 dst pm
  | .mac op1 mm op2 acc pm => macFields 5 op1 mm op2 acc pm
  | .msu op1 mm op2 acc pm => macFields 7 op1 mm op2 acc pm
  | .abs op2 dst pm => alu1Fields 0 op2 dst pm
  | .asr op2 dst pm => alu1Fields 1 op2 dst pm
  | .lsr op2 dst pm => alu1Fields 2 op2 dst pm
  | .lsrc op2 dst pm => alu1Fields 3 op2 dst pm
  | .exp op2 dst pm => alu1Fields 5 op2 dst pm
  | .sat op2 dst pm => alu1Fields 6 op2 dst pm
  | .rnd op2 dst pm => alu1Fields 7 op2 dst pm
  | .nopMove pm => [(28, 4, 15), (24, 4, 4)] ++ pm.fields
  | .mul mm op2 op1 pm =>
    [(28, 4, 15), (25, 3, 7), (23, 2, mm.code), (20, 3, op2.code), (17, 3, op1.code)] ++ pm.fields
  | .lsl op2 dst pm => alu2Fields 4 op2 op2 dst pm
  | .lslc op2 dst pm => alu2Fields 8 op2 op2 dst pm
  | .not op2 dst pm => alu2Fields 13 .ones op2 dst pm
  | .parShort x y => [(28, 4, 15), (24, 4, 4)] ++ (PMove.short x y).fields
  | .parFull b m => [(28, 4, 15), (24, 4, 4)] ++ (PMove.full b m).fields
  | .parUncoded _ => []

/-! ### What an instruction may write, and when it completes -/

/-- The memory that an instruction word accesses is there. -/
def Instr.admittedIn (i : Instr) (s : State) : Bool :=
  match i with
  | .dmove x y => s.fullAdmitted .x x && s.fullAdmitted .y y
  | .ldx n post r => s.fullAdmitted .x { store := false, idx := n, post := post, reg := r }
  | .stx n post r => s.fullAdmitted .x { store := true, idx := n, post := post, reg := r }
  | .ldy n post r => s.fullAdmitted .y { store := false, idx := n, post := post, reg := r }
  | .sty n post r => s.fullAdmitted .y { store := true, idx := n, post := post, reg := r }
  | .parShort x y => s.parallelAdmitted (.short x y)
  | .parFull b m => s.parallelAdmitted (.full b m)
  | .parUncoded m => s.uncodedAdmitted m
  | .add _ _ _ pm | .sub _ _ _ pm | .addc _ _ _ pm | .subc _ _ _ pm | .ashl _ _ _ pm
  | .and _ _ _ pm | .or _ _ _ pm | .xor _ _ _ pm | .mac _ _ _ _ pm | .msu _ _ _ _ pm
  | .abs _ _ pm | .asr _ _ pm | .lsr _ _ pm | .lsrc _ _ pm | .exp _ _ pm | .sat _ _ pm
  | .rnd _ _ pm | .nopMove pm | .mul _ _ _ pm | .lsl _ _ pm | .lslc _ _ pm | .not _ _ pm =>
      s.parallelAdmitted pm
  | .ldc _ _ | .nop | .jrcc _ | .jrccOp1 _ _ | .reti | .retiOp1 _ | .resp _ _ | .loop _ _
  | .jcc _ _ | .callcc _ _ | .jmpi _ _ _ | .mvDouble _ _ _ _ | .halt => true

/-- The units of a double register move differ (R283); every other instruction has no such rule. -/
def Instr.unitsDiffer : Instr → Bool
  | .mvDouble xs xd ys yd => !sameUnit xs xd && !sameUnit ys yd
  | .dmove _ _ | .ldx _ _ _ | .stx _ _ _ | .ldy _ _ _ | .sty _ _ _ | .parShort _ _
  | .parFull _ _ | .parUncoded _
  | .add _ _ _ _ | .sub _ _ _ _ | .addc _ _ _ _ | .subc _ _ _ _ | .ashl _ _ _ _
  | .and _ _ _ _ | .or _ _ _ _ | .xor _ _ _ _ | .mac _ _ _ _ _ | .msu _ _ _ _ _
  | .abs _ _ _ | .asr _ _ _ | .lsr _ _ _ | .lsrc _ _ _ | .exp _ _ _ | .sat _ _ _
  | .rnd _ _ _ | .nopMove _ | .mul _ _ _ _ | .lsl _ _ _ | .lslc _ _ _ | .not _ _ _
  | .ldc _ _ | .nop | .jrcc _ | .jrccOp1 _ _ | .reti | .retiOp1 _ | .resp _ _ | .loop _ _
  | .jcc _ _ | .callcc _ _ | .jmpi _ _ _ | .halt => true

/-- The instruction runs to its own effect in this state: the spec gives its word a meaning, no
register has two writers, and the memory it accesses is there. -/
def Instr.Runs (i : Instr) (s : State) : Prop :=
  i.WellFormed ∧ i.ConflictFree ∧ i.unitsDiffer = true ∧ i.admittedIn s = true

/-- The registers an instruction names as destinations, the hardware's own writes included (LR0 by
CALLcc, LS, LE and LC by LOOP, the index register and IPR0 by JMPI); flags and P apart. -/
def Instr.written (i : Instr) : List Target :=
  match i with
  | .ldc _ r => r.targets
  | .callcc _ _ => [.control .lr0]
  | .loop _ _ => [.control .lc, .control .ls, .control .le]
  | .jmpi _ _ n => [.step n, .control .ipr0]
  | .nop | .jrcc _ | .jrccOp1 _ _ | .reti | .retiOp1 _ | .resp _ _ | .jcc _ _ | .halt => []
  | .mvDouble _ _ _ _ | .dmove _ _ | .ldx _ _ _ | .stx _ _ _ | .ldy _ _ _ | .sty _ _ _
  | .parShort _ _ | .parFull _ _ | .parUncoded _
  | .add _ _ _ _ | .sub _ _ _ _ | .addc _ _ _ _ | .subc _ _ _ _ | .ashl _ _ _ _
  | .and _ _ _ _ | .or _ _ _ _ | .xor _ _ _ _ | .mac _ _ _ _ _ | .msu _ _ _ _ _
  | .abs _ _ _ | .asr _ _ _ | .lsr _ _ _ | .lsrc _ _ _ | .exp _ _ _ | .sat _ _ _
  | .rnd _ _ _ | .nopMove _ | .mul _ _ _ _ | .lsl _ _ _ | .lslc _ _ _ | .not _ _ _ => i.targets

/-- The instructions whose row of R48 writes Z, N, V, E and C. -/
def Instr.writesFlags : Instr → Bool
  | .add _ _ _ _ | .sub _ _ _ _ | .addc _ _ _ _ | .subc _ _ _ _ | .ashl _ _ _ _
  | .and _ _ _ _ | .or _ _ _ _ | .xor _ _ _ _ | .mac _ _ _ _ _ | .msu _ _ _ _ _
  | .abs _ _ _ | .asr _ _ _ | .lsr _ _ _ | .lsrc _ _ _ | .exp _ _ _ | .sat _ _ _
  | .rnd _ _ _ | .lsl _ _ _ | .lslc _ _ _ | .not _ _ _ => true
  | .ldc _ _ | .nop | .jrcc _ | .jrccOp1 _ _ | .reti | .retiOp1 _ | .resp _ _ | .loop _ _
  | .jcc _ _ | .callcc _ _ | .jmpi _ _ _ | .mvDouble _ _ _ _ | .halt | .dmove _ _ | .ldx _ _ _
  | .stx _ _ _ | .ldy _ _ _ | .sty _ _ _ | .nopMove _ | .mul _ _ _ _ | .parShort _ _
  | .parFull _ _ | .parUncoded _ => false

/-- The instructions that clear L (R320): the change-of-flow set without JMPI. -/
def Instr.clearsL (i : Instr) : Bool := kindOf i == .cof

/-- The instructions that write P (R25): MUL, MAC, MSU and RESP. -/
def Instr.writesP : Instr → Bool
  | .mul _ _ _ _ | .mac _ _ _ _ _ | .msu _ _ _ _ _ | .resp _ _ => true
  | .add _ _ _ _ | .sub _ _ _ _ | .addc _ _ _ _ | .subc _ _ _ _ | .ashl _ _ _ _
  | .and _ _ _ _ | .or _ _ _ _ | .xor _ _ _ _
  | .abs _ _ _ | .asr _ _ _ | .lsr _ _ _ | .lsrc _ _ _ | .exp _ _ _ | .sat _ _ _
  | .rnd _ _ _ | .lsl _ _ _ | .lslc _ _ _ | .not _ _ _
  | .ldc _ _ | .nop | .jrcc _ | .jrccOp1 _ _ | .reti | .retiOp1 _ | .loop _ _
  | .jcc _ _ | .callcc _ _ | .jmpi _ _ _ | .mvDouble _ _ _ _ | .halt | .dmove _ _ | .ldx _ _ _
  | .stx _ _ _ | .ldy _ _ _ | .sty _ _ _ | .nopMove _ | .parShort _ _
  | .parFull _ _ | .parUncoded _ => false

/-- The word addresses an instruction stores to, computed from the index registers before it. -/
def Instr.stores (i : Instr) (s : State) : List (Space × Nat) :=
  match i with
  | .dmove x y => s.fullStores .x x ++ s.fullStores .y y
  | .stx n post r => s.fullStores .x { store := true, idx := n, post := post, reg := r }
  | .sty n post r => s.fullStores .y { store := true, idx := n, post := post, reg := r }
  | .parShort x y => s.parallelStores (.short x y)
  | .parFull b m => s.parallelStores (.full b m)
  | .parUncoded m => s.uncodedStores m
  | .add _ _ _ pm | .sub _ _ _ pm | .addc _ _ _ pm | .subc _ _ _ pm | .ashl _ _ _ pm
  | .and _ _ _ pm | .or _ _ _ pm | .xor _ _ _ pm | .mac _ _ _ _ pm | .msu _ _ _ _ pm
  | .abs _ _ pm | .asr _ _ pm | .lsr _ _ pm | .lsrc _ _ pm | .exp _ _ pm | .sat _ _ pm
  | .rnd _ _ pm | .nopMove pm | .mul _ _ _ pm | .lsl _ _ pm | .lslc _ _ pm | .not _ _ pm =>
      s.parallelStores pm
  | .ldc _ _ | .nop | .jrcc _ | .jrccOp1 _ _ | .reti | .retiOp1 _ | .resp _ _ | .loop _ _
  | .jcc _ _ | .callcc _ _ | .jmpi _ _ _ | .mvDouble _ _ _ _ | .halt | .ldx _ _ _ | .ldy _ _ _ =>
      []

end Sys2Proof
end

