-- ==== Sys2Proof/Certificates/Slice0/Obligations.lean ====
section
/-! DEFINITION. The statements for the provers, one `def Obligations.<Name> : Prop` each. Every
statement about an instruction covers every operand form, with any parallel move; `Instr.Runs` says
under which conditions on the state and the operands the word runs to its own effect. -/

section

open Sys2Proof Sys2Proof.Machine

/-! ### Encoding -/

/-- R90 to R123: the word of a well-formed instruction decodes to it, under the one name that stands for
the rows sharing that word (R125). -/
def Obligations.DecodeOfEncode : Prop :=
  ∀ (i : Instr) (w : Code), i.WellFormed → encode i = some w → decode w = .ok i.canon

/-- Every word that decodes has a well-formed instruction, whose own word decodes to it again. -/
def Obligations.DecodedInstructionReencodes : Prop :=
  ∀ (w : Code) (i : Instr), decode w = .ok i →
    i.WellFormed ∧ i.canon = i ∧ ∃ w', encode i = some w' ∧ decode w' = .ok i

/-- Words of the spec's own examples (R109, R121, R147, R149, R187, R225 to R228, R313 to R330). The
words of SUB and MAC rest on the presumed move selector (log 10), the double move on the presumed
order of its halves (log 11), LOOP and Jcc on the reconstructed layouts (log 50). -/
def Obligations.KnownWordsDecode : Prop :=
  decode 0x00013490#32 = .ok (.ldc 1234 (.idx 0)) ∧
  decode 0x00000024#32 = .ok .nop ∧
  decode 0x60140710#32 = .ok (.sub (.reg (.lo .a)) (.reg (.hi .a)) (.lo .b)
    (.full .x { store := false, idx := 1, post := 12, reg := .idx 0 })) ∧
  decode 0x50170829#32 = .ok (.mac (.lo .a) .ss (.hi .a) (.hi .b)
    (.short { store := false, idx := 0, star := true, reg := .lo .a }
      { store := false, idx := 2, star := true, reg := .hi .a })) ∧
  decode 0x28084800#32 = .ok (.jcc 0x2120 .always) ∧
  decode 0x2A00400E#32 = .ok (.jmpi 0x0100 .inc 6) ∧
  decode 0x24004140#32 = .ok (.loop 0x0105 (.areg (.lo .a))) ∧
  decode 0x22100000#32 = .ok (.resp (.lo .a) (.hi .a)) ∧
  decode 0x36F01801#32 = .ok (.dmove { store := false, idx := 6, post := 15, reg := .areg (.lo .a) }
    { store := false, idx := 6, post := 0, reg := .areg (.hi .a) }) ∧
  decode 0x2D000000#32 = .ok .halt

/-- R119, R193, R194: the decoder refuses exactly the words that the spec reserves or leaves without
a layout. That these are refused is the spec's own decision D4 (log 30, 31); that the selector 01 in
bits 16:15 is the lost layout is presumed (log 10); the places of LOOP's and Jcc's fields are
reconstructed (log 50). -/
def Obligations.DecoderRefusesExactlyReservedWords : Prop :=
  ∀ w : Code, (∃ why, decode w = .error why) ↔ reservedWord w = true

/-- R120 (the spec's own decision D22): don't-care bits are ignored by the decoder and 0 in the
encoder's words. The don't-care bits of LOOP, Jcc and the single-operand NOP follow the
reconstructed layouts (log 50). -/
def Obligations.DontCareBitsIgnored : Prop :=
  (∀ w : Code, decode (w &&& ~~~dontCare w) = decode w) ∧
  (∀ (i : Instr) (w : Code), i.WellFormed → encode i = some w → w &&& dontCare w = 0)

/-- R91 to R115 and R117: the word of a well-formed instruction holds the fields of its format in their
places, and the code tables of ALU operands, multiplier modes, registers, conditions and JMPI's
steps are Tables 1, 4, 6, 7 and 10. OR's figure is lost and has the places of the others (C3), and
LOOP, Jcc, MUL and the single-operand group are reconstructed (log 50); the selectors of full moves
are presumed (log 10), and so is the X half of a double move in bits 27:14 (log 11). -/
def Obligations.InstructionFormatFields : Prop :=
  (∀ (i : Instr) (w : Code), i.WellFormed → encode i = some w →
    ∀ f ∈ i.fields, field w f.1 f.2.1 = f.2.2) ∧
  [AReg.lo .a, .hi .a, .lo .b, .hi .b, .lo .c, .hi .c, .lo .d, .hi .d].map AReg.code =
    [0, 1, 2, 3, 4, 5, 6, 7] ∧
  [AluSrc.null, .ones, .p, .acc .a, .acc .b, .acc .c, .acc .d].map AluSrc.code =
    [8, 9, 11, 12, 13, 14, 15] ∧
  (∀ r, (AluSrc.reg r).code = r.code) ∧
  [MulMode.ss, .su, .us, .uu].map MulMode.code = [0, 1, 2, 3] ∧
  (∀ r, (MoveReg.areg r).code = r.code) ∧ (∀ n, (MoveReg.idx n).code = 16 + n.val) ∧
  [MoveReg.lr0, .lr1, .mr0, .null, .lc, .ls, .le, .guard .a, .guard .b, .guard .c, .guard .d, .nop,
    .ipr0, .ipr1].map MoveReg.code = [8, 9, 10, 12, 13, 14, 15, 32, 33, 34, 35, 36, 62, 63] ∧
  [Cond.always, .cs, .es, .vs, .ns, .zs, .lt, .le, .cc, .ec, .vc, .nc, .zc, .ge, .gt].map Cond.code =
    [0, 1, 2, 3, 4, 5, 8, 9, 17, 18, 19, 20, 21, 24, 25] ∧
  [JmpiStep.keep, .inc, .dec].map JmpiStep.code = [0, 1, 3]

/-- R125, R153, R154, R184: rows that share words have one meaning: an instruction does what the
instruction that its word decodes to does, in every state. -/
def Obligations.AliasesShareOneMeaning : Prop :=
  ∀ (i : Instr) (s : State), exec i s = exec i.canon s

/-! ### Reset and invariant -/

/-- R51: what reset leaves in the registers. The hidden state after reset is the spec's own decision
D26 (log 13); RESET_VECTOR is the parameter of log 7. -/
def Obligations.ResetRegisterValues : Prop :=
  let s := State.reset
  (∀ x, s.acc x = .zero) ∧ s.p = 0 ∧ (∀ n, s.index n = 0) ∧ s.lr0 = 0 ∧ s.lr1 = 0 ∧
  s.mr0 = .zero ∧ s.ipr0 = 0 ∧ s.ipr1 = 0 ∧ s.ls = 0 ∧ s.lc = 0 ∧ s.le = 0xFFFF ∧
  s.pc = Config.resetVector ∧ s.ds = none ∧ s.lsup = 0 ∧ s.pmode = none ∧ s.hlt = .running ∧
  s.intsm = .idle ∧ s.fprev = .zero ∧ s.prevk = .other

/-- R390: a system reset overrides everything else, HALT and a pending interrupt included, and leaves
the registers of R51; memory holds the platform's image (D26, log 47). -/
def Obligations.SystemResetOverridesAll : Prop :=
  ∀ (s : State) (es : List Event), s.events = .reset :: es →
    ∃ u, step s = .next u ∧ (∀ x, u.acc x = .zero) ∧ u.p = 0 ∧ (∀ n, u.index n = 0) ∧
      u.lr0 = 0 ∧ u.lr1 = 0 ∧ u.mr0 = .zero ∧ u.ipr0 = 0 ∧ u.ipr1 = 0 ∧ u.ls = 0 ∧ u.lc = 0 ∧
      u.le = 0xFFFF ∧ u.pc = Config.resetVector ∧ u.ds = none ∧ u.lsup = 0 ∧ u.pmode = none ∧
      u.hlt = .running ∧ u.intsm = .idle ∧ u.fprev = .zero ∧ u.prevk = .other ∧ u.events = es ∧
      u.plat = s.plat ∧ u.xmem = s.plat.xImage ∧ u.ymem = s.plat.yImage ∧ u.imem = s.plat.iImage

/-- The invariant holds right after reset. -/
def Obligations.ResetMeetsInvariant : Prop := State.reset.Inv

/-- Every step keeps the canonical form of the memories, leaves no transfer over, and keeps HLT in
agreement with the interrupt state machine (R330, R352, log 1). -/
def Obligations.StepKeepsInvariant : Prop :=
  ∀ s u : State, s.Inv → step s = .next u → u.Inv

/-! ### What every instruction leaves alone, and when it completes -/

/-- Every register that is no destination of the instruction, neither of its operation nor of its
moves, keeps its value: the parts of the accumulators, the index registers (loaded or stepped) and
the control registers. -/
def Obligations.FrameOfRegisters : Prop :=
  ∀ (i : Instr) (s t : State), exec i s = .next t →
    (∀ x, (.part x 0 ∉ i.written → (t.acc x).x0 = (s.acc x).x0) ∧
          (.part x 1 ∉ i.written → (t.acc x).x1 = (s.acc x).x1) ∧
          (.part x 2 ∉ i.written → (t.acc x).x2 = (s.acc x).x2)) ∧
    (∀ n, .index n ∉ i.written → .step n ∉ i.written → t.index n = s.index n) ∧
    (.control .lr0 ∉ i.written → t.lr0 = s.lr0) ∧ (.control .lr1 ∉ i.written → t.lr1 = s.lr1) ∧
    (.control .ls ∉ i.written → t.ls = s.ls) ∧ (.control .le ∉ i.written → t.le = s.le) ∧
    (.control .lc ∉ i.written → t.lc = s.lc) ∧ (.control .ipr0 ∉ i.written → t.ipr0 = s.ipr0) ∧
    (.control .ipr1 ∉ i.written → t.ipr1 = s.ipr1)

/-- R48: unless a move or LDC names MR0, the mode bits S, I, R never change, L changes only by the
instructions that clear it, and Z, N, V, E, C only by those whose row writes them. P and PMODE
change only by MUL, MAC, MSU and RESP (R25). -/
def Obligations.FrameOfFlagsAndProduct : Prop :=
  ∀ (i : Instr) (s t : State), exec i s = .next t →
    (.control .mr0 ∉ i.written →
      t.mr0.s = s.mr0.s ∧ t.mr0.i = s.mr0.i ∧ t.mr0.r = s.mr0.r ∧
      t.mr0.l = (s.mr0.l && !i.clearsL) ∧
      (i.writesFlags = false → t.mr0.z = s.mr0.z ∧ t.mr0.n = s.mr0.n ∧ t.mr0.v = s.mr0.v ∧
        t.mr0.e = s.mr0.e ∧ t.mr0.c = s.mr0.c)) ∧
    (i.writesP = false → t.p = s.p ∧ t.pmode = s.pmode)

/-- Every byte of every memory outside the words that the instruction stores to reads as before; the
addresses are computed from the index registers before the instruction (R258). That a store to one
of X, Y and I leaves the other two alone is the model's choice (log 58, unsafe where a platform
overlaps them), and so is the key of a long-X store (log 33). -/
def Obligations.FrameOfMemory : Prop :=
  ∀ (i : Instr) (s t : State), exec i s = .next t →
    ∀ (sp : Space) (k : Nat), (sp, k / cellsPerWord sp) ∉ i.stores s →
      t.byteAt sp k = s.byteAt sp k

/-- No meaning touches the program counter, the pending transfer or the rest of the sequencing state:
only R32's sequencing does. HLT changes by HALT alone, LSUP by a load of a loop register, the
peripheral's bit by a store, and the page of the fetches is opened only by a move into IPR0. -/
def Obligations.FrameOfSequencing : Prop :=
  ∀ (i : Instr) (s t : State), exec i s = .next t →
    t.pc = s.pc ∧ t.npc = s.npc ∧ t.ds = s.ds ∧ t.fprev = s.fprev ∧ t.prevk = s.prevk ∧
    t.intsm = s.intsm ∧ t.plat = s.plat ∧ t.events = s.events ∧ t.memEpoch = s.memEpoch ∧
    t.freeCtr = s.freeCtr ∧ t.sti2 = s.sti2 ∧
    ((kindOf i).isFlow = false → t.xfer = s.xfer) ∧ (i ≠ .halt → t.hlt = s.hlt) ∧
    (.control .lc ∉ i.written → .control .ls ∉ i.written → .control .le ∉ i.written →
      t.lsup = s.lsup) ∧
    (i.stores s = [] → t.irqOff = s.irqOff ∧ t.sti1 = s.sti1) ∧
    (.control .ipr0 ∉ i.written → t.pageOpen = s.pageOpen)

/-- An instruction takes a next state exactly when the spec gives its word a meaning (R119), no
register has two writers (R259), a double register move joins different units (R283), and the memory
it accesses is there (R68). That the others stop is the model's choice: reserved words (D4, log 30),
two writers (D6, log 29), absent memory (D2, log 4), and NULL and the move NOP belong to no unit
(log 55). -/
def Obligations.CompletesExactlyWhenItRuns : Prop :=
  ∀ (i : Instr) (s : State), (∃ t, exec i s = .next t) ↔ i.Runs s

/-- R259, R402 (the spec's own decision D6, log 29): a well-formed word in which two parts write one
register is refused by name, in every state. An index register that the word both steps and loads is
no such case: it takes the loaded value (MoveResults). -/
def Obligations.TwoWritersRefused : Prop :=
  ∀ (i : Instr) (s : State), i.WellFormed → i.unitsDiffer = true → i.conflict = true →
    exec i s = .refused .writeConflict

/-! ### Operands -/

/-- R142: the value of an ALU operand at either width, and the operands that are refused: code 1010
as either operand of a two-operand word or as the operand of a single-operand one, and P as Op1
(that these are refused is the spec's own decision D4, log 30). What a read of P gives is
ReadOfProduct. -/
def Obligations.OperandValues : Prop :=
  (∀ (s : State) (r : AReg) (x : Acc),
    s.operand16 (.reg r) = s.areg r ∧ s.areg (.lo x) = (s.acc x).x0 ∧
    s.areg (.hi x) = (s.acc x).x1 ∧ s.operand16 .null = 0 ∧ (s.operand16 .ones).toNat = 2 ^ 16 - 1 ∧
    (s.operand40 (.reg r)).1.toInt = (s.areg r).toInt * 65536 ∧ (s.operand40 .null).1 = 0 ∧
    (s.operand40 .ones).1.toNat = 2 ^ 40 - 1 ∧ s.operand40 .p = s.pRead ∧
    (s.operand40 (.acc x)).1.toNat =
      (s.acc x).x2.toNat * 2 ^ 32 + (s.acc x).x1.toNat * 2 ^ 16 + (s.acc x).x0.toNat) ∧
  (∀ w : Code, 4 ≤ field w 28 4 → field w 28 4 ≠ 5 → field w 28 4 ≠ 7 → field w 28 4 ≤ 13 →
    (field w 24 4 = 10 ∨ field w 24 4 = 11 ∨ field w 20 4 = 10) → ∃ why, decode w = .error why) ∧
  (∀ w : Code, field w 28 4 = 15 → field w 24 4 ≠ 4 → field w 24 4 < 14 → field w 20 4 = 10 →
    ∃ why, decode w = .error why)

/-! ### Add and subtract -/

/-- R147, R148: ADD and ADDC write the exact sum, narrowed to the width, with C the carry out of the
unsaturated sum (D31, log 21) and V also set where the read of P saturated (D32, log 22); then
the parallel move, whose sources were read before. -/
def Obligations.AddAndAddcResult : Prop :=
  ∀ (op1 op2 : AluSrc) (dst : AReg) (pm : PMove) (s : State),
    ((Instr.add op1 op2 dst pm).Runs s →
      exec (.add op1 op2 dst pm) s = .next
        ((s.result2 op1 op2 dst fun w a b =>
          narrow w s.mr0.s (a.toInt + b.toInt) (decide (2 ^ w ≤ a.toNat + b.toNat))).applyParallel
            s pm)) ∧
    ((Instr.addc op1 op2 dst pm).Runs s →
      exec (.addc op1 op2 dst pm) s = .next
        ((s.result2 op1 op2 dst fun w a b =>
          narrow w s.mr0.s (a.toInt + b.toInt + s.mr0.c.toNat)
            (decide (2 ^ w ≤ a.toNat + b.toNat + s.mr0.c.toNat))).applyParallel s pm))

/-- R149, R150: SUB writes the exact difference, C meaning that no borrow occurs; SUBC subtracts the
borrow `not C` as well (the spec's own decision D12, log 19). C is that of the unsaturated
difference (D31, log 21), and V is also set where the read of P saturated (D32, log 22). -/
def Obligations.SubAndSubcResult : Prop :=
  ∀ (op1 op2 : AluSrc) (dst : AReg) (pm : PMove) (s : State),
    ((Instr.sub op1 op2 dst pm).Runs s →
      exec (.sub op1 op2 dst pm) s = .next
        ((s.result2 op1 op2 dst fun w a b =>
          narrow w s.mr0.s (a.toInt - b.toInt) (decide (b.toNat ≤ a.toNat))).applyParallel s pm)) ∧
    ((Instr.subc op1 op2 dst pm).Runs s →
      exec (.subc op1 op2 dst pm) s = .next
        ((s.result2 op1 op2 dst fun w a b =>
          narrow w s.mr0.s (a.toInt - b.toInt - (!s.mr0.c).toNat)
            (decide (b.toNat + (!s.mr0.c).toNat ≤ a.toNat))).applyParallel s pm))

/-- R153, R154: LSL doubles its operand and LSLC adds the old C below; C is the bit shifted out, and
with S = 1 an overflow saturates (C15). -/
def Obligations.LslAndLslcResult : Prop :=
  ∀ (op2 : AluSrc) (dst : AReg) (pm : PMove) (s : State),
    ((Instr.lsl op2 dst pm).Runs s →
      exec (.lsl op2 dst pm) s = .next
        ((s.result1 op2 dst fun w b => narrow w s.mr0.s (2 * b.toInt) b.msb).applyParallel s pm)) ∧
    ((Instr.lslc op2 dst pm).Runs s →
      exec (.lslc op2 dst pm) s = .next
        ((s.result1 op2 dst fun w b =>
          narrow w s.mr0.s (2 * b.toInt + s.mr0.c.toNat) b.msb).applyParallel s pm))

/-- R151: ABS writes the absolute value; the most negative operand overflows, and saturates with S =
1. C is a free bit (D33, log 23), and V is also set where the read of P saturated (D32, log 22). -/
def Obligations.AbsResult : Prop :=
  ∀ (op2 : AluSrc) (dst : AReg) (pm : PMove) (s : State), (Instr.abs op2 dst pm).Runs s →
    exec (.abs op2 dst pm) s = .next
      ((s.result1 op2 dst fun w b =>
        narrow w s.mr0.s (b.toInt.natAbs : Int) (s.freeBit .absCarry)).applyParallel s pm)

/-! ### Logic, shifts, count, saturate and round -/

/-- R180 to R184: AND, OR, XOR and NOT work bit by bit at the width of the operation, never saturate,
and clear V and C; V is set where the read of P saturated (D32, log 22). -/
def Obligations.LogicResults : Prop :=
  ∀ (op1 op2 : AluSrc) (dst : AReg) (pm : PMove) (s : State),
    ((Instr.and op1 op2 dst pm).Runs s →
      exec (.and op1 op2 dst pm) s = .next
        ((s.result2 op1 op2 dst fun w a b => narrow w false (a &&& b).toInt false).applyParallel
          s pm)) ∧
    ((Instr.or op1 op2 dst pm).Runs s →
      exec (.or op1 op2 dst pm) s = .next
        ((s.result2 op1 op2 dst fun w a b => narrow w false (a ||| b).toInt false).applyParallel
          s pm)) ∧
    ((Instr.xor op1 op2 dst pm).Runs s →
      exec (.xor op1 op2 dst pm) s = .next
        ((s.result2 op1 op2 dst fun w a b => narrow w false (a ^^^ b).toInt false).applyParallel
          s pm)) ∧
    ((Instr.not op2 dst pm).Runs s →
      exec (.not op2 dst pm) s = .next
        ((s.result1 op2 dst fun w b => narrow w false (~~~b).toInt false).applyParallel s pm))

/-- R187 to R189: ASR halves the signed value rounding down (N by D13, log 20), LSR halves the
unsigned value, LSRC puts the old C into the MSB; C is the bit shifted out. V is 0, but set where
the read of P saturated (D32, log 22). -/
def Obligations.ShiftRightByOneResults : Prop :=
  ∀ (op2 : AluSrc) (dst : AReg) (pm : PMove) (s : State),
    ((Instr.asr op2 dst pm).Runs s →
      exec (.asr op2 dst pm) s = .next
        ((s.result1 op2 dst fun w b =>
          narrow w false (b.toInt / 2) (b.getLsbD 0)).applyParallel s pm)) ∧
    ((Instr.lsr op2 dst pm).Runs s →
      exec (.lsr op2 dst pm) s = .next
        ((s.result1 op2 dst fun w b =>
          narrow w false (b.toNat / 2 : Nat) (b.getLsbD 0)).applyParallel s pm)) ∧
    ((Instr.lsrc op2 dst pm).Runs s →
      exec (.lsrc op2 dst pm) s = .next
        ((s.result1 op2 dst fun w b =>
          narrow w false ((b.toNat / 2 : Nat) - (if s.mr0.c then 2 ^ (w - 1) else 0))
            (b.getLsbD 0)).applyParallel s pm))

/-- R185, R186: ASHL with a count in range multiplies by a power of two, or divides rounding down where
the count is negative; C is the last bit shifted out, 0 for the count 0. With a count out of range
it runs on: some result and some flags are written, and the parallel move happens as ever (the
values are free, log 28). -/
def Obligations.AshlResults : Prop :=
  ∀ (op1 op2 : AluSrc) (dst : AReg) (pm : PMove) (s : State),
    (Instr.ashl op1 op2 dst pm).Runs s →
    let n : Int := (s.operand16 op2).toInt
    let limit : Int := if op1.wide then 39 else 15
    (-limit ≤ n → n ≤ limit →
      exec (.ashl op1 op2 dst pm) s = .next
        ((s.result1 op1 dst fun w a =>
          if 0 ≤ n then
            narrow w s.mr0.s (a.toInt * 2 ^ n.toNat) (decide (0 < n) && a.getLsbD (w - n.toNat))
          else narrow w false (a.toInt / 2 ^ (-n).toNat)
            (a.getLsbD ((-n).toNat - 1))).applyParallel s pm)) ∧
    (n < -limit ∨ limit < n →
      ∃ out : (w : Nat) → AluOut w, exec (.ashl op1 op2 dst pm) s = .next
        ((s.result1 op1 dst fun w _ => out w).applyParallel s pm))

/-- R190, R192: EXP writes 0 for the operand 0, else the number of redundant sign bits of its
operand, or one more (the reading is the open parameter expCount, log 24), as a 16-bit result with
N, V, E, C clear; V is set where the read of P saturated (D32, log 22). -/
def Obligations.ExpResult : Prop :=
  ∀ (op2 : AluSrc) (dst : AReg) (pm : PMove) (s : State), (Instr.exp op2 dst pm).Runs s →
    ∃ k : Nat,
      (if op2.wide then expCounts 40 (s.operand40 op2).1.toInt k
       else expCounts 16 (s.operand16 op2).toInt k) ∧
      exec (.exp op2 dst pm) s = .next
        ((s.result16 dst (narrow 16 false k false)
          (op2.wide && (s.operand40 op2).2)).applyParallel s pm)

/-- R193: SAT limits a 40-bit operand to 32 bits, with V set where that changed it, whatever S is,
and where the read of P saturated (D32, log 22). -/
def Obligations.SatResult : Prop :=
  ∀ (op2 : AluSrc) (dst : AReg) (pm : PMove) (s : State), (Instr.sat op2 dst pm).Runs s →
    let x := (s.operand40 op2).1.toInt
    exec (.sat op2 dst pm) s = .next
      ((s.result40 dst (narrow 40 false (clampTo 32 x) false)
        (clampTo 32 x != x || (s.operand40 op2).2)).applyParallel s pm)

/-- R194: RND rounds a 40-bit operand to its upper 24 bits and limits that to 16 bits, with V set
where the limit changed it or the read of P saturated (D32, log 22). Rounding with R = 0 is the
parameter RND_R0 at its default (log 25). -/
def Obligations.RndResult : Prop :=
  ∀ (op2 : AluSrc) (dst : AReg) (pm : PMove) (s : State), (Instr.rnd op2 dst pm).Runs s →
    ∃ q : Int, roundsTo s.mr0.r (s.operand40 op2).1.toInt q ∧
      exec (.rnd op2 dst pm) s = .next
        ((s.result16 dst (narrow 16 false (clampTo 16 q) false)
          (clampTo 16 q != q || (s.operand40 op2).2)).applyParallel s pm)

/-! ### Multiplier -/

/-- R221: the 32-bit pattern of a product is exact: read as signed for SS, SU and US, as unsigned for
UU. -/
def Obligations.ProductIsExact : Prop :=
  ∀ (mm : MulMode) (a b : Word),
    if mm = .uu then ((product mm a b).toNat : Int) = exactProduct mm a b
    else (product mm a b).toInt = exactProduct mm a b

/-- R225: MUL writes the product and records S and I; no flag changes. -/
def Obligations.MulResult : Prop :=
  ∀ (mm : MulMode) (op2 op1 : AReg) (pm : PMove) (s : State), (Instr.mul mm op2 op1 pm).Runs s →
    exec (.mul mm op2 op1 pm) s = .next ((s.withProduct s mm op1 op2).applyParallel s pm)

/-- R226, R227: MAC adds the previous product as P reads and MSU subtracts it, at 40 bits, while the
new product of the old operands is formed. C is that of the unsaturated sum or difference (D31, log
21), and V is also set where the read of P saturated (D32, log 22). -/
def Obligations.MacAndMsuResult : Prop :=
  ∀ (op1 : AReg) (mm : MulMode) (op2 acc : AReg) (pm : PMove) (s : State),
    let a := (s.acc acc.acc).value
    let p := s.pRead.1
    ((Instr.mac op1 mm op2 acc pm).Runs s →
      exec (.mac op1 mm op2 acc pm) s = .next
        (((s.result40 acc (narrow 40 s.mr0.s (a.toInt + p.toInt)
            (decide (2 ^ 40 ≤ a.toNat + p.toNat))) s.pRead.2).withProduct s mm op1 op2).applyParallel
          s pm)) ∧
    ((Instr.msu op1 mm op2 acc pm).Runs s →
      exec (.msu op1 mm op2 acc pm) s = .next
        (((s.result40 acc (narrow 40 s.mr0.s (a.toInt - p.toInt)
            (decide (p.toNat ≤ a.toNat))) s.pRead.2).withProduct s mm op1 op2).applyParallel s pm))

/-- R222: what a read of P gives under the modes of the multiplication, or after RESP or reset: P itself
in integer mode, twice P in fractional mode where that fits 32 bits, the limit of 32 bits where it
does not and S = 1; with S = 0 the value is the open parameter PFRAC_OVF (D38, log 26). -/
def Obligations.ReadOfProduct : Prop :=
  ∀ s : State, (s.pmode = none ∨ s.pmode = some { s := s.mr0.s, i := s.mr0.i }) →
    let x := s.p.toInt
    (s.mr0.i = true → s.pRead.1.toInt = x ∧ s.pRead.2 = false) ∧
    (s.mr0.i = false → fits 32 (2 * x) = true → s.pRead.1.toInt = 2 * x ∧ s.pRead.2 = false) ∧
    (s.mr0.i = false → fits 32 (2 * x) = false → s.mr0.s = true →
      s.pRead.1.toInt = clampTo 32 (2 * x) ∧ s.pRead.2 = true) ∧
    (s.mr0.i = false → fits 32 (2 * x) = false → s.mr0.s = false →
      s.pRead.2 = false ∧ s.pRead.1.toInt =
        match Config.pfracOvf with
        | .wrap32 => if x < 0 then 2 * x + 2 ^ 32 else 2 * x - 2 ^ 32
        | .keep40 => 2 * x)

/-- R228: RESP, word 0010 0010 d RRR rrr d…, puts Op1 into P0 and Op2 into P1 and forgets the modes. -/
def Obligations.RespRestoresProduct : Prop :=
  (∀ w : Code, field w 24 8 = 0x22 →
    decode w = .ok (.resp (AReg.ofCode (field w 17 3)) (AReg.ofCode (field w 20 3)))) ∧
  (∀ (op1 op2 : AReg) (s : State),
    ∃ t, exec (.resp op1 op2) s = .next t ∧ t.p.extractLsb' 0 16 = s.areg op1 ∧
      t.p.extractLsb' 16 16 = s.areg op2 ∧ t = { s with p := t.p, pmode := none })

/-! ### Moves -/

/-- R251 to R258: LDX, LDY, STX and STY alone have the effect of their one full move. The moves of
one word read the state before the word and then write (D5, log 57), whether in a double full move
or beside the single-operand NOP, as a full move, as two short moves or as a move of a lost coding.
An index register that a move both steps and loads takes the loaded value (D6, log 29). The pair,
the free page and the free guard of LDI and STI are log 32, the long-X address is log 33, a read of
LC beside a load of a loop register log 41. -/
def Obligations.MoveResults : Prop :=
  (∀ (n : IReg) (post : BitVec 4) (r : MoveReg) (s : State),
    let load : FullMove := { store := false, idx := n, post := post, reg := r }
    let store : FullMove := { store := true, idx := n, post := post, reg := r }
    ((Instr.ldx n post r).Runs s → exec (.ldx n post r) s = .next (s.applyMove s .x load)) ∧
    ((Instr.ldy n post r).Runs s → exec (.ldy n post r) s = .next (s.applyMove s .y load)) ∧
    ((Instr.stx n post r).Runs s → exec (.stx n post r) s = .next (s.applyMove s .x store)) ∧
    ((Instr.sty n post r).Runs s → exec (.sty n post r) s = .next (s.applyMove s .y store))) ∧
  (∀ (x y : FullMove) (s : State), (Instr.dmove x y).Runs s →
    exec (.dmove x y) s = .next (s.applyMoves s x y)) ∧
  (∀ (b : Bus) (m : FullMove) (s : State), (Instr.parFull b m).Runs s →
    exec (.parFull b m) s = .next (s.applyMove s b m)) ∧
  (∀ (x y : ShortMove) (s : State), (Instr.parShort x y).Runs s →
    exec (.parShort x y) s = .next (s.applyMoves s x.full y.full)) ∧
  (∀ (m : UncodedMove) (s : State), (Instr.parUncoded m).Runs s →
    exec (.parUncoded m) s = .next (s.applyUncoded s m)) ∧
  (∀ (pm : PMove) (s : State), (Instr.nopMove pm).Runs s →
    exec (.nopMove pm) s = .next (s.applyParallel s pm))

/-- R283: a double register move reads both sources, then writes both targets; a move within one
unit is refused. The table of units is the spec's derivation, and NULL and the move NOP belong to
none of them (log 55, a design choice). -/
def Obligations.DoubleRegisterMoveResult : Prop :=
  ∀ (xs xd ys yd : MoveReg) (s : State),
    ((Instr.mvDouble xs xd ys yd).Runs s →
      exec (.mvDouble xs xd ys yd) s =
        .next ((s.applyRegMove s .x xs xd).applyRegMove s .y ys yd)) ∧
    ((Instr.mvDouble xs xd ys yd).unitsDiffer = false →
      exec (.mvDouble xs xd ys yd) s = .refused .unitRestriction)

/-- R261, R276, R121: LDC writes its constant to any register a move can name, as R261's table says, and
the total NOP changes nothing. The places of MR0's bits are the parameter MR0_POS (presumed, log
8); a read of LC next to a loop end is a draw (R399), so LC is looked at directly. -/
def Obligations.LdcAndNopResult : Prop :=
  (∀ s : State, exec .nop s = .next s) ∧
  (∀ (c : Word) (r : MoveReg) (port : Port) (s : State),
    exec (.ldc c r) s = .next (s.writeReg r c) ∧
    let t := s.writeReg r c
    (r = .null ∨ r = .nop → t = s) ∧
    (r ≠ .null → r ≠ .nop → r ≠ .lc → r ≠ .mr0 → (∀ x, r ≠ .guard x) → t.readReg port r = c) ∧
    (r = .lc → t.lc = c) ∧
    (∀ x, r = .guard x → (t.acc x).x2.toNat = c.toNat % 256) ∧
    (r = .mr0 → t.mr0 =
      { s := c.toNat.testBit 8, i := c.toNat.testBit 9, r := c.toNat.testBit 10,
        l := c.toNat.testBit 5, z := c.toNat.testBit 4, n := c.toNat.testBit 3,
        v := c.toNat.testBit 2, e := c.toNat.testBit 1, c := c.toNat.testBit 0 }))

/-- R264: a move with the move NOP does nothing at all, whatever its other bits are, as a full move, as a
double full move, beside an ALU operation and in an LDC. -/
def Obligations.MoveNopDoesNothing : Prop :=
  ∀ (st st' : Bool) (n n' : IReg) (post post' : BitVec 4) (b : Bus) (c : Word) (s : State),
    let m : FullMove := { store := st, idx := n, post := post, reg := .nop }
    let m' : FullMove := { store := st', idx := n', post := post', reg := .nop }
    exec (.dmove m m') s = .next s ∧ exec (.ldx n post .nop) s = .next s ∧
    exec (.stx n post .nop) s = .next s ∧ exec (.ldy n post .nop) s = .next s ∧
    exec (.sty n post .nop) s = .next s ∧ exec (.parFull b m) s = .next s ∧
    exec (.nopMove (.full b m)) s = .next s ∧ exec (.ldc c .nop) s = .next s ∧
    ∀ t : State, t.applyParallel s (.full b m) = t

/-- R24: a 16-bit write of a high half takes the sign into the guard register; a write of a low half, of
a guard register or of a whole accumulator has no such side effect. -/
def Obligations.GuardFollowsSixteenBitWrites : Prop :=
  ∀ (s : State) (x y : Acc) (v : Word) (l : Long),
    ((s.writeReg (.areg (.hi x)) v).acc x =
      { x2 := if v.toInt < 0 then 0xFF else 0x00, x1 := v, x0 := (s.acc x).x0 }) ∧
    ((s.writeReg (.areg (.lo x)) v).acc x = { s.acc x with x0 := v }) ∧
    ((s.writeReg (.guard x) v).acc x = { s.acc x with x2 := v.setWidth 8 }) ∧
    ((s.setLong x l).acc x).value = l ∧
    (y ≠ x → (s.writeReg (.areg (.hi x)) v).acc y = s.acc y ∧
      (s.writeReg (.areg (.lo x)) v).acc y = s.acc y ∧
      (s.writeReg (.guard x) v).acc y = s.acc y ∧ (s.setLong x l).acc y = s.acc y)

/-- R262: a register stored to memory and loaded back from the same word holds its own bits again: the
eight bits of a guard register, the nine named bits of MR0, the whole of every other register. LC
is stored as it is where the next loop-end test does not fire (R399). That ROM takes the word is
R67's reading (log 6). -/
def Obligations.StoreThenLoadRestoresRegister : Prop :=
  ∀ (n : IReg) (r : MoveReg) (s : State),
    (s.kindAt .x (s.index n).toNat = .ram ∨ s.kindAt .x (s.index n).toNat = .rom) →
    r ≠ .null → r ≠ .nop →
    ∃ t u, exec (.stx n 0 r) s = .next t ∧ exec (.ldx n 0 r) t = .next u ∧ u.xmem = t.xmem ∧
      (∀ x, r = .guard x → u.acc x = s.acc x) ∧ (r = .mr0 → u.mr0 = s.mr0) ∧
      (r = .lc → s.nextTestFires = false → u.lc = s.lc) ∧
      (r ≠ .mr0 → r ≠ .lc → (∀ x, r ≠ .guard x) → u.readReg .x r = s.readReg .x r)

/-! ### Addresses -/

/-- R265, R267: `(In)` and `(In)+k` add the signed code to the index register, and the linear `*` modes
add the pair register, modulo 2^16. -/
def Obligations.LinearPostModification : Prop :=
  ∀ (i m : Word) (post : BitVec 4),
    (post ≠ 8 → ∃ v, postMod i m post = some v ∧
      (v.toNat : Int) = (i.toNat + post.toInt) % 65536) ∧
    (m.toNat < 8192 ∨ 57344 ≤ m.toNat →
      ∃ v, postMod i m 8 = some v ∧ (v.toNat : Int) = (i.toNat + m.toInt) % 65536)

/-- R266, R268 to R271: the modulo modes of `*` and their sizes and steps; inside its documented use a
modulo step stays in the buffer `base .. base + size - 1`, where base is aligned to the smallest
power of two that holds the buffer, and moves by the step modulo the size; outside it the model
has no fixed answer (D23, log 36). -/
def Obligations.ModuloPostModification : Prop :=
  (∀ i m : Word,
    (8192 ≤ m.toNat → m.toNat < 16384 →
      postMod i m 8 = modStep i (m.extractLsb' 6 7).toInt ((m.extractLsb' 0 6).toNat + 1)) ∧
    (16384 ≤ m.toNat → m.toNat < 32768 →
      postMod i m 8 = modStep i (m.extractLsb' 6 8).toInt ((m.extractLsb' 0 6).toNat * 64 + 64)) ∧
    (32768 ≤ m.toNat → m.toNat < 40960 → postMod i m 8 = modStep i 1 (m.toNat % 8192 + 1)) ∧
    (40960 ≤ m.toNat → m.toNat < 49152 → postMod i m 8 = modStep i (-1) (m.toNat % 8192 + 1))) ∧
  (∀ (i : Word) (step : Int) (size j : Nat), 1 ≤ size → size ≤ 8192 → size ≤ 2 ^ j →
    2 ^ j < 2 * size →
    if i.toNat % 2 ^ j < size ∧ step ≤ size ∧ -(size : Int) ≤ step then
      ∃ v, modStep i step size = some v ∧ v.toNat / 2 ^ j = i.toNat / 2 ^ j ∧
        v.toNat % 2 ^ j < size ∧
        ((v.toNat % 2 ^ j : Nat) : Int) % size = ((i.toNat % 2 ^ j : Nat) + step) % size
    else modStep i step size = none)

/-- R272: bit-reversed modification keeps the address inside its buffer of 2^k words and adds there with
the carry running towards the LSB: the reversed low bits add as numbers. -/
def Obligations.BitReversedPostModification : Prop :=
  ∀ (i m : Word) (k : Nat), 49152 ≤ m.toNat → m.toNat < 57344 →
    (m.toNat % 8192 = 0 → postMod i m 8 = some i) ∧
    (2 ^ k ≤ 2 * (m.toNat % 8192) → m.toNat % 8192 < 2 ^ k →
      ∃ v, postMod i m 8 = some v ∧ v.toNat / 2 ^ k = i.toNat / 2 ^ k ∧
        reverseBits k v.toNat = (reverseBits k i.toNat + reverseBits k (m.toNat % 8192)) % 2 ^ k ∧
        ∀ x j, (reverseBits k x).testBit j = (decide (j < k) && x.testBit (k - 1 - j)))

/-! ### Memory -/

/-- R67, R71 (the spec's own decision D9): a word stored in X or Y is what the next read of that address
gives, in RAM and in ROM (log 6), and no other byte of any space changes (that the spaces are
disjoint is the model's choice, log 58). -/
def Obligations.StoredWordReadsBack : Prop :=
  ∀ (s : State) (b : Bus) (key : Nat) (v : Word),
    s.kindAt b.space key = .ram ∨ s.kindAt b.space key = .rom →
    (s.storeData b key v).readData b key = .ok v ∧
    ∀ (sp : Space) (k : Nat), (sp = b.space → k / 2 ≠ key) →
      (s.storeData b key v).byteAt sp k = s.byteAt sp k

/-- R68 (the spec's own decision D2, log 4): an access or a fetch at an address that the platform does
not admit leaves the core stuck. -/
def Obligations.AbsentAddressStopsCore : Prop :=
  ∀ (s : State) (n : IReg) (post : BitVec 4) (r : MoveReg), r ≠ .nop →
    (s.kindAt .x (s.index n).toNat = .absent →
      ((Instr.ldx n post r).ConflictFree → r ≠ .null →
        exec (.ldx n post r) s = .fault (.noMemory .x (s.index n).toNat)) ∧
      exec (.stx n post r) s = .fault (.noMemory .x (s.index n).toNat)) ∧
    (s.kindAt .y (s.index n).toNat = .absent →
      ((Instr.ldy n post r).ConflictFree → r ≠ .null →
        exec (.ldy n post r) s = .fault (.noMemory .y (s.index n).toNat)) ∧
      exec (.sty n post r) s = .fault (.noMemory .y (s.index n).toNat)) ∧
    (s.runs = true → s.pageOpen = false → s.kindAt .i s.fetchAddress.toNat = .absent →
      step s = .fault (.noMemory .i s.fetchAddress.toNat))

/-! ### Control -/

/-- R117: the condition codes of Table 1, when each condition is true, and that bit 4 set negates
the condition of the code with bit 4 clear, for every pair (derived there from the table). Every
other code is refused by the spec's own decisions D4 and D35 (log 30). -/
def Obligations.ConditionsOverFlags : Prop :=
  ∀ m : Mr0,
    let lt := m.n ^^ (m.v && !m.s)
    let table : List (Nat × Bool) :=
      [(0, true), (1, m.c), (2, m.e), (3, m.v), (4, m.n), (5, m.z), (8, lt), (9, lt || m.z),
       (17, !m.c), (18, !m.e), (19, !m.v), (20, !m.n), (21, !m.z), (24, !lt), (25, !(lt || m.z))]
    (∀ row ∈ table, ∃ c, Cond.ofCode row.1 = .ok c ∧ Cond.holds c m = row.2) ∧
    (∀ n < 64, (∀ row ∈ table, row.1 ≠ n) → Cond.ofCode n = .error .unlistedCondition) ∧
    (∀ n < 16, n ≠ 0 → ∀ c, Cond.ofCode n = .ok c →
      ∃ d, Cond.ofCode (n + 16) = .ok d ∧ Cond.holds d m = !Cond.holds c m)

/-- R312 to R316: Jcc, CALLcc and JRcc clear L and, where the condition holds for the flags before and
after the preceding instruction, hand over a delayed transfer; where it holds for neither, none.
CALLcc also writes LR0 with its address + 2, taken or not (the spec's own decision D30, log 44).
Where the two flag sets differ in the condition the model leaves the outcome free (U10, log 38). -/
def Obligations.ConditionalJumpAndCallResults : Prop :=
  ∀ (addr : Word) (c : Cond) (n : IReg) (s : State),
    let u := { s with mr0 := { s.mr0 with l := false } }
    (Cond.holds c s.fprev = true → Cond.holds c s.mr0 = true →
      exec (.jcc addr c) s = .next { u with xfer := .delayed addr none } ∧
      exec (.callcc addr c) s = .next { u with lr0 := s.pc + 2, xfer := .delayed addr none } ∧
      exec (.jrcc c) s = .next { u with xfer := .delayed s.lr0 none } ∧
      exec (.jrccOp1 c n) s = .next { u with xfer := .delayed s.lr0 (some (s.index n)) }) ∧
    (Cond.holds c s.fprev = false → Cond.holds c s.mr0 = false →
      exec (.jcc addr c) s = .next u ∧ exec (.callcc addr c) s = .next { u with lr0 := s.pc + 2 } ∧
      exec (.jrcc c) s = .next u ∧ exec (.jrccOp1 c n) s = .next u)

/-- R317, R318, R356: a return from interrupt goes to LR1 after its delay slot, with the page that the
form with bit 23 set takes from the index register in bits 8:6; it clears L and restores nothing
else. -/
def Obligations.ReturnFromInterruptResults : Prop :=
  (∀ w : Code, field w 24 8 = 0x21 →
    decode w = .ok (if field w 23 1 = 1 then .retiOp1 (Fin.ofNat 8 (field w 6 3)) else .reti)) ∧
  (∀ (n : IReg) (s : State),
    exec .reti s = .next
      { s with mr0 := { s.mr0 with l := false }, xfer := .delayed s.lr1 none } ∧
    exec (.retiOp1 n) s = .next
      { s with mr0 := { s.mr0 with l := false }, xfer := .delayed s.lr1 (some (s.index n)) })

/-- R321, R322: JMPI zeroes the page, steps its index register by 0, +1 or -1 modulo 2^16 without
touching memory, goes on at its target at once, and leaves every flag alone. No other step can be
encoded: a JMPI word with mm = 10 is refused (the spec's own decision D25, log 30). -/
def Obligations.JmpiResult : Prop :=
  (∀ (addr : Word) (mm : JmpiStep) (n : IReg) (s : State),
    ∃ v : Word, (v.toNat : Int) = (((s.index n).toNat : Int) +
        (match mm with | .keep => 0 | .inc => 1 | .dec => -1)) % 65536 ∧
      exec (.jmpi addr mm n) s = .next
        { s.setIndex n v with ipr0 := 0, pageOpen := false, xfer := .immediate addr }) ∧
  (∀ w : Code, field w 24 8 = 0x2A → field w 3 2 = 2 → ∃ why, decode w = .error why)

/-- R325: LOOP writes LC from its register, LE from its field and LS with its address + 2, and clears
L. -/
def Obligations.LoopResult : Prop :=
  ∀ (last : Word) (count : MoveReg) (s : State), (Instr.loop last count).WellFormed →
    exec (.loop last count) s = .next
      { s with ls := s.pc + 2, le := last, lc := s.readReg .loop count,
               mr0 := { s.mr0 with l := false } }

/-- R330: HALT stops the pipeline when the interrupt state machine is idle and is a NOP otherwise. -/
def Obligations.HaltResult : Prop :=
  ∀ s : State,
    (s.intsm = .idle → exec .halt s = .next { s with hlt := .waiting }) ∧
    (s.intsm ≠ .idle → exec .halt s = .next s)

/-! ### Steps -/

/-- R32: a step runs the instruction that the word at the program counter decodes to, in the state in
which the loop-end test has counted, and hands the state it leaves to the sequencing; a fault or a
refusal of the instruction stops the step. -/
def Obligations.StepRunsDecodedInstruction : Prop :=
  ∀ (s : State) (i : Instr), s.runsNext i →
    (∀ t, exec i s.takeEvent.prepare = .next t →
      step s = .next (s.takeEvent.finish t (kindOf i))) ∧
    (∀ f, exec i s.takeEvent.prepare = .fault f → step s = .fault f) ∧
    (∀ r, exec i s.takeEvent.prepare = .refused r → step s = .refused r)

/-- R32, R33: where no sequence restriction is violated, PC takes the pending transfer's target if one is
pending, with its page; else the target of an immediate transfer; else the sequential or loop
successor, a delayed transfer becoming pending. FPREV and PREVK remember the instruction, HLT counts
one of the three instructions after a HALT (R330), and every register keeps what the instruction
left. -/
def Obligations.SequencingOfOrderlyStep : Prop :=
  ∀ (s t : State) (i : Instr), exec i s.prepare = .next t → s.orderly t (kindOf i) →
    let u := s.finish t (kindOf i)
    (∀ d, s.ds = some d → u.pc = d.target ∧ u.ds = none ∧ u.ipr0 = d.page.getD t.ipr0) ∧
    (s.ds = none → u.ipr0 = t.ipr0 ∧
      (t.xfer = .none → u.pc = s.seq ∧ u.ds = none) ∧
      (∀ a, t.xfer = .immediate a → u.pc = a ∧ u.ds = none) ∧
      (∀ a pg, t.xfer = .delayed a pg →
        u.pc = s.seq ∧ u.ds = some { target := a, page := pg })) ∧
    u.fprev = s.mr0 ∧ u.prevk = kindOf i ∧ u.mr0 = t.mr0 ∧ (∀ x, u.acc x = t.acc x) ∧
    (∀ n, u.index n = t.index n) ∧ u.p = t.p ∧ u.lr0 = t.lr0 ∧ u.lr1 = t.lr1 ∧ u.ls = t.ls ∧
    u.le = t.le ∧ u.lc = t.lc ∧ u.ipr1 = t.ipr1 ∧ u.xmem = t.xmem ∧ u.ymem = t.ymem ∧
    u.imem = t.imem ∧ u.lsup = t.lsup ∧
    (t.hlt = .running → u.hlt = .running) ∧ (t.hlt = .waiting → u.hlt = .waiting) ∧
    (∀ k vec, t.hlt = .draining k vec →
      ∃ j : Fin 4, u.hlt = .draining j vec ∧ j.val = k.val - 1)

/-- R313 to R319, R356: a taken Jcc, CALLcc or JRcc, and every RETI, clears L and executes exactly one more
instruction, the one after it, and then goes on at its target, with its page if it names one. CALLcc
leaves its address + 2 in LR0. -/
def Obligations.TakenJumpRunsItsDelaySlot : Prop :=
  ∀ (s : State) (j : Instr) (d : Delayed), s.runsNext j → s.jumpsTo j d → s.ds = none →
    s.slotHazard (kindOf j) = false → s.endHazard (kindOf j) = false →
    ∃ u, step s = .next u ∧ u.pc = s.pc + 1 ∧ u.ds = some d ∧ u.mr0.l = false ∧
      (∀ c, j = .callcc d.target c → u.lr0 = s.pc + 2) ∧
      ∀ (i : Instr) (t : State), u.runsNext i → exec i u.takeEvent.prepare = .next t →
        u.orderly t (kindOf i) →
        ∃ v, step u = .next v ∧ v.pc = d.target ∧ v.ds = none ∧ v.ipr0 = d.page.getD t.ipr0

/-- R326, R398: the loop-end test. It fires only at LE, with L clear when the instruction was fetched (the
spec's own decision D27, log 42), the test not suppressed (LSUP, log 43) and LC not 0; then LC
counts and the next instruction is at LS, else the next one is at the address + 1, modulo 2^16 (D14,
log 45), and LC stays. The suppression counts down, from 2 to 1 to 0. -/
def Obligations.LoopEndTest : Prop :=
  ∀ s : State,
    s.prepare.lsup.val = s.lsup.val - 1 ∧
    if s.pc = s.le ∧ s.fprev.l = false ∧ s.lsup ≠ 1 ∧ s.lc ≠ 0 then
      s.prepare.lc = s.lc - 1 ∧ s.seq = s.ls
    else s.prepare.lc = s.lc ∧ s.seq = s.pc + 1

/-- R352, R353, R321 (D7 and D20, log 15 to 17): entry of an interrupt saves the return address and the
page, sets L in MR0 and in FPREV, zeroes the page, and runs the vector's JMPI with no boundary
between: the machine goes on at JMPI's target with its index register stepped, and no other
register changes. -/
def Obligations.InterruptEntryState : Prop :=
  ∀ (s : State) (vec : Vec) (addr : Word) (mm : JmpiStep) (n : IReg), s.resetDue = false →
    s.takeEvent.intsm = .pending vec → s.ds = none → s.takeEvent.hlt.allowsEntry = true →
    s.prevk ≠ .jmpi → s.plainVector vec →
    decode (s.word32 (32 + vec.val)) = .ok (.jmpi addr mm n) →
    ∃ v : Word, (v.toNat : Int) = (((s.index n).toNat : Int) +
        (match mm with | .keep => 0 | .inc => 1 | .dec => -1)) % 65536 ∧
      step s = .next
        { s.takeEvent.setIndex n v with
            lr1 := s.pc, ipr1 := s.ipr0, mr0 := { s.mr0 with l := true },
            fprev := { s.mr0 with l := true }, ipr0 := 0, pageOpen := false, pc := addr,
            npc := BitVec.ofNat 16 (33 + vec.val), xfer := .none, ds := none, lsup := 0,
            prevk := .jmpi, hlt := .running, intsm := .idle, sti1 := none, sti2 := s.sti1,
            freeCtr := s.freeCtr + 1 }

/-- R323, R353 (U14, U23, log 16): an interrupt directly after a JMPI, or through a vector that holds no
JMPI, has no effect that the spec gives, and the model stops; a reserved JMPI word at the vector is
rejected as anywhere (log 30), and a vector in memory that is not there leaves the core stuck
(log 4). -/
def Obligations.UnpredictableEntryStops : Prop :=
  ∀ (s : State) (vec : Vec), s.resetDue = false → s.takeEvent.intsm = .pending vec →
    s.ds = none → s.takeEvent.hlt.allowsEntry = true →
    (s.prevk = .jmpi → step s = .fault .interruptAfterJmpi) ∧
    (s.prevk ≠ .jmpi → s.kindAt .i (32 + vec.val) = .absent →
      step s = .fault (.noMemory .i (32 + vec.val))) ∧
    (s.prevk ≠ .jmpi → s.plainVector vec →
      (field (s.word32 (32 + vec.val)) 24 8 ≠ 0x2A → step s = .fault .vectorNotJmpi) ∧
      (∀ why, field (s.word32 (32 + vec.val)) 24 8 = 0x2A →
        decode (s.word32 (32 + vec.val)) = .error why → step s = .refused (.rejected why)))

/-- R35, R37, R42: LR1 and IPR1 change, and L becomes set, only by interrupt entry or by an instruction
that names the register as a destination. -/
def Obligations.OnlyEntryAndMovesWriteReturnState : Prop :=
  ∀ s u : State, s.resetDue = false → step s = .next u →
    s.takeEvent.entryDue ≠ none ∨
    ∃ o : Option Instr, (o = none → s.takeEvent.hlt = .waiting) ∧
      (∀ i, o = some i → ∃ w, s.takeEvent.fetch = .ok w ∧ decode w = .ok i) ∧
      (u.lr1 = s.lr1 ∨ ∃ i, o = some i ∧ .control .lr1 ∈ i.written) ∧
      (u.ipr1 = s.ipr1 ∨ ∃ i, o = some i ∧ .control .ipr1 ∈ i.written) ∧
      (u.mr0.l = true → s.mr0.l = true ∨ ∃ i, o = some i ∧ .control .mr0 ∈ i.written)

/-- R352: no interrupt is entered between a jump and its delay slot (the spec's own decision D7, log
15), nor while the three instructions after a HALT are still to run (D37, log 18). -/
def Obligations.EntryHeldOffInDelaySlotAndDrain : Prop :=
  ∀ (s : State) (i : Instr) (t : State), s.resetDue = false → s.hlt ≠ .waiting → s.plainFetch →
    decode (s.word32 s.fetchAddress.toNat) = .ok i → exec i s.takeEvent.prepare = .next t →
    (s.ds ≠ none ∨ ∃ k vec, s.hlt = .draining k vec ∧ k ≠ 0) →
    step s = .next (s.takeEvent.finish t (kindOf i))

/-- R330, R351, R352, R358: a halted core changes nothing while no request comes or the peripheral holds
them back; a request makes it run again, with three instructions to go before the entry (D37, log
18). A running core receives a request without more ado; the reception disables further requests, a
request stays with the peripheral while they are disabled or one is pending, and a store to
INT_GLOB_ENA enables them again. The peripheral's bit is log 54, the script of events log 14. -/
def Obligations.HaltWaitsForRequest : Prop :=
  ∀ (s : State) (es : List Event),
    (s.hlt = .waiting → s.intsm = .idle →
      (s.events = [] → step s = .next { s with freeCtr := s.freeCtr + 1 }) ∧
      (s.events = .quiet :: es →
        step s = .next { s with events := es, freeCtr := s.freeCtr + 1 }) ∧
      (∀ vec, s.events = .request vec :: es → s.irqOff = true →
        step s = .next { s with freeCtr := s.freeCtr + 1 }) ∧
      (∀ vec, s.events = .request vec :: es → s.irqOff = false →
        s.takeEvent = { s with events := es, intsm := .pending vec, irqOff := true,
                               hlt := .draining 3 vec } ∧
        s.takeEvent.entryDue = none)) ∧
    (∀ vec, s.events = .request vec :: es →
      (s.hlt ≠ .waiting → s.intsm = .idle → s.irqOff = false →
        s.takeEvent = { s with events := es, intsm := .pending vec, irqOff := true }) ∧
      (s.irqOff = true ∨ s.intsm ≠ .idle → s.takeEvent = s)) ∧
    ∀ (b : Bus) (key : Nat) (v : Word), s.kindAt b.space key ≠ .absent →
      (s.storeData b key v).irqOff = if s.plat.intGlobEna = (b, key) then false else s.irqOff

/-- U4, U11, U12, D28 (log 39, 40): where a change of flow violates a sequence restriction, only the flow
(PC, DS, the page of a transfer at stake) and LC become free, LC only at a loop end or where R397
applies at the next executed address. IPR0 stays what the instruction left unless a pending
transfer loads its page, or a violated restriction meets a page, pending or just produced; the page
of the fetches stays as known as it was unless a page is loaded. A loop register written just
before a loop end (R397) frees PC and LC alone, not DS. Everything else the instruction does stands,
and HLT counts (R330). -/
def Obligations.ViolatedRestrictionFreesOnlyFlow : Prop :=
  ∀ (s t : State) (k : Kind),
    let u := s.finish t k
    u.mr0 = t.mr0 ∧ u.fprev = s.mr0 ∧ u.prevk = k ∧ (∀ x, u.acc x = t.acc x) ∧
    (∀ n, u.index n = t.index n) ∧ u.p = t.p ∧ u.pmode = t.pmode ∧ u.lr0 = t.lr0 ∧
    u.lr1 = t.lr1 ∧ u.ls = t.ls ∧ u.le = t.le ∧ u.ipr1 = t.ipr1 ∧ u.xmem = t.xmem ∧
    u.ymem = t.ymem ∧ u.imem = t.imem ∧ u.lsup = t.lsup ∧ u.intsm = t.intsm ∧
    u.irqOff = t.irqOff ∧ u.plat = t.plat ∧ u.events = t.events ∧ u.sti1 = t.sti1 ∧
    u.sti2 = t.sti2 ∧ u.memEpoch = t.memEpoch ∧ u.npc = t.npc ∧ u.xfer = .none ∧
    (s.endHazard k = false → s.prepare.loopWriteHazard t.transfer = false →
      s.prepare.loopWriteHazard (t.transfer.flowHazard s k) = false → u.lc = t.lc) ∧
    (pagePending t.ds = false → u.pageOpen = t.pageOpen) ∧
    (pagePending t.ds = false → pagePending s.ds = false → pageProduced t.xfer = false →
      u.ipr0 = t.ipr0) ∧
    (pagePending t.ds = false → s.endHazard k = false → s.slotHazard k = false →
      u.ipr0 = t.ipr0) ∧
    (s.endHazard k = false → s.slotHazard k = false → u.ds = t.transfer.ds ∧
      (s.prepare.loopWriteHazard t.transfer = false → u.pc = t.transfer.pc)) ∧
    (t.hlt = .running → u.hlt = .running) ∧ (t.hlt = .waiting → u.hlt = .waiting) ∧
    (∀ k vec, t.hlt = .draining k vec →
      ∃ j : Fin 4, u.hlt = .draining j vec ∧ j.val = k.val - 1)

end
end

