-- ==== Sys2Proof/Laws/State.lean ====
section
/-! SUPPORT. One lemma per field per update of the state, so that no proof unfolds a record update. -/

namespace Sys2Proof.Machine

namespace State


/-! `setAcc`: the accumulators alone. -/

@[simp] theorem setAcc_p (s : State) (x : Acc) (v : Accum) : (s.setAcc x v).p = s.p := by cases x <;> rfl
@[simp] theorem setAcc_idx (s : State) (x : Acc) (v : Accum) : (s.setAcc x v).idx = s.idx := by cases x <;> rfl
@[simp] theorem setAcc_pc (s : State) (x : Acc) (v : Accum) : (s.setAcc x v).pc = s.pc := by cases x <;> rfl
@[simp] theorem setAcc_lr0 (s : State) (x : Acc) (v : Accum) : (s.setAcc x v).lr0 = s.lr0 := by cases x <;> rfl
@[simp] theorem setAcc_lr1 (s : State) (x : Acc) (v : Accum) : (s.setAcc x v).lr1 = s.lr1 := by cases x <;> rfl
@[simp] theorem setAcc_mr0 (s : State) (x : Acc) (v : Accum) : (s.setAcc x v).mr0 = s.mr0 := by cases x <;> rfl
@[simp] theorem setAcc_ipr0 (s : State) (x : Acc) (v : Accum) : (s.setAcc x v).ipr0 = s.ipr0 := by cases x <;> rfl
@[simp] theorem setAcc_ipr1 (s : State) (x : Acc) (v : Accum) : (s.setAcc x v).ipr1 = s.ipr1 := by cases x <;> rfl
@[simp] theorem setAcc_ls (s : State) (x : Acc) (v : Accum) : (s.setAcc x v).ls = s.ls := by cases x <;> rfl
@[simp] theorem setAcc_le (s : State) (x : Acc) (v : Accum) : (s.setAcc x v).le = s.le := by cases x <;> rfl
@[simp] theorem setAcc_lc (s : State) (x : Acc) (v : Accum) : (s.setAcc x v).lc = s.lc := by cases x <;> rfl
@[simp] theorem setAcc_ds (s : State) (x : Acc) (v : Accum) : (s.setAcc x v).ds = s.ds := by cases x <;> rfl
@[simp] theorem setAcc_lsup (s : State) (x : Acc) (v : Accum) : (s.setAcc x v).lsup = s.lsup := by cases x <;> rfl
@[simp] theorem setAcc_fprev (s : State) (x : Acc) (v : Accum) : (s.setAcc x v).fprev = s.fprev := by cases x <;> rfl
@[simp] theorem setAcc_pmode (s : State) (x : Acc) (v : Accum) : (s.setAcc x v).pmode = s.pmode := by cases x <;> rfl
@[simp] theorem setAcc_hlt (s : State) (x : Acc) (v : Accum) : (s.setAcc x v).hlt = s.hlt := by cases x <;> rfl
@[simp] theorem setAcc_prevk (s : State) (x : Acc) (v : Accum) : (s.setAcc x v).prevk = s.prevk := by cases x <;> rfl
@[simp] theorem setAcc_intsm (s : State) (x : Acc) (v : Accum) : (s.setAcc x v).intsm = s.intsm := by cases x <;> rfl
@[simp] theorem setAcc_xmem (s : State) (x : Acc) (v : Accum) : (s.setAcc x v).xmem = s.xmem := by cases x <;> rfl
@[simp] theorem setAcc_ymem (s : State) (x : Acc) (v : Accum) : (s.setAcc x v).ymem = s.ymem := by cases x <;> rfl
@[simp] theorem setAcc_imem (s : State) (x : Acc) (v : Accum) : (s.setAcc x v).imem = s.imem := by cases x <;> rfl
@[simp] theorem setAcc_plat (s : State) (x : Acc) (v : Accum) : (s.setAcc x v).plat = s.plat := by cases x <;> rfl
@[simp] theorem setAcc_events (s : State) (x : Acc) (v : Accum) : (s.setAcc x v).events = s.events := by cases x <;> rfl
@[simp] theorem setAcc_irqOff (s : State) (x : Acc) (v : Accum) : (s.setAcc x v).irqOff = s.irqOff := by cases x <;> rfl
@[simp] theorem setAcc_npc (s : State) (x : Acc) (v : Accum) : (s.setAcc x v).npc = s.npc := by cases x <;> rfl
@[simp] theorem setAcc_xfer (s : State) (x : Acc) (v : Accum) : (s.setAcc x v).xfer = s.xfer := by cases x <;> rfl
@[simp] theorem setAcc_pageOpen (s : State) (x : Acc) (v : Accum) : (s.setAcc x v).pageOpen = s.pageOpen := by cases x <;> rfl
@[simp] theorem setAcc_sti1 (s : State) (x : Acc) (v : Accum) : (s.setAcc x v).sti1 = s.sti1 := by cases x <;> rfl
@[simp] theorem setAcc_sti2 (s : State) (x : Acc) (v : Accum) : (s.setAcc x v).sti2 = s.sti2 := by cases x <;> rfl
@[simp] theorem setAcc_memEpoch (s : State) (x : Acc) (v : Accum) : (s.setAcc x v).memEpoch = s.memEpoch := by cases x <;> rfl
@[simp] theorem setAcc_freeCtr (s : State) (x : Acc) (v : Accum) : (s.setAcc x v).freeCtr = s.freeCtr := by cases x <;> rfl

/-! `setLong`: the accumulators alone. -/

@[simp] theorem setLong_p (s : State) (x : Acc) (v : Long) : (s.setLong x v).p = s.p := by cases x <;> rfl
@[simp] theorem setLong_idx (s : State) (x : Acc) (v : Long) : (s.setLong x v).idx = s.idx := by cases x <;> rfl
@[simp] theorem setLong_pc (s : State) (x : Acc) (v : Long) : (s.setLong x v).pc = s.pc := by cases x <;> rfl
@[simp] theorem setLong_lr0 (s : State) (x : Acc) (v : Long) : (s.setLong x v).lr0 = s.lr0 := by cases x <;> rfl
@[simp] theorem setLong_lr1 (s : State) (x : Acc) (v : Long) : (s.setLong x v).lr1 = s.lr1 := by cases x <;> rfl
@[simp] theorem setLong_mr0 (s : State) (x : Acc) (v : Long) : (s.setLong x v).mr0 = s.mr0 := by cases x <;> rfl
@[simp] theorem setLong_ipr0 (s : State) (x : Acc) (v : Long) : (s.setLong x v).ipr0 = s.ipr0 := by cases x <;> rfl
@[simp] theorem setLong_ipr1 (s : State) (x : Acc) (v : Long) : (s.setLong x v).ipr1 = s.ipr1 := by cases x <;> rfl
@[simp] theorem setLong_ls (s : State) (x : Acc) (v : Long) : (s.setLong x v).ls = s.ls := by cases x <;> rfl
@[simp] theorem setLong_le (s : State) (x : Acc) (v : Long) : (s.setLong x v).le = s.le := by cases x <;> rfl
@[simp] theorem setLong_lc (s : State) (x : Acc) (v : Long) : (s.setLong x v).lc = s.lc := by cases x <;> rfl
@[simp] theorem setLong_ds (s : State) (x : Acc) (v : Long) : (s.setLong x v).ds = s.ds := by cases x <;> rfl
@[simp] theorem setLong_lsup (s : State) (x : Acc) (v : Long) : (s.setLong x v).lsup = s.lsup := by cases x <;> rfl
@[simp] theorem setLong_fprev (s : State) (x : Acc) (v : Long) : (s.setLong x v).fprev = s.fprev := by cases x <;> rfl
@[simp] theorem setLong_pmode (s : State) (x : Acc) (v : Long) : (s.setLong x v).pmode = s.pmode := by cases x <;> rfl
@[simp] theorem setLong_hlt (s : State) (x : Acc) (v : Long) : (s.setLong x v).hlt = s.hlt := by cases x <;> rfl
@[simp] theorem setLong_prevk (s : State) (x : Acc) (v : Long) : (s.setLong x v).prevk = s.prevk := by cases x <;> rfl
@[simp] theorem setLong_intsm (s : State) (x : Acc) (v : Long) : (s.setLong x v).intsm = s.intsm := by cases x <;> rfl
@[simp] theorem setLong_xmem (s : State) (x : Acc) (v : Long) : (s.setLong x v).xmem = s.xmem := by cases x <;> rfl
@[simp] theorem setLong_ymem (s : State) (x : Acc) (v : Long) : (s.setLong x v).ymem = s.ymem := by cases x <;> rfl
@[simp] theorem setLong_imem (s : State) (x : Acc) (v : Long) : (s.setLong x v).imem = s.imem := by cases x <;> rfl
@[simp] theorem setLong_plat (s : State) (x : Acc) (v : Long) : (s.setLong x v).plat = s.plat := by cases x <;> rfl
@[simp] theorem setLong_events (s : State) (x : Acc) (v : Long) : (s.setLong x v).events = s.events := by cases x <;> rfl
@[simp] theorem setLong_irqOff (s : State) (x : Acc) (v : Long) : (s.setLong x v).irqOff = s.irqOff := by cases x <;> rfl
@[simp] theorem setLong_npc (s : State) (x : Acc) (v : Long) : (s.setLong x v).npc = s.npc := by cases x <;> rfl
@[simp] theorem setLong_xfer (s : State) (x : Acc) (v : Long) : (s.setLong x v).xfer = s.xfer := by cases x <;> rfl
@[simp] theorem setLong_pageOpen (s : State) (x : Acc) (v : Long) : (s.setLong x v).pageOpen = s.pageOpen := by cases x <;> rfl
@[simp] theorem setLong_sti1 (s : State) (x : Acc) (v : Long) : (s.setLong x v).sti1 = s.sti1 := by cases x <;> rfl
@[simp] theorem setLong_sti2 (s : State) (x : Acc) (v : Long) : (s.setLong x v).sti2 = s.sti2 := by cases x <;> rfl
@[simp] theorem setLong_memEpoch (s : State) (x : Acc) (v : Long) : (s.setLong x v).memEpoch = s.memEpoch := by cases x <;> rfl
@[simp] theorem setLong_freeCtr (s : State) (x : Acc) (v : Long) : (s.setLong x v).freeCtr = s.freeCtr := by cases x <;> rfl

/-! `setAReg`: the accumulators alone. -/

@[simp] theorem setAReg_p (s : State) (r : AReg) (v : Word) : (s.setAReg r v).p = s.p := by rcases r with x | x <;> cases x <;> rfl
@[simp] theorem setAReg_idx (s : State) (r : AReg) (v : Word) : (s.setAReg r v).idx = s.idx := by rcases r with x | x <;> cases x <;> rfl
@[simp] theorem setAReg_pc (s : State) (r : AReg) (v : Word) : (s.setAReg r v).pc = s.pc := by rcases r with x | x <;> cases x <;> rfl
@[simp] theorem setAReg_lr0 (s : State) (r : AReg) (v : Word) : (s.setAReg r v).lr0 = s.lr0 := by rcases r with x | x <;> cases x <;> rfl
@[simp] theorem setAReg_lr1 (s : State) (r : AReg) (v : Word) : (s.setAReg r v).lr1 = s.lr1 := by rcases r with x | x <;> cases x <;> rfl
@[simp] theorem setAReg_mr0 (s : State) (r : AReg) (v : Word) : (s.setAReg r v).mr0 = s.mr0 := by rcases r with x | x <;> cases x <;> rfl
@[simp] theorem setAReg_ipr0 (s : State) (r : AReg) (v : Word) : (s.setAReg r v).ipr0 = s.ipr0 := by rcases r with x | x <;> cases x <;> rfl
@[simp] theorem setAReg_ipr1 (s : State) (r : AReg) (v : Word) : (s.setAReg r v).ipr1 = s.ipr1 := by rcases r with x | x <;> cases x <;> rfl
@[simp] theorem setAReg_ls (s : State) (r : AReg) (v : Word) : (s.setAReg r v).ls = s.ls := by rcases r with x | x <;> cases x <;> rfl
@[simp] theorem setAReg_le (s : State) (r : AReg) (v : Word) : (s.setAReg r v).le = s.le := by rcases r with x | x <;> cases x <;> rfl
@[simp] theorem setAReg_lc (s : State) (r : AReg) (v : Word) : (s.setAReg r v).lc = s.lc := by rcases r with x | x <;> cases x <;> rfl
@[simp] theorem setAReg_ds (s : State) (r : AReg) (v : Word) : (s.setAReg r v).ds = s.ds := by rcases r with x | x <;> cases x <;> rfl
@[simp] theorem setAReg_lsup (s : State) (r : AReg) (v : Word) : (s.setAReg r v).lsup = s.lsup := by rcases r with x | x <;> cases x <;> rfl
@[simp] theorem setAReg_fprev (s : State) (r : AReg) (v : Word) : (s.setAReg r v).fprev = s.fprev := by rcases r with x | x <;> cases x <;> rfl
@[simp] theorem setAReg_pmode (s : State) (r : AReg) (v : Word) : (s.setAReg r v).pmode = s.pmode := by rcases r with x | x <;> cases x <;> rfl
@[simp] theorem setAReg_hlt (s : State) (r : AReg) (v : Word) : (s.setAReg r v).hlt = s.hlt := by rcases r with x | x <;> cases x <;> rfl
@[simp] theorem setAReg_prevk (s : State) (r : AReg) (v : Word) : (s.setAReg r v).prevk = s.prevk := by rcases r with x | x <;> cases x <;> rfl
@[simp] theorem setAReg_intsm (s : State) (r : AReg) (v : Word) : (s.setAReg r v).intsm = s.intsm := by rcases r with x | x <;> cases x <;> rfl
@[simp] theorem setAReg_xmem (s : State) (r : AReg) (v : Word) : (s.setAReg r v).xmem = s.xmem := by rcases r with x | x <;> cases x <;> rfl
@[simp] theorem setAReg_ymem (s : State) (r : AReg) (v : Word) : (s.setAReg r v).ymem = s.ymem := by rcases r with x | x <;> cases x <;> rfl
@[simp] theorem setAReg_imem (s : State) (r : AReg) (v : Word) : (s.setAReg r v).imem = s.imem := by rcases r with x | x <;> cases x <;> rfl
@[simp] theorem setAReg_plat (s : State) (r : AReg) (v : Word) : (s.setAReg r v).plat = s.plat := by rcases r with x | x <;> cases x <;> rfl
@[simp] theorem setAReg_events (s : State) (r : AReg) (v : Word) : (s.setAReg r v).events = s.events := by rcases r with x | x <;> cases x <;> rfl
@[simp] theorem setAReg_irqOff (s : State) (r : AReg) (v : Word) : (s.setAReg r v).irqOff = s.irqOff := by rcases r with x | x <;> cases x <;> rfl
@[simp] theorem setAReg_npc (s : State) (r : AReg) (v : Word) : (s.setAReg r v).npc = s.npc := by rcases r with x | x <;> cases x <;> rfl
@[simp] theorem setAReg_xfer (s : State) (r : AReg) (v : Word) : (s.setAReg r v).xfer = s.xfer := by rcases r with x | x <;> cases x <;> rfl
@[simp] theorem setAReg_pageOpen (s : State) (r : AReg) (v : Word) : (s.setAReg r v).pageOpen = s.pageOpen := by rcases r with x | x <;> cases x <;> rfl
@[simp] theorem setAReg_sti1 (s : State) (r : AReg) (v : Word) : (s.setAReg r v).sti1 = s.sti1 := by rcases r with x | x <;> cases x <;> rfl
@[simp] theorem setAReg_sti2 (s : State) (r : AReg) (v : Word) : (s.setAReg r v).sti2 = s.sti2 := by rcases r with x | x <;> cases x <;> rfl
@[simp] theorem setAReg_memEpoch (s : State) (r : AReg) (v : Word) : (s.setAReg r v).memEpoch = s.memEpoch := by rcases r with x | x <;> cases x <;> rfl
@[simp] theorem setAReg_freeCtr (s : State) (r : AReg) (v : Word) : (s.setAReg r v).freeCtr = s.freeCtr := by rcases r with x | x <;> cases x <;> rfl

/-! `setIndex`: the index registers alone. -/

@[simp] theorem setIndex_accA (s : State) (n : IReg) (v : Word) : (s.setIndex n v).accA = s.accA := rfl
@[simp] theorem setIndex_accB (s : State) (n : IReg) (v : Word) : (s.setIndex n v).accB = s.accB := rfl
@[simp] theorem setIndex_accC (s : State) (n : IReg) (v : Word) : (s.setIndex n v).accC = s.accC := rfl
@[simp] theorem setIndex_accD (s : State) (n : IReg) (v : Word) : (s.setIndex n v).accD = s.accD := rfl
@[simp] theorem setIndex_p (s : State) (n : IReg) (v : Word) : (s.setIndex n v).p = s.p := rfl
@[simp] theorem setIndex_pc (s : State) (n : IReg) (v : Word) : (s.setIndex n v).pc = s.pc := rfl
@[simp] theorem setIndex_lr0 (s : State) (n : IReg) (v : Word) : (s.setIndex n v).lr0 = s.lr0 := rfl
@[simp] theorem setIndex_lr1 (s : State) (n : IReg) (v : Word) : (s.setIndex n v).lr1 = s.lr1 := rfl
@[simp] theorem setIndex_mr0 (s : State) (n : IReg) (v : Word) : (s.setIndex n v).mr0 = s.mr0 := rfl
@[simp] theorem setIndex_ipr0 (s : State) (n : IReg) (v : Word) : (s.setIndex n v).ipr0 = s.ipr0 := rfl
@[simp] theorem setIndex_ipr1 (s : State) (n : IReg) (v : Word) : (s.setIndex n v).ipr1 = s.ipr1 := rfl
@[simp] theorem setIndex_ls (s : State) (n : IReg) (v : Word) : (s.setIndex n v).ls = s.ls := rfl
@[simp] theorem setIndex_le (s : State) (n : IReg) (v : Word) : (s.setIndex n v).le = s.le := rfl
@[simp] theorem setIndex_lc (s : State) (n : IReg) (v : Word) : (s.setIndex n v).lc = s.lc := rfl
@[simp] theorem setIndex_ds (s : State) (n : IReg) (v : Word) : (s.setIndex n v).ds = s.ds := rfl
@[simp] theorem setIndex_lsup (s : State) (n : IReg) (v : Word) : (s.setIndex n v).lsup = s.lsup := rfl
@[simp] theorem setIndex_fprev (s : State) (n : IReg) (v : Word) : (s.setIndex n v).fprev = s.fprev := rfl
@[simp] theorem setIndex_pmode (s : State) (n : IReg) (v : Word) : (s.setIndex n v).pmode = s.pmode := rfl
@[simp] theorem setIndex_hlt (s : State) (n : IReg) (v : Word) : (s.setIndex n v).hlt = s.hlt := rfl
@[simp] theorem setIndex_prevk (s : State) (n : IReg) (v : Word) : (s.setIndex n v).prevk = s.prevk := rfl
@[simp] theorem setIndex_intsm (s : State) (n : IReg) (v : Word) : (s.setIndex n v).intsm = s.intsm := rfl
@[simp] theorem setIndex_xmem (s : State) (n : IReg) (v : Word) : (s.setIndex n v).xmem = s.xmem := rfl
@[simp] theorem setIndex_ymem (s : State) (n : IReg) (v : Word) : (s.setIndex n v).ymem = s.ymem := rfl
@[simp] theorem setIndex_imem (s : State) (n : IReg) (v : Word) : (s.setIndex n v).imem = s.imem := rfl
@[simp] theorem setIndex_plat (s : State) (n : IReg) (v : Word) : (s.setIndex n v).plat = s.plat := rfl
@[simp] theorem setIndex_events (s : State) (n : IReg) (v : Word) : (s.setIndex n v).events = s.events := rfl
@[simp] theorem setIndex_irqOff (s : State) (n : IReg) (v : Word) : (s.setIndex n v).irqOff = s.irqOff := rfl
@[simp] theorem setIndex_npc (s : State) (n : IReg) (v : Word) : (s.setIndex n v).npc = s.npc := rfl
@[simp] theorem setIndex_xfer (s : State) (n : IReg) (v : Word) : (s.setIndex n v).xfer = s.xfer := rfl
@[simp] theorem setIndex_pageOpen (s : State) (n : IReg) (v : Word) : (s.setIndex n v).pageOpen = s.pageOpen := rfl
@[simp] theorem setIndex_sti1 (s : State) (n : IReg) (v : Word) : (s.setIndex n v).sti1 = s.sti1 := rfl
@[simp] theorem setIndex_sti2 (s : State) (n : IReg) (v : Word) : (s.setIndex n v).sti2 = s.sti2 := rfl
@[simp] theorem setIndex_memEpoch (s : State) (n : IReg) (v : Word) : (s.setIndex n v).memEpoch = s.memEpoch := rfl
@[simp] theorem setIndex_freeCtr (s : State) (n : IReg) (v : Word) : (s.setIndex n v).freeCtr = s.freeCtr := rfl

/-! `setIpr0`: IPR0 and the open page. -/

@[simp] theorem setIpr0_accA (s : State) (v : Word) : (s.setIpr0 v).accA = s.accA := by unfold setIpr0; split <;> rfl
@[simp] theorem setIpr0_accB (s : State) (v : Word) : (s.setIpr0 v).accB = s.accB := by unfold setIpr0; split <;> rfl
@[simp] theorem setIpr0_accC (s : State) (v : Word) : (s.setIpr0 v).accC = s.accC := by unfold setIpr0; split <;> rfl
@[simp] theorem setIpr0_accD (s : State) (v : Word) : (s.setIpr0 v).accD = s.accD := by unfold setIpr0; split <;> rfl
@[simp] theorem setIpr0_p (s : State) (v : Word) : (s.setIpr0 v).p = s.p := by unfold setIpr0; split <;> rfl
@[simp] theorem setIpr0_idx (s : State) (v : Word) : (s.setIpr0 v).idx = s.idx := by unfold setIpr0; split <;> rfl
@[simp] theorem setIpr0_pc (s : State) (v : Word) : (s.setIpr0 v).pc = s.pc := by unfold setIpr0; split <;> rfl
@[simp] theorem setIpr0_lr0 (s : State) (v : Word) : (s.setIpr0 v).lr0 = s.lr0 := by unfold setIpr0; split <;> rfl
@[simp] theorem setIpr0_lr1 (s : State) (v : Word) : (s.setIpr0 v).lr1 = s.lr1 := by unfold setIpr0; split <;> rfl
@[simp] theorem setIpr0_mr0 (s : State) (v : Word) : (s.setIpr0 v).mr0 = s.mr0 := by unfold setIpr0; split <;> rfl
@[simp] theorem setIpr0_ipr1 (s : State) (v : Word) : (s.setIpr0 v).ipr1 = s.ipr1 := by unfold setIpr0; split <;> rfl
@[simp] theorem setIpr0_ls (s : State) (v : Word) : (s.setIpr0 v).ls = s.ls := by unfold setIpr0; split <;> rfl
@[simp] theorem setIpr0_le (s : State) (v : Word) : (s.setIpr0 v).le = s.le := by unfold setIpr0; split <;> rfl
@[simp] theorem setIpr0_lc (s : State) (v : Word) : (s.setIpr0 v).lc = s.lc := by unfold setIpr0; split <;> rfl
@[simp] theorem setIpr0_ds (s : State) (v : Word) : (s.setIpr0 v).ds = s.ds := by unfold setIpr0; split <;> rfl
@[simp] theorem setIpr0_lsup (s : State) (v : Word) : (s.setIpr0 v).lsup = s.lsup := by unfold setIpr0; split <;> rfl
@[simp] theorem setIpr0_fprev (s : State) (v : Word) : (s.setIpr0 v).fprev = s.fprev := by unfold setIpr0; split <;> rfl
@[simp] theorem setIpr0_pmode (s : State) (v : Word) : (s.setIpr0 v).pmode = s.pmode := by unfold setIpr0; split <;> rfl
@[simp] theorem setIpr0_hlt (s : State) (v : Word) : (s.setIpr0 v).hlt = s.hlt := by unfold setIpr0; split <;> rfl
@[simp] theorem setIpr0_prevk (s : State) (v : Word) : (s.setIpr0 v).prevk = s.prevk := by unfold setIpr0; split <;> rfl
@[simp] theorem setIpr0_intsm (s : State) (v : Word) : (s.setIpr0 v).intsm = s.intsm := by unfold setIpr0; split <;> rfl
@[simp] theorem setIpr0_xmem (s : State) (v : Word) : (s.setIpr0 v).xmem = s.xmem := by unfold setIpr0; split <;> rfl
@[simp] theorem setIpr0_ymem (s : State) (v : Word) : (s.setIpr0 v).ymem = s.ymem := by unfold setIpr0; split <;> rfl
@[simp] theorem setIpr0_imem (s : State) (v : Word) : (s.setIpr0 v).imem = s.imem := by unfold setIpr0; split <;> rfl
@[simp] theorem setIpr0_plat (s : State) (v : Word) : (s.setIpr0 v).plat = s.plat := by unfold setIpr0; split <;> rfl
@[simp] theorem setIpr0_events (s : State) (v : Word) : (s.setIpr0 v).events = s.events := by unfold setIpr0; split <;> rfl
@[simp] theorem setIpr0_irqOff (s : State) (v : Word) : (s.setIpr0 v).irqOff = s.irqOff := by unfold setIpr0; split <;> rfl
@[simp] theorem setIpr0_npc (s : State) (v : Word) : (s.setIpr0 v).npc = s.npc := by unfold setIpr0; split <;> rfl
@[simp] theorem setIpr0_xfer (s : State) (v : Word) : (s.setIpr0 v).xfer = s.xfer := by unfold setIpr0; split <;> rfl
@[simp] theorem setIpr0_sti1 (s : State) (v : Word) : (s.setIpr0 v).sti1 = s.sti1 := by unfold setIpr0; split <;> rfl
@[simp] theorem setIpr0_sti2 (s : State) (v : Word) : (s.setIpr0 v).sti2 = s.sti2 := by unfold setIpr0; split <;> rfl
@[simp] theorem setIpr0_memEpoch (s : State) (v : Word) : (s.setIpr0 v).memEpoch = s.memEpoch := by unfold setIpr0; split <;> rfl
@[simp] theorem setIpr0_freeCtr (s : State) (v : Word) : (s.setIpr0 v).freeCtr = s.freeCtr := by unfold setIpr0; split <;> rfl

/-! `setData`: the data memories. -/

@[simp] theorem setData_accA (s : State) (b : Bus) (m : List Host.Cell) : (s.setData b m).accA = s.accA := by cases b <;> rfl
@[simp] theorem setData_accB (s : State) (b : Bus) (m : List Host.Cell) : (s.setData b m).accB = s.accB := by cases b <;> rfl
@[simp] theorem setData_accC (s : State) (b : Bus) (m : List Host.Cell) : (s.setData b m).accC = s.accC := by cases b <;> rfl
@[simp] theorem setData_accD (s : State) (b : Bus) (m : List Host.Cell) : (s.setData b m).accD = s.accD := by cases b <;> rfl
@[simp] theorem setData_p (s : State) (b : Bus) (m : List Host.Cell) : (s.setData b m).p = s.p := by cases b <;> rfl
@[simp] theorem setData_idx (s : State) (b : Bus) (m : List Host.Cell) : (s.setData b m).idx = s.idx := by cases b <;> rfl
@[simp] theorem setData_pc (s : State) (b : Bus) (m : List Host.Cell) : (s.setData b m).pc = s.pc := by cases b <;> rfl
@[simp] theorem setData_lr0 (s : State) (b : Bus) (m : List Host.Cell) : (s.setData b m).lr0 = s.lr0 := by cases b <;> rfl
@[simp] theorem setData_lr1 (s : State) (b : Bus) (m : List Host.Cell) : (s.setData b m).lr1 = s.lr1 := by cases b <;> rfl
@[simp] theorem setData_mr0 (s : State) (b : Bus) (m : List Host.Cell) : (s.setData b m).mr0 = s.mr0 := by cases b <;> rfl
@[simp] theorem setData_ipr0 (s : State) (b : Bus) (m : List Host.Cell) : (s.setData b m).ipr0 = s.ipr0 := by cases b <;> rfl
@[simp] theorem setData_ipr1 (s : State) (b : Bus) (m : List Host.Cell) : (s.setData b m).ipr1 = s.ipr1 := by cases b <;> rfl
@[simp] theorem setData_ls (s : State) (b : Bus) (m : List Host.Cell) : (s.setData b m).ls = s.ls := by cases b <;> rfl
@[simp] theorem setData_le (s : State) (b : Bus) (m : List Host.Cell) : (s.setData b m).le = s.le := by cases b <;> rfl
@[simp] theorem setData_lc (s : State) (b : Bus) (m : List Host.Cell) : (s.setData b m).lc = s.lc := by cases b <;> rfl
@[simp] theorem setData_ds (s : State) (b : Bus) (m : List Host.Cell) : (s.setData b m).ds = s.ds := by cases b <;> rfl
@[simp] theorem setData_lsup (s : State) (b : Bus) (m : List Host.Cell) : (s.setData b m).lsup = s.lsup := by cases b <;> rfl
@[simp] theorem setData_fprev (s : State) (b : Bus) (m : List Host.Cell) : (s.setData b m).fprev = s.fprev := by cases b <;> rfl
@[simp] theorem setData_pmode (s : State) (b : Bus) (m : List Host.Cell) : (s.setData b m).pmode = s.pmode := by cases b <;> rfl
@[simp] theorem setData_hlt (s : State) (b : Bus) (m : List Host.Cell) : (s.setData b m).hlt = s.hlt := by cases b <;> rfl
@[simp] theorem setData_prevk (s : State) (b : Bus) (m : List Host.Cell) : (s.setData b m).prevk = s.prevk := by cases b <;> rfl
@[simp] theorem setData_intsm (s : State) (b : Bus) (m : List Host.Cell) : (s.setData b m).intsm = s.intsm := by cases b <;> rfl
@[simp] theorem setData_imem (s : State) (b : Bus) (m : List Host.Cell) : (s.setData b m).imem = s.imem := by cases b <;> rfl
@[simp] theorem setData_plat (s : State) (b : Bus) (m : List Host.Cell) : (s.setData b m).plat = s.plat := by cases b <;> rfl
@[simp] theorem setData_events (s : State) (b : Bus) (m : List Host.Cell) : (s.setData b m).events = s.events := by cases b <;> rfl
@[simp] theorem setData_irqOff (s : State) (b : Bus) (m : List Host.Cell) : (s.setData b m).irqOff = s.irqOff := by cases b <;> rfl
@[simp] theorem setData_npc (s : State) (b : Bus) (m : List Host.Cell) : (s.setData b m).npc = s.npc := by cases b <;> rfl
@[simp] theorem setData_xfer (s : State) (b : Bus) (m : List Host.Cell) : (s.setData b m).xfer = s.xfer := by cases b <;> rfl
@[simp] theorem setData_pageOpen (s : State) (b : Bus) (m : List Host.Cell) : (s.setData b m).pageOpen = s.pageOpen := by cases b <;> rfl
@[simp] theorem setData_sti1 (s : State) (b : Bus) (m : List Host.Cell) : (s.setData b m).sti1 = s.sti1 := by cases b <;> rfl
@[simp] theorem setData_sti2 (s : State) (b : Bus) (m : List Host.Cell) : (s.setData b m).sti2 = s.sti2 := by cases b <;> rfl
@[simp] theorem setData_memEpoch (s : State) (b : Bus) (m : List Host.Cell) : (s.setData b m).memEpoch = s.memEpoch := by cases b <;> rfl
@[simp] theorem setData_freeCtr (s : State) (b : Bus) (m : List Host.Cell) : (s.setData b m).freeCtr = s.freeCtr := by cases b <;> rfl

/-! `noteEnable`: the peripheral's bit. -/

@[simp] theorem noteEnable_accA (s : State) (b : Bus) (k : Nat) : (s.noteEnable b k).accA = s.accA := by unfold noteEnable; split <;> rfl
@[simp] theorem noteEnable_accB (s : State) (b : Bus) (k : Nat) : (s.noteEnable b k).accB = s.accB := by unfold noteEnable; split <;> rfl
@[simp] theorem noteEnable_accC (s : State) (b : Bus) (k : Nat) : (s.noteEnable b k).accC = s.accC := by unfold noteEnable; split <;> rfl
@[simp] theorem noteEnable_accD (s : State) (b : Bus) (k : Nat) : (s.noteEnable b k).accD = s.accD := by unfold noteEnable; split <;> rfl
@[simp] theorem noteEnable_p (s : State) (b : Bus) (k : Nat) : (s.noteEnable b k).p = s.p := by unfold noteEnable; split <;> rfl
@[simp] theorem noteEnable_idx (s : State) (b : Bus) (k : Nat) : (s.noteEnable b k).idx = s.idx := by unfold noteEnable; split <;> rfl
@[simp] theorem noteEnable_pc (s : State) (b : Bus) (k : Nat) : (s.noteEnable b k).pc = s.pc := by unfold noteEnable; split <;> rfl
@[simp] theorem noteEnable_lr0 (s : State) (b : Bus) (k : Nat) : (s.noteEnable b k).lr0 = s.lr0 := by unfold noteEnable; split <;> rfl
@[simp] theorem noteEnable_lr1 (s : State) (b : Bus) (k : Nat) : (s.noteEnable b k).lr1 = s.lr1 := by unfold noteEnable; split <;> rfl
@[simp] theorem noteEnable_mr0 (s : State) (b : Bus) (k : Nat) : (s.noteEnable b k).mr0 = s.mr0 := by unfold noteEnable; split <;> rfl
@[simp] theorem noteEnable_ipr0 (s : State) (b : Bus) (k : Nat) : (s.noteEnable b k).ipr0 = s.ipr0 := by unfold noteEnable; split <;> rfl
@[simp] theorem noteEnable_ipr1 (s : State) (b : Bus) (k : Nat) : (s.noteEnable b k).ipr1 = s.ipr1 := by unfold noteEnable; split <;> rfl
@[simp] theorem noteEnable_ls (s : State) (b : Bus) (k : Nat) : (s.noteEnable b k).ls = s.ls := by unfold noteEnable; split <;> rfl
@[simp] theorem noteEnable_le (s : State) (b : Bus) (k : Nat) : (s.noteEnable b k).le = s.le := by unfold noteEnable; split <;> rfl
@[simp] theorem noteEnable_lc (s : State) (b : Bus) (k : Nat) : (s.noteEnable b k).lc = s.lc := by unfold noteEnable; split <;> rfl
@[simp] theorem noteEnable_ds (s : State) (b : Bus) (k : Nat) : (s.noteEnable b k).ds = s.ds := by unfold noteEnable; split <;> rfl
@[simp] theorem noteEnable_lsup (s : State) (b : Bus) (k : Nat) : (s.noteEnable b k).lsup = s.lsup := by unfold noteEnable; split <;> rfl
@[simp] theorem noteEnable_fprev (s : State) (b : Bus) (k : Nat) : (s.noteEnable b k).fprev = s.fprev := by unfold noteEnable; split <;> rfl
@[simp] theorem noteEnable_pmode (s : State) (b : Bus) (k : Nat) : (s.noteEnable b k).pmode = s.pmode := by unfold noteEnable; split <;> rfl
@[simp] theorem noteEnable_hlt (s : State) (b : Bus) (k : Nat) : (s.noteEnable b k).hlt = s.hlt := by unfold noteEnable; split <;> rfl
@[simp] theorem noteEnable_prevk (s : State) (b : Bus) (k : Nat) : (s.noteEnable b k).prevk = s.prevk := by unfold noteEnable; split <;> rfl
@[simp] theorem noteEnable_intsm (s : State) (b : Bus) (k : Nat) : (s.noteEnable b k).intsm = s.intsm := by unfold noteEnable; split <;> rfl
@[simp] theorem noteEnable_xmem (s : State) (b : Bus) (k : Nat) : (s.noteEnable b k).xmem = s.xmem := by unfold noteEnable; split <;> rfl
@[simp] theorem noteEnable_ymem (s : State) (b : Bus) (k : Nat) : (s.noteEnable b k).ymem = s.ymem := by unfold noteEnable; split <;> rfl
@[simp] theorem noteEnable_imem (s : State) (b : Bus) (k : Nat) : (s.noteEnable b k).imem = s.imem := by unfold noteEnable; split <;> rfl
@[simp] theorem noteEnable_plat (s : State) (b : Bus) (k : Nat) : (s.noteEnable b k).plat = s.plat := by unfold noteEnable; split <;> rfl
@[simp] theorem noteEnable_events (s : State) (b : Bus) (k : Nat) : (s.noteEnable b k).events = s.events := by unfold noteEnable; split <;> rfl
@[simp] theorem noteEnable_npc (s : State) (b : Bus) (k : Nat) : (s.noteEnable b k).npc = s.npc := by unfold noteEnable; split <;> rfl
@[simp] theorem noteEnable_xfer (s : State) (b : Bus) (k : Nat) : (s.noteEnable b k).xfer = s.xfer := by unfold noteEnable; split <;> rfl
@[simp] theorem noteEnable_pageOpen (s : State) (b : Bus) (k : Nat) : (s.noteEnable b k).pageOpen = s.pageOpen := by unfold noteEnable; split <;> rfl
@[simp] theorem noteEnable_sti1 (s : State) (b : Bus) (k : Nat) : (s.noteEnable b k).sti1 = s.sti1 := by unfold noteEnable; split <;> rfl
@[simp] theorem noteEnable_sti2 (s : State) (b : Bus) (k : Nat) : (s.noteEnable b k).sti2 = s.sti2 := by unfold noteEnable; split <;> rfl
@[simp] theorem noteEnable_memEpoch (s : State) (b : Bus) (k : Nat) : (s.noteEnable b k).memEpoch = s.memEpoch := by unfold noteEnable; split <;> rfl
@[simp] theorem noteEnable_freeCtr (s : State) (b : Bus) (k : Nat) : (s.noteEnable b k).freeCtr = s.freeCtr := by unfold noteEnable; split <;> rfl

/-! `storeData`: a data memory and the bit. -/

@[simp] theorem storeData_accA (s : State) (b : Bus) (k : Nat) (v : Word) : (s.storeData b k v).accA = s.accA := by unfold storeData; split <;> simp
@[simp] theorem storeData_accB (s : State) (b : Bus) (k : Nat) (v : Word) : (s.storeData b k v).accB = s.accB := by unfold storeData; split <;> simp
@[simp] theorem storeData_accC (s : State) (b : Bus) (k : Nat) (v : Word) : (s.storeData b k v).accC = s.accC := by unfold storeData; split <;> simp
@[simp] theorem storeData_accD (s : State) (b : Bus) (k : Nat) (v : Word) : (s.storeData b k v).accD = s.accD := by unfold storeData; split <;> simp
@[simp] theorem storeData_p (s : State) (b : Bus) (k : Nat) (v : Word) : (s.storeData b k v).p = s.p := by unfold storeData; split <;> simp
@[simp] theorem storeData_idx (s : State) (b : Bus) (k : Nat) (v : Word) : (s.storeData b k v).idx = s.idx := by unfold storeData; split <;> simp
@[simp] theorem storeData_pc (s : State) (b : Bus) (k : Nat) (v : Word) : (s.storeData b k v).pc = s.pc := by unfold storeData; split <;> simp
@[simp] theorem storeData_lr0 (s : State) (b : Bus) (k : Nat) (v : Word) : (s.storeData b k v).lr0 = s.lr0 := by unfold storeData; split <;> simp
@[simp] theorem storeData_lr1 (s : State) (b : Bus) (k : Nat) (v : Word) : (s.storeData b k v).lr1 = s.lr1 := by unfold storeData; split <;> simp
@[simp] theorem storeData_mr0 (s : State) (b : Bus) (k : Nat) (v : Word) : (s.storeData b k v).mr0 = s.mr0 := by unfold storeData; split <;> simp
@[simp] theorem storeData_ipr0 (s : State) (b : Bus) (k : Nat) (v : Word) : (s.storeData b k v).ipr0 = s.ipr0 := by unfold storeData; split <;> simp
@[simp] theorem storeData_ipr1 (s : State) (b : Bus) (k : Nat) (v : Word) : (s.storeData b k v).ipr1 = s.ipr1 := by unfold storeData; split <;> simp
@[simp] theorem storeData_ls (s : State) (b : Bus) (k : Nat) (v : Word) : (s.storeData b k v).ls = s.ls := by unfold storeData; split <;> simp
@[simp] theorem storeData_le (s : State) (b : Bus) (k : Nat) (v : Word) : (s.storeData b k v).le = s.le := by unfold storeData; split <;> simp
@[simp] theorem storeData_lc (s : State) (b : Bus) (k : Nat) (v : Word) : (s.storeData b k v).lc = s.lc := by unfold storeData; split <;> simp
@[simp] theorem storeData_ds (s : State) (b : Bus) (k : Nat) (v : Word) : (s.storeData b k v).ds = s.ds := by unfold storeData; split <;> simp
@[simp] theorem storeData_lsup (s : State) (b : Bus) (k : Nat) (v : Word) : (s.storeData b k v).lsup = s.lsup := by unfold storeData; split <;> simp
@[simp] theorem storeData_fprev (s : State) (b : Bus) (k : Nat) (v : Word) : (s.storeData b k v).fprev = s.fprev := by unfold storeData; split <;> simp
@[simp] theorem storeData_pmode (s : State) (b : Bus) (k : Nat) (v : Word) : (s.storeData b k v).pmode = s.pmode := by unfold storeData; split <;> simp
@[simp] theorem storeData_hlt (s : State) (b : Bus) (k : Nat) (v : Word) : (s.storeData b k v).hlt = s.hlt := by unfold storeData; split <;> simp
@[simp] theorem storeData_prevk (s : State) (b : Bus) (k : Nat) (v : Word) : (s.storeData b k v).prevk = s.prevk := by unfold storeData; split <;> simp
@[simp] theorem storeData_intsm (s : State) (b : Bus) (k : Nat) (v : Word) : (s.storeData b k v).intsm = s.intsm := by unfold storeData; split <;> simp
@[simp] theorem storeData_imem (s : State) (b : Bus) (k : Nat) (v : Word) : (s.storeData b k v).imem = s.imem := by unfold storeData; split <;> simp
@[simp] theorem storeData_plat (s : State) (b : Bus) (k : Nat) (v : Word) : (s.storeData b k v).plat = s.plat := by unfold storeData; split <;> simp
@[simp] theorem storeData_events (s : State) (b : Bus) (k : Nat) (v : Word) : (s.storeData b k v).events = s.events := by unfold storeData; split <;> simp
@[simp] theorem storeData_npc (s : State) (b : Bus) (k : Nat) (v : Word) : (s.storeData b k v).npc = s.npc := by unfold storeData; split <;> simp
@[simp] theorem storeData_xfer (s : State) (b : Bus) (k : Nat) (v : Word) : (s.storeData b k v).xfer = s.xfer := by unfold storeData; split <;> simp
@[simp] theorem storeData_pageOpen (s : State) (b : Bus) (k : Nat) (v : Word) : (s.storeData b k v).pageOpen = s.pageOpen := by unfold storeData; split <;> simp
@[simp] theorem storeData_sti1 (s : State) (b : Bus) (k : Nat) (v : Word) : (s.storeData b k v).sti1 = s.sti1 := by unfold storeData; split <;> simp
@[simp] theorem storeData_sti2 (s : State) (b : Bus) (k : Nat) (v : Word) : (s.storeData b k v).sti2 = s.sti2 := by unfold storeData; split <;> simp
@[simp] theorem storeData_memEpoch (s : State) (b : Bus) (k : Nat) (v : Word) : (s.storeData b k v).memEpoch = s.memEpoch := by unfold storeData; split <;> simp
@[simp] theorem storeData_freeCtr (s : State) (b : Bus) (k : Nat) (v : Word) : (s.storeData b k v).freeCtr = s.freeCtr := by unfold storeData; split <;> simp

/-! `storeCode`: instruction memory and the STI mark. -/

@[simp] theorem storeCode_accA (s : State) (a v : Code) : (s.storeCode a v).accA = s.accA := by unfold storeCode; split <;> rfl
@[simp] theorem storeCode_accB (s : State) (a v : Code) : (s.storeCode a v).accB = s.accB := by unfold storeCode; split <;> rfl
@[simp] theorem storeCode_accC (s : State) (a v : Code) : (s.storeCode a v).accC = s.accC := by unfold storeCode; split <;> rfl
@[simp] theorem storeCode_accD (s : State) (a v : Code) : (s.storeCode a v).accD = s.accD := by unfold storeCode; split <;> rfl
@[simp] theorem storeCode_p (s : State) (a v : Code) : (s.storeCode a v).p = s.p := by unfold storeCode; split <;> rfl
@[simp] theorem storeCode_idx (s : State) (a v : Code) : (s.storeCode a v).idx = s.idx := by unfold storeCode; split <;> rfl
@[simp] theorem storeCode_pc (s : State) (a v : Code) : (s.storeCode a v).pc = s.pc := by unfold storeCode; split <;> rfl
@[simp] theorem storeCode_lr0 (s : State) (a v : Code) : (s.storeCode a v).lr0 = s.lr0 := by unfold storeCode; split <;> rfl
@[simp] theorem storeCode_lr1 (s : State) (a v : Code) : (s.storeCode a v).lr1 = s.lr1 := by unfold storeCode; split <;> rfl
@[simp] theorem storeCode_mr0 (s : State) (a v : Code) : (s.storeCode a v).mr0 = s.mr0 := by unfold storeCode; split <;> rfl
@[simp] theorem storeCode_ipr0 (s : State) (a v : Code) : (s.storeCode a v).ipr0 = s.ipr0 := by unfold storeCode; split <;> rfl
@[simp] theorem storeCode_ipr1 (s : State) (a v : Code) : (s.storeCode a v).ipr1 = s.ipr1 := by unfold storeCode; split <;> rfl
@[simp] theorem storeCode_ls (s : State) (a v : Code) : (s.storeCode a v).ls = s.ls := by unfold storeCode; split <;> rfl
@[simp] theorem storeCode_le (s : State) (a v : Code) : (s.storeCode a v).le = s.le := by unfold storeCode; split <;> rfl
@[simp] theorem storeCode_lc (s : State) (a v : Code) : (s.storeCode a v).lc = s.lc := by unfold storeCode; split <;> rfl
@[simp] theorem storeCode_ds (s : State) (a v : Code) : (s.storeCode a v).ds = s.ds := by unfold storeCode; split <;> rfl
@[simp] theorem storeCode_lsup (s : State) (a v : Code) : (s.storeCode a v).lsup = s.lsup := by unfold storeCode; split <;> rfl
@[simp] theorem storeCode_fprev (s : State) (a v : Code) : (s.storeCode a v).fprev = s.fprev := by unfold storeCode; split <;> rfl
@[simp] theorem storeCode_pmode (s : State) (a v : Code) : (s.storeCode a v).pmode = s.pmode := by unfold storeCode; split <;> rfl
@[simp] theorem storeCode_hlt (s : State) (a v : Code) : (s.storeCode a v).hlt = s.hlt := by unfold storeCode; split <;> rfl
@[simp] theorem storeCode_prevk (s : State) (a v : Code) : (s.storeCode a v).prevk = s.prevk := by unfold storeCode; split <;> rfl
@[simp] theorem storeCode_intsm (s : State) (a v : Code) : (s.storeCode a v).intsm = s.intsm := by unfold storeCode; split <;> rfl
@[simp] theorem storeCode_xmem (s : State) (a v : Code) : (s.storeCode a v).xmem = s.xmem := by unfold storeCode; split <;> rfl
@[simp] theorem storeCode_ymem (s : State) (a v : Code) : (s.storeCode a v).ymem = s.ymem := by unfold storeCode; split <;> rfl
@[simp] theorem storeCode_plat (s : State) (a v : Code) : (s.storeCode a v).plat = s.plat := by unfold storeCode; split <;> rfl
@[simp] theorem storeCode_events (s : State) (a v : Code) : (s.storeCode a v).events = s.events := by unfold storeCode; split <;> rfl
@[simp] theorem storeCode_irqOff (s : State) (a v : Code) : (s.storeCode a v).irqOff = s.irqOff := by unfold storeCode; split <;> rfl
@[simp] theorem storeCode_npc (s : State) (a v : Code) : (s.storeCode a v).npc = s.npc := by unfold storeCode; split <;> rfl
@[simp] theorem storeCode_xfer (s : State) (a v : Code) : (s.storeCode a v).xfer = s.xfer := by unfold storeCode; split <;> rfl
@[simp] theorem storeCode_pageOpen (s : State) (a v : Code) : (s.storeCode a v).pageOpen = s.pageOpen := by unfold storeCode; split <;> rfl
@[simp] theorem storeCode_sti2 (s : State) (a v : Code) : (s.storeCode a v).sti2 = s.sti2 := by unfold storeCode; split <;> rfl
@[simp] theorem storeCode_memEpoch (s : State) (a v : Code) : (s.storeCode a v).memEpoch = s.memEpoch := by unfold storeCode; split <;> rfl
@[simp] theorem storeCode_freeCtr (s : State) (a v : Code) : (s.storeCode a v).freeCtr = s.freeCtr := by unfold storeCode; split <;> rfl

/-! `writeReg`: what a move code can name. -/

@[simp] theorem writeReg_p (s : State) (r : MoveReg) (v : Word) : (s.writeReg r v).p = s.p := by cases r <;> simp [writeReg]
@[simp] theorem writeReg_pc (s : State) (r : MoveReg) (v : Word) : (s.writeReg r v).pc = s.pc := by cases r <;> simp [writeReg]
@[simp] theorem writeReg_ds (s : State) (r : MoveReg) (v : Word) : (s.writeReg r v).ds = s.ds := by cases r <;> simp [writeReg]
@[simp] theorem writeReg_lsup (s : State) (r : MoveReg) (v : Word) : (s.writeReg r v).lsup = s.lsup := by cases r <;> simp [writeReg]
@[simp] theorem writeReg_fprev (s : State) (r : MoveReg) (v : Word) : (s.writeReg r v).fprev = s.fprev := by cases r <;> simp [writeReg]
@[simp] theorem writeReg_pmode (s : State) (r : MoveReg) (v : Word) : (s.writeReg r v).pmode = s.pmode := by cases r <;> simp [writeReg]
@[simp] theorem writeReg_hlt (s : State) (r : MoveReg) (v : Word) : (s.writeReg r v).hlt = s.hlt := by cases r <;> simp [writeReg]
@[simp] theorem writeReg_prevk (s : State) (r : MoveReg) (v : Word) : (s.writeReg r v).prevk = s.prevk := by cases r <;> simp [writeReg]
@[simp] theorem writeReg_intsm (s : State) (r : MoveReg) (v : Word) : (s.writeReg r v).intsm = s.intsm := by cases r <;> simp [writeReg]
@[simp] theorem writeReg_xmem (s : State) (r : MoveReg) (v : Word) : (s.writeReg r v).xmem = s.xmem := by cases r <;> simp [writeReg]
@[simp] theorem writeReg_ymem (s : State) (r : MoveReg) (v : Word) : (s.writeReg r v).ymem = s.ymem := by cases r <;> simp [writeReg]
@[simp] theorem writeReg_imem (s : State) (r : MoveReg) (v : Word) : (s.writeReg r v).imem = s.imem := by cases r <;> simp [writeReg]
@[simp] theorem writeReg_plat (s : State) (r : MoveReg) (v : Word) : (s.writeReg r v).plat = s.plat := by cases r <;> simp [writeReg]
@[simp] theorem writeReg_events (s : State) (r : MoveReg) (v : Word) : (s.writeReg r v).events = s.events := by cases r <;> simp [writeReg]
@[simp] theorem writeReg_irqOff (s : State) (r : MoveReg) (v : Word) : (s.writeReg r v).irqOff = s.irqOff := by cases r <;> simp [writeReg]
@[simp] theorem writeReg_npc (s : State) (r : MoveReg) (v : Word) : (s.writeReg r v).npc = s.npc := by cases r <;> simp [writeReg]
@[simp] theorem writeReg_xfer (s : State) (r : MoveReg) (v : Word) : (s.writeReg r v).xfer = s.xfer := by cases r <;> simp [writeReg]
@[simp] theorem writeReg_sti1 (s : State) (r : MoveReg) (v : Word) : (s.writeReg r v).sti1 = s.sti1 := by cases r <;> simp [writeReg]
@[simp] theorem writeReg_sti2 (s : State) (r : MoveReg) (v : Word) : (s.writeReg r v).sti2 = s.sti2 := by cases r <;> simp [writeReg]
@[simp] theorem writeReg_memEpoch (s : State) (r : MoveReg) (v : Word) : (s.writeReg r v).memEpoch = s.memEpoch := by cases r <;> simp [writeReg]
@[simp] theorem writeReg_freeCtr (s : State) (r : MoveReg) (v : Word) : (s.writeReg r v).freeCtr = s.freeCtr := by cases r <;> simp [writeReg]

/-! What the updates write. -/

@[simp] theorem acc_setAcc_same (s : State) (x : Acc) (v : Accum) : (s.setAcc x v).acc x = v := by
  cases x <;> rfl

theorem acc_setAcc_other (s : State) (x y : Acc) (v : Accum) (h : y ≠ x) :
    (s.setAcc x v).acc y = s.acc y := by
  cases x <;> cases y <;> first | rfl | exact absurd rfl h

@[simp] theorem acc_setIndex (s : State) (n : IReg) (v : Word) (x : Acc) :
    (s.setIndex n v).acc x = s.acc x := by cases x <;> rfl

@[simp] theorem index_setAcc (s : State) (x : Acc) (v : Accum) (n : IReg) :
    (s.setAcc x v).index n = s.index n := by cases x <;> rfl

@[simp] theorem index_setIndex_same (s : State) (n : IReg) (v : Word) :
    (s.setIndex n v).index n = v := by simp [setIndex, index]

theorem index_setIndex_other (s : State) (n m : IReg) (v : Word) (h : m ≠ n) :
    (s.setIndex n v).index m = s.index m := by
  have h' : n.val ≠ m.val := fun e => h (Fin.ext e.symm)
  simp [setIndex, index, h']

/-- Two states with the same accumulators read the same. -/
theorem acc_congr (s t : State) (ha : t.accA = s.accA) (hb : t.accB = s.accB)
    (hc : t.accC = s.accC) (hd : t.accD = s.accD) (x : Acc) : t.acc x = s.acc x := by
  cases x <;> simp [acc, ha, hb, hc, hd]

/-- Two states with the same index registers read the same. -/
theorem index_congr (s t : State) (h : t.idx = s.idx) (n : IReg) : t.index n = s.index n := by
  simp [index, h]

@[simp] theorem acc_storeData (s : State) (b : Bus) (k : Nat) (v : Word) (x : Acc) :
    (s.storeData b k v).acc x = s.acc x := acc_congr _ _ (by simp) (by simp) (by simp) (by simp) x

@[simp] theorem acc_storeCode (s : State) (a v : Code) (x : Acc) :
    (s.storeCode a v).acc x = s.acc x := acc_congr _ _ (by simp) (by simp) (by simp) (by simp) x

@[simp] theorem acc_setIpr0 (s : State) (v : Word) (x : Acc) :
    (s.setIpr0 v).acc x = s.acc x := acc_congr _ _ (by simp) (by simp) (by simp) (by simp) x

@[simp] theorem index_storeData (s : State) (b : Bus) (k : Nat) (v : Word) (n : IReg) :
    (s.storeData b k v).index n = s.index n := index_congr _ _ (by simp) n

@[simp] theorem index_storeCode (s : State) (a v : Code) (n : IReg) :
    (s.storeCode a v).index n = s.index n := index_congr _ _ (by simp) n

@[simp] theorem index_setIpr0 (s : State) (v : Word) (n : IReg) :
    (s.setIpr0 v).index n = s.index n := index_congr _ _ (by simp) n

/-- Free values depend on the counter alone. -/
theorem free_congr (s t : State) (h : t.freeCtr = s.freeCtr) (site : Site) (w : Nat) :
    t.free site w = s.free site w := by
  simp [free, h]

/-- Free bits depend on the counter alone. -/
theorem freeBit_congr (s t : State) (h : t.freeCtr = s.freeCtr) (site : Site) :
    t.freeBit site = s.freeBit site := by
  simp [freeBit, h]

/-- The kind of an address depends on the platform alone. -/
theorem kindAt_congr (s t : State) (h : t.plat = s.plat) (sp : Space) (a : Nat) :
    t.kindAt sp a = s.kindAt sp a := by
  simp [kindAt, h]

end State

end Sys2Proof.Machine
end

