-- ==== Sys2Proof/Laws/Memory.lean ====
section
/-! SUPPORT. Reading after writing, and the canonical form of memory. -/

namespace Sys2Proof.Machine

theorem Memory.get_set_same (m : List Host.Cell) (a : Nat) (v : Byte) :
    Memory.get (Memory.set m a v) a = some v := by
  induction m with
  | nil => simp [Memory.set, Memory.get]
  | cons c m ih =>
    obtain ⟨b, x⟩ := c
    simp only [Memory.set]
    split
    · simp [Memory.get]
    · split
      · simp [Memory.get]
      · next h1 h2 => simp [Memory.get, h2, ih]

theorem Memory.get_set_other (m : List Host.Cell) (a k : Nat) (v : Byte) (h : k ≠ a) :
    Memory.get (Memory.set m a v) k = Memory.get m k := by
  induction m with
  | nil => simp [Memory.set, Memory.get, h]
  | cons c m ih =>
    obtain ⟨b, x⟩ := c
    simp only [Memory.set]
    split
    · simp [Memory.get, h]
    · split
      · next h2 => subst h2; simp [Memory.get, h]
      · simp only [Memory.get, ih]

/-- Every listed address of a canonical memory that starts above `a` is above `a`. -/
theorem Memory.wf_cons_set (b : Nat) (x : Byte) (m : List Host.Cell) (a : Nat) (v : Byte)
    (h : Memory.wf ((b, x) :: m) = true) (hab : b < a) (ih : Memory.wf (Memory.set m a v) = true) :
    Memory.wf ((b, x) :: Memory.set m a v) = true := by
  cases m with
  | nil => simp [Memory.set, Memory.wf, hab]
  | cons c m =>
    obtain ⟨d, y⟩ := c
    simp only [Memory.set] at ih ⊢
    split at ih
    · rename_i hd
      simp only [hd, if_true, Memory.wf, Bool.and_eq_true, decide_eq_true_eq] at *
      exact ⟨hab, ih⟩
    · split at ih
      · rename_i hd he
        simp only [he, if_true, Memory.wf, Bool.and_eq_true, decide_eq_true_eq] at *
        simp only [Nat.lt_irrefl, if_false]
        cases m with
        | nil => simp [Memory.wf, hab]
        | cons e m => obtain ⟨f, z⟩ := e; simp_all [Memory.wf]
      · rename_i hd he
        simp only [hd, he, if_false, Memory.wf, Bool.and_eq_true, decide_eq_true_eq] at *
        exact ⟨h.1, ih⟩

theorem Memory.set_wf (m : List Host.Cell) (a : Nat) (v : Byte) (h : Memory.wf m = true) :
    Memory.wf (Memory.set m a v) = true := by
  induction m with
  | nil => rfl
  | cons c m ih =>
    obtain ⟨b, x⟩ := c
    have htail : Memory.wf m = true := by
      cases m with
      | nil => rfl
      | cons d m => simp only [Memory.wf, Bool.and_eq_true] at h; exact h.2
    by_cases h1 : a < b
    · simp only [Memory.set, h1, if_true]
      simp only [Memory.wf, h1, decide_true, Bool.true_and]; exact h
    · by_cases h2 : a = b
      · subst h2
        simp only [Memory.set, Nat.lt_irrefl, if_false, if_true]
        cases m with
        | nil => rfl
        | cons d m => simpa [Memory.wf] using h
      · simp only [Memory.set, h1, h2, if_false]
        exact Memory.wf_cons_set b x m a v h (by omega) (ih htail)

theorem Memory.set16_wf (m : List Host.Cell) (a : Nat) (v : Word) (h : Memory.wf m = true) :
    Memory.wf (Memory.set16 m a v) = true :=
  Memory.set_wf _ _ _ (Memory.set_wf _ _ _ h)

theorem Memory.set32_wf (m : List Host.Cell) (a : Nat) (v : Code) (h : Memory.wf m = true) :
    Memory.wf (Memory.set32 m a v) = true :=
  Memory.set_wf _ _ _ (Memory.set_wf _ _ _ (Memory.set_wf _ _ _ (Memory.set_wf _ _ _ h)))

/-- A 16-bit write leaves every cell of another word alone. -/
theorem Memory.get_set16_other (m : List Host.Cell) (a k : Nat) (v : Word) (h : k / 2 ≠ a) :
    Memory.get (Memory.set16 m a v) k = Memory.get m k := by
  unfold Memory.set16
  rw [Memory.get_set_other _ _ _ _ (by omega), Memory.get_set_other _ _ _ _ (by omega)]

/-- A 32-bit write leaves every cell of another word alone. -/
theorem Memory.get_set32_other (m : List Host.Cell) (a k : Nat) (v : Code) (h : k / 4 ≠ a) :
    Memory.get (Memory.set32 m a v) k = Memory.get m k := by
  unfold Memory.set32
  rw [Memory.get_set_other _ _ _ _ (by omega), Memory.get_set_other _ _ _ _ (by omega),
    Memory.get_set_other _ _ _ _ (by omega), Memory.get_set_other _ _ _ _ (by omega)]

/-- The two cells of a word just written. -/
theorem Memory.get_set16_low (m : List Host.Cell) (a : Nat) (v : Word) :
    Memory.get (Memory.set16 m a v) (2 * a) = some (v.extractLsb' 0 8) := by
  unfold Memory.set16
  rw [Memory.get_set_other _ _ _ _ (by omega), Memory.get_set_same]

theorem Memory.get_set16_high (m : List Host.Cell) (a : Nat) (v : Word) :
    Memory.get (Memory.set16 m a v) (2 * a + 1) = some (v.extractLsb' 8 8) :=
  Memory.get_set_same _ _ _

/-- A cell of memory as a read sees it depends on the memory and the epoch alone. -/
theorem State.byteAt_congr (s t : State) (sp : Space) (k : Nat) (he : t.memEpoch = s.memEpoch)
    (h : Memory.get (t.mem sp) k = Memory.get (s.mem sp) k) : t.byteAt sp k = s.byteAt sp k := by
  simp [State.byteAt, h, he]

@[simp] theorem State.mem_noteEnable (s : State) (b : Bus) (k : Nat) (sp : Space) :
    (s.noteEnable b k).mem sp = s.mem sp := by cases sp <;> simp [State.mem]

@[simp] theorem State.mem_setData_same (s : State) (b : Bus) (m : List Host.Cell) :
    (s.setData b m).mem b.space = m := by cases b <;> rfl

theorem State.mem_setData_other (s : State) (b : Bus) (m : List Host.Cell) (sp : Space)
    (h : sp ≠ b.space) : (s.setData b m).mem sp = s.mem sp := by
  cases b <;> cases sp <;> first | rfl | exact absurd rfl h

/-- What a data store leaves in the memory it goes to. -/
theorem State.storeData_mem_same (s : State) (b : Bus) (key : Nat) (v : Word) :
    (s.storeData b key v).mem b.space =
      match s.kindAt b.space key with
      | .ram | .rom => Memory.set16 (s.mem b.space) key v
      | .device => s.mem b.space
      | .absent => s.mem b.space := by
  unfold State.storeData
  cases s.kindAt b.space key <;> simp

theorem State.storeData_mem_other (s : State) (b : Bus) (key : Nat) (v : Word) (sp : Space)
    (h : sp ≠ b.space) : (s.storeData b key v).mem sp = s.mem sp := by
  unfold State.storeData
  split <;> simp [State.mem_setData_other, h]

/-- What a data store does to memory, whatever the kind of the address: every cell of another word
or another space reads as before. -/
theorem State.storeData_byteAt (s : State) (b : Bus) (key : Nat) (v : Word) (sp : Space) (k : Nat)
    (h : sp = b.space → k / 2 ≠ key) : (s.storeData b key v).byteAt sp k = s.byteAt sp k := by
  apply State.byteAt_congr
  · simp
  · by_cases hs : sp = b.space
    · subst hs
      rw [State.storeData_mem_same]
      split <;> simp [Memory.get_set16_other _ _ _ _ (h rfl)]
    · rw [State.storeData_mem_other _ _ _ _ _ hs]

/-- What a store of STI does to memory: every cell of another word or space reads as before. -/
theorem State.storeCode_byteAt (s : State) (addr v : Code) (sp : Space) (k : Nat)
    (h : sp = .i → k / 4 ≠ addr.toNat) : (s.storeCode addr v).byteAt sp k = s.byteAt sp k := by
  apply State.byteAt_congr
  · simp
  · unfold State.storeCode
    split <;> (cases sp <;> simp_all [State.mem, Memory.get_set32_other])

/-- A store to RAM or ROM is read back whole. -/
theorem State.storeData_word16 (s : State) (b : Bus) (key : Nat) (v : Word)
    (h : s.kindAt b.space key = .ram ∨ s.kindAt b.space key = .rom) :
    (s.storeData b key v).word16 b.space key = v := by
  have hm : (s.storeData b key v).mem b.space = Memory.set16 (s.mem b.space) key v := by
    rcases h with h | h <;> rw [State.storeData_mem_same, h]
  simp only [State.word16, State.byteAt, hm, Memory.get_set16_low, Memory.get_set16_high,
    Option.getD_some]
  ext i hi
  simp only [BitVec.getElem_append, BitVec.getElem_extractLsb']
  split <;> simp_all [BitVec.getLsbD_eq_getElem]

/-- The canonical form of the memories of a state. -/
def State.memWf (s : State) : Prop :=
  Memory.wf s.xmem = true ∧ Memory.wf s.ymem = true ∧ Memory.wf s.imem = true

theorem State.storeData_memWf (s : State) (b : Bus) (key : Nat) (v : Word) (h : s.memWf) :
    (s.storeData b key v).memWf := by
  obtain ⟨hx, hy, hi⟩ := h
  have key' : ∀ sp, Memory.wf (s.mem sp) = true → Memory.wf ((s.storeData b key v).mem sp) = true := by
    intro sp hsp
    by_cases hs : sp = b.space
    · subst hs
      rw [State.storeData_mem_same]
      cases s.kindAt b.space key <;> simp [hsp, Memory.set16_wf]
    · rw [State.storeData_mem_other _ _ _ _ _ hs]; exact hsp
  exact ⟨key' .x hx, key' .y hy, key' .i hi⟩

theorem State.storeCode_memWf (s : State) (addr v : Code) (h : s.memWf) :
    (s.storeCode addr v).memWf := by
  obtain ⟨hx, hy, hi⟩ := h
  refine ⟨by simpa using hx, by simpa using hy, ?_⟩
  unfold State.storeCode
  split <;> simp_all [Memory.set32_wf]

theorem State.reset_memWf : State.reset.memWf := ⟨rfl, rfl, rfl⟩

end Sys2Proof.Machine
end

