-- ==== Sys2Proof/Laws/Ops.lean ====
section
/-! SUPPORT. One lemma per shared operation that says everything it can do: performing writes, running
a word, each kind of move, the ALU plans, a boundary. Later proofs cite these and do not unfold the
operations. -/

namespace Sys2Proof.Machine

/-! ### Performing writes -/

@[simp] theorem State.writes_nil (s : State) : s.writes [] = s := rfl

@[simp] theorem State.writes_cons (s : State) (w : Write) (ws : List Write) :
    s.writes (w :: ws) = (s.write w).writes ws := rfl

theorem State.writes_append (ws vs : List Write) (s : State) :
    s.writes (ws ++ vs) = (s.writes ws).writes vs := by
  induction ws generalizing s with
  | nil => rfl
  | cons w ws ih => exact ih (s.write w)

/-- What every single write of a list keeps, the list keeps. -/
theorem State.writes_keeps (P : State → Prop) (ws : List Write)
    (h : ∀ w ∈ ws, ∀ s : State, P s → P (s.write w)) (s : State) (hs : P s) :
    P (s.writes ws) := by
  induction ws generalizing s with
  | nil => exact hs
  | cons w ws ih =>
    exact ih (fun v hv => h v (List.mem_cons_of_mem w hv)) _ (h w List.mem_cons_self s hs)

/-- A view of the state that no write of a list changes is as it was. -/
theorem State.writes_frame {α : Type} (f : State → α) (ws : List Write)
    (h : ∀ w ∈ ws, ∀ s : State, f (s.write w) = f s) (s : State) : f (s.writes ws) = f s :=
  State.writes_keeps (fun t => f t = f s) ws (fun w hw t ht => (h w hw t).trans ht) s rfl

/-! ### Running a word -/

/-- A plan performed gives a next state when it met no fault, and then its writes' state. -/
theorem perform_next_iff (s t : State) (plan : Except Fault (List Write)) :
    perform s plan = .next t ↔ ∃ ws, plan = .ok ws ∧ t = s.writes ws := by
  cases plan with
  | error f => simp [perform]
  | ok ws => simp [perform, eq_comm]

/-- A word gives a next state when it is well-formed, has one writer for each register and its plan
met no fault. -/
theorem runWord_next_iff (i : Instr) (s t : State) (plan : Except Fault (List Write)) :
    runWord i s plan = .next t ↔
      i.WellFormed ∧ i.ConflictFree ∧ ∃ ws, plan = .ok ws ∧ t = s.writes ws := by
  simp only [Instr.WellFormed, Instr.ConflictFree, runWord]
  cases i.reject with
  | some why => simp
  | none => cases i.conflict <;> simp [perform_next_iff]

/-- Two plans of one word succeed together, one after the other. -/
theorem both_ok_iff (p q : Except Fault (List Write)) (ws : List Write) :
    both p q = .ok ws ↔ ∃ us vs, p = .ok us ∧ q = .ok vs ∧ ws = us ++ vs := by
  cases p <;> cases q <;> simp [both, eq_comm]

/-- A word with a parallel move gives a next state when its move met no fault: the operation's writes
and then the move's. -/
theorem runParallel_next_iff (i : Instr) (s t : State) (op : List Write) (pm : PMove) :
    runParallel i s op pm = .next t ↔
      i.WellFormed ∧ i.ConflictFree ∧ ∃ vs, s.parallel pm = .ok vs ∧
        t = (s.writes op).writes vs := by
  simp only [runParallel, runWord_next_iff, both_ok_iff]
  refine and_congr_right fun _ => and_congr_right fun _ => ⟨?_, ?_⟩
  · rintro ⟨_, ⟨us, vs, hu, hv, rfl⟩, rfl⟩
    cases hu
    exact ⟨vs, hv, State.writes_append _ _ _⟩
  · rintro ⟨vs, hv, rfl⟩
    exact ⟨op ++ vs, ⟨op, vs, rfl, hv, rfl⟩, (State.writes_append _ _ _).symm⟩

/-! ### Moves -/

/-- Loads: the value where the address is admitted, a fault where it is not. -/
theorem State.readData_eq (s : State) (b : Bus) (key : Nat) :
    s.readData b key =
      if s.admitted b.space key then .ok (s.loadValue b key)
      else .error (.noMemory b.space key) := by
  unfold State.readData State.admitted State.loadValue
  cases h : s.kindAt b.space key <;> simp

theorem State.writes_postWrites (s t : State) (port : Port) (n : IReg) (post : BitVec 4) :
    t.writes (s.postWrites port n post) = t.stepIndex s port n post := by
  unfold State.postWrites State.stepIndex
  split <;> rfl

theorem State.writes_load (t : State) (r : MoveReg) (v : Word) :
    t.writes (.reg r v :: lsupWrites r) = t.loadReg r v := by
  cases r <;> rfl

/-- A full move whose memory is there plans writes with the effect of the move. -/
theorem State.writes_fullStep (s t : State) (b : Bus) (m : FullMove) :
    t.writes (s.fullStep b m) = t.stepMove s b m := by
  unfold State.fullStep State.stepMove
  split
  · rfl
  · exact State.writes_postWrites ..

/-- An access whose memory is there plans writes with the effect of the access. -/
theorem State.fullAccess_ok (s : State) (b : Bus) (m : FullMove) (h : s.fullAdmitted b m = true) :
    ∃ ws, s.fullAccess b m = .ok ws ∧ ∀ t : State, t.writes ws = t.accessMove s b m := by
  unfold State.fullAdmitted at h
  unfold State.fullAccess State.accessMove
  by_cases hn : m.reg = .nop
  · exact ⟨[], by simp [hn], fun t => by simp [hn]⟩
  by_cases hs : m.store = true
  · have ha : s.admitted b.space (s.index m.idx).toNat = true := by simpa [hn, hs] using h
    exact ⟨_, by simp [hn, hs, ha]; rfl, fun t => by simp [hn, hs, State.write]⟩
  · by_cases hz : m.reg = .null
    · exact ⟨[], by simp [hs, hz], fun t => by simp [hs, hz]⟩
    · have ha : s.admitted b.space (s.index m.idx).toNat = true := by simpa [hn, hs, hz] using h
      refine ⟨_, by simp [hn, hs, hz, State.readData_eq, ha]; rfl, fun t => ?_⟩
      rw [State.writes_load]
      simp [hn, hs, hz]

/-- An access whose memory is not there faults. -/
theorem State.fullAccess_error (s : State) (b : Bus) (m : FullMove)
    (h : s.fullAdmitted b m = false) :
    s.fullAccess b m = .error (.noMemory b.space (s.index m.idx).toNat) := by
  unfold State.fullAdmitted at h
  unfold State.fullAccess
  simp only [Bool.or_eq_false_iff, beq_eq_false_iff_ne, Bool.and_eq_false_iff] at h
  obtain ⟨⟨hn, hz⟩, ha⟩ := h
  cases hs : m.store with
  | true => simp [hn, ha]
  | false =>
    have hz' : m.reg ≠ .null := by simpa [hs] using hz
    simp [hn, hz', State.readData_eq, ha]

/-- A full move whose memory is there plans writes with the effect of the move. -/
theorem State.fullMove_ok (s : State) (b : Bus) (m : FullMove) (h : s.fullAdmitted b m = true) :
    ∃ ws, s.fullMove b m = .ok ws ∧ ∀ t : State, t.writes ws = t.applyMove s b m := by
  obtain ⟨ws, hw, ew⟩ := s.fullAccess_ok b m h
  exact ⟨_, by simp [State.fullMove, hw, both]; rfl, fun t => by
    rw [State.writes_append, State.writes_fullStep, ew, State.applyMove]⟩

/-- A full move whose memory is not there faults. -/
theorem State.fullMove_error (s : State) (b : Bus) (m : FullMove)
    (h : s.fullAdmitted b m = false) :
    s.fullMove b m = .error (.noMemory b.space (s.index m.idx).toNat) := by
  simp [State.fullMove, s.fullAccess_error b m h, both]

/-- The state in which a double move reads differs in LSUP alone. -/
theorem State.reading_frame (s : State) (x y : FullMove) :
    ∃ l, s.reading x y = { s with lsup := l } := by
  unfold State.reading
  split <;> exact ⟨_, rfl⟩

theorem State.fullAdmitted_reading (s : State) (x y m : FullMove) (b : Bus) :
    (s.reading x y).fullAdmitted b m = s.fullAdmitted b m := by
  obtain ⟨l, e⟩ := s.reading_frame x y
  rw [e]; rfl

/-- Two moves of one word. -/
theorem State.doubleMove_ok (s : State) (x y : FullMove) (hx : s.fullAdmitted .x x = true)
    (hy : s.fullAdmitted .y y = true) :
    ∃ ws, s.doubleMove x y = .ok ws ∧ ∀ t : State, t.writes ws = t.applyMoves s x y := by
  rw [← s.fullAdmitted_reading x y] at hx hy
  obtain ⟨us, hu, eu⟩ := (s.reading x y).fullAccess_ok .x x hx
  obtain ⟨vs, hv, ev⟩ := (s.reading x y).fullAccess_ok .y y hy
  exact ⟨_, by simp [State.doubleMove, hu, hv, both]; rfl, fun t => by
    simp only [State.writes_append, State.writes_fullStep, eu, ev, State.applyMoves]⟩

/-- Two moves of one word, one of whose memories is not there: the fault names the X access if that
is one (log 59). -/
theorem State.doubleMove_error (s : State) (x y : FullMove)
    (h : (s.fullAdmitted .x x && s.fullAdmitted .y y) = false) :
    ∃ f, s.doubleMove x y = .error f := by
  simp only [← s.fullAdmitted_reading x y] at h
  unfold State.doubleMove
  cases hx : (s.reading x y).fullAdmitted .x x with
  | false => exact ⟨_, by dsimp only; rw [(s.reading x y).fullAccess_error .x x hx]; rfl⟩
  | true =>
    obtain ⟨us, hu, -⟩ := (s.reading x y).fullAccess_ok .x x hx
    have hy : (s.reading x y).fullAdmitted .y y = false := by simpa [hx] using h
    exact ⟨_, by dsimp only; rw [hu, (s.reading x y).fullAccess_error .y y hy]; rfl⟩

theorem State.writes_regMove (s t : State) (port : Port) (src dst : MoveReg) :
    t.writes (s.regMove port src dst) = t.applyRegMove s port src dst := by
  unfold State.regMove State.applyRegMove
  split <;> rfl

/-- A move of a lost coding whose memory is there. -/
theorem State.uncodedMove_ok (s : State) (m : UncodedMove) (h : s.uncodedAdmitted m = true) :
    ∃ ws, s.uncodedMove m = .ok ws ∧ ∀ t : State, t.writes ws = t.applyUncoded s m := by
  cases m with
  | regMove src dst => exact ⟨_, rfl, fun t => State.writes_regMove s t .x src dst⟩
  | longX store reg n =>
    simp only [State.uncodedAdmitted] at h
    simp only [State.uncodedMove, State.longMove, State.applyUncoded]
    by_cases hn : reg = .nop
    · exact ⟨[], by simp [hn], fun t => by simp [hn]⟩
    cases store with
    | true =>
      have ha := h
      simp only [beq_eq_false_iff_ne.mpr hn, Bool.not_true, Bool.false_and, Bool.or_self,
        Bool.false_or] at ha
      exact ⟨_, by simp [hn, ha]; rfl, fun t => by simp [hn, State.write]⟩
    | false =>
      by_cases hz : reg = .null
      · exact ⟨[], by simp [hz], fun t => by simp [hz]⟩
      · have ha : s.admitted Bus.x.space (longKey (s.index (IReg.pair n)) (s.index n)) = true := by
          simpa [hn, hz, Bus.space] using h
        refine ⟨_, by simp [hn, hz, State.readData_eq, ha]; rfl, fun t => ?_⟩
        rw [State.writes_load]
        simp [hn, hz]
  | ibus store x n post =>
    have ha : s.admitted .i (s.ibusAddress n).toNat = true := h
    unfold State.ibusAddress at ha
    simp only [State.uncodedMove, State.ibusMove, ha]
    cases store with
    | true => exact ⟨_, rfl, fun t => by
        simp [State.applyUncoded, State.write, State.writes_postWrites, State.ibusAddress]⟩
    | false => exact ⟨_, rfl, fun t => by
        simp [State.applyUncoded, State.write, State.writes_postWrites, State.ibusAddress]⟩

/-- A move of a lost coding whose memory is not there faults. -/
theorem State.uncodedMove_error (s : State) (m : UncodedMove) (h : s.uncodedAdmitted m = false) :
    ∃ f, s.uncodedMove m = .error f := by
  cases m with
  | regMove src dst => exact absurd h (by simp [State.uncodedAdmitted])
  | longX store reg n =>
    simp only [State.uncodedAdmitted, Bool.or_eq_false_iff, beq_eq_false_iff_ne,
      Bool.and_eq_false_iff] at h
    obtain ⟨⟨hn, hz⟩, ha⟩ := h
    simp only [State.uncodedMove, State.longMove]
    cases store with
    | true => exact ⟨_, by simp [hn, ha]; rfl⟩
    | false =>
      have hz' : reg ≠ .null := by simpa using hz
      have ha' : s.admitted Bus.x.space (longKey (s.index (IReg.pair n)) (s.index n)) = false := ha
      exact ⟨_, by simp [hn, hz', State.readData_eq, ha']; rfl⟩
  | ibus store x n post =>
    have ha : s.admitted .i (s.ibusAddress n).toNat = false := h
    unfold State.ibusAddress at ha
    exact ⟨_, by simp only [State.uncodedMove, State.ibusMove, ha]; rfl⟩

/-- A parallel move whose memory is there plans writes with the effect of the move. -/
theorem State.parallel_ok (s : State) (pm : PMove) (h : s.parallelAdmitted pm = true) :
    ∃ ws, s.parallel pm = .ok ws ∧ ∀ t : State, t.writes ws = t.applyParallel s pm := by
  cases pm with
  | full b m => exact s.fullMove_ok b m h
  | short x y =>
    simp only [State.parallelAdmitted, Bool.and_eq_true] at h
    exact s.doubleMove_ok x.full y.full h.1 h.2
  | uncoded m => exact s.uncodedMove_ok m h

/-- A parallel move whose memory is not there faults. -/
theorem State.parallel_error (s : State) (pm : PMove) (h : s.parallelAdmitted pm = false) :
    ∃ f, s.parallel pm = .error f := by
  cases pm with
  | full b m => exact ⟨_, s.fullMove_error b m h⟩
  | short x y => exact s.doubleMove_error x.full y.full h
  | uncoded m => exact s.uncodedMove_error m h

/-- A word with a parallel move that runs: its operation's effect and then the move's. -/
theorem runParallel_runs (i : Instr) (s : State) (op : List Write) (pm : PMove)
    (hw : i.WellFormed) (hc : i.ConflictFree) (ha : s.parallelAdmitted pm = true) :
    runParallel i s op pm = .next ((s.writes op).applyParallel s pm) := by
  obtain ⟨vs, hv, ev⟩ := s.parallel_ok pm ha
  exact (runParallel_next_iff ..).mpr ⟨hw, hc, vs, hv, (ev _).symm⟩

/-! ### ALU plans -/

theorem State.writes_writeWide (s : State) (dst : AReg) (o : AluOut 40) (psat : Bool) :
    s.writes (writeWide dst (o.orV psat)) = s.result40 dst o psat := by
  simp [writeWide, State.result40, AluOut.orV, State.write]

theorem State.writes_writeNarrow (s : State) (dst : AReg) (o : AluOut 16) :
    s.writes (writeNarrow dst o) = s.result16 dst o false := by
  simp [writeNarrow, State.result16, Flags.orV, State.write]

/-- A two-operand plan writes the result of the function it is given, at the width of R141. -/
theorem State.writes_alu2 (s : State) (f : (w : Nat) → BitVec w → BitVec w → AluOut w)
    (op1 op2 : AluSrc) (dst : AReg) : s.writes (s.alu2 f op1 op2 dst) = s.result2 op1 op2 dst f := by
  unfold State.alu2 State.result2
  split
  · exact s.writes_writeWide _ _ _
  · exact s.writes_writeNarrow _ _

/-- A single-operand plan writes the result of the function it is given, at the width of R141. -/
theorem State.writes_alu1 (s : State) (f : (w : Nat) → BitVec w → AluOut w) (op2 : AluSrc)
    (dst : AReg) : s.writes (s.alu1 f op2 dst) = s.result1 op2 dst f := by
  unfold State.alu1 State.result1
  split
  · exact s.writes_writeWide _ _ _
  · exact s.writes_writeNarrow _ _

/-- The width of a two-operand operation is 16 or 40: descriptions that agree there write the same. -/
theorem State.result2_congr (s : State) (op1 op2 : AluSrc) (dst : AReg)
    (f g : (w : Nat) → BitVec w → BitVec w → AluOut w) (h16 : ∀ a b, f 16 a b = g 16 a b)
    (h40 : ∀ a b, f 40 a b = g 40 a b) : s.result2 op1 op2 dst f = s.result2 op1 op2 dst g := by
  simp only [State.result2, h16, h40]

/-- Descriptions of a single-operand operation that agree at both widths write the same. -/
theorem State.result1_congr (s : State) (op2 : AluSrc) (dst : AReg)
    (f g : (w : Nat) → BitVec w → AluOut w) (h16 : ∀ a, f 16 a = g 16 a)
    (h40 : ∀ a, f 40 a = g 40 a) : s.result1 op2 dst f = s.result1 op2 dst g := by
  simp only [State.result1, h16, h40]

/-! ### Boundaries -/

/-- What a step can do: a system reset, an interrupt entry, a halted boundary, or one instruction. -/
theorem step_cases (s : State) :
    (s.resetDue = true ∧ step s = .next s.systemReset) ∨
    (s.resetDue = false ∧
      ((∃ vec, s.takeEvent.entryDue = some vec ∧ step s = s.takeEvent.enterInterrupt vec) ∨
       (s.takeEvent.entryDue = none ∧ s.takeEvent.hlt = .waiting ∧
          step s = .next { s.takeEvent with freeCtr := s.takeEvent.freeCtr + 1 }) ∨
       (s.takeEvent.entryDue = none ∧ s.takeEvent.hlt ≠ .waiting ∧
          step s = s.takeEvent.runNext))) := by
  unfold step State.machineStep State.advance
  cases hr : s.resetDue with
  | true => exact .inl ⟨rfl, by simp⟩
  | false =>
    refine .inr ⟨rfl, ?_⟩
    cases he : s.takeEvent.entryDue with
    | some vec => exact .inl ⟨vec, rfl, by simp⟩
    | none =>
      by_cases hw : s.takeEvent.hlt = .waiting
      · exact .inr (.inl ⟨rfl, hw, by simp [hw]⟩)
      · exact .inr (.inr ⟨rfl, hw, by simp [hw]⟩)

/-- A fetched word gives a next state when it decodes and its instruction gives one, which is then
sequenced. -/
theorem runFetched_next_iff (s u : State) (w : Code) :
    s.runFetched w = .next u ↔
      ∃ i t, decode w = .ok i ∧ exec i s.prepare = .next t ∧ u = s.finish t (kindOf i) := by
  unfold State.runFetched runInstr
  cases hd : decode w with
  | error why => simp
  | ok i => cases he : exec i s.prepare <;> simp [he, eq_comm]

/-- Running the next instruction gives a next state when a word is fetched, decodes, and its
instruction gives one, which is then sequenced. -/
theorem runNext_next_iff (s u : State) :
    s.runNext = .next u ↔
      ∃ w i t, s.fetch = .ok w ∧ decode w = .ok i ∧ exec i s.prepare = .next t ∧
        u = s.finish t (kindOf i) := by
  unfold State.runNext
  cases hf : s.fetch with
  | error f => simp
  | ok w => simp [runFetched_next_iff]

/-- An interrupt entry that is not unpredictable takes the interrupt and runs the word at the vector. -/
theorem enterInterrupt_next_iff (s u : State) (vec : Vec) :
    s.enterInterrupt vec = .next u ↔
      s.prevk ≠ .jmpi ∧ ∃ w, (s.takeInterrupt vec).fetch = .ok w ∧ isJmpiWord w = true ∧
        (s.takeInterrupt vec).runFetched w = .next u := by
  unfold State.enterInterrupt
  by_cases hk : s.prevk = .jmpi
  · simp [hk]
  · cases hf : (s.takeInterrupt vec).fetch with
    | error f => simp [hk]
    | ok w => cases hj : isJmpiWord w <;> simp [hk, hj]

/-- A plain vector is fetched as it stands after the entry. -/
theorem takeInterrupt_plainFetch (s : State) (vec : Vec) (h : s.plainVector vec) :
    (s.takeInterrupt vec).plainFetch := by
  have all : ∀ v : Vec, (codeAddress 0 (vectorAddress v)).toNat = 32 + v.val := by decide
  have e := all vec
  obtain ⟨hk, h1, h2⟩ := h
  refine ⟨rfl, ?_, h1, h2⟩
  show s.kindAt .i (codeAddress 0 (vectorAddress vec)).toNat = .ram ∨
    s.kindAt .i (codeAddress 0 (vectorAddress vec)).toNat = .rom
  rw [e]; exact hk

/-- A fetch from plain memory gives the word stored at the program counter. -/
theorem State.fetch_plain (s : State) (h : s.plainFetch) :
    s.fetch = .ok (s.word32 s.fetchAddress.toNat) := by
  obtain ⟨hp, hk, h1, h2⟩ := h
  unfold State.fetchAddress at hk h1 h2
  unfold State.fetch State.fetchPage State.admitted State.codeWord State.fetchAddress
  rcases hk with hk | hk <;> simp [hp, hk, h1, h2]

end Sys2Proof.Machine
end

