-- ==== Sys2Proof/Laws/Alu.lean ====
section
/-! SUPPORT. The ALU's and the multiplier's functions, each said once as exact arithmetic narrowed to the
width (`narrow`). -/

namespace Sys2Proof.Machine

/-! ### Flags of a written value (R144) -/

theorem extended_word (r : Word) : extended r = false := by simp [extended]

theorem extended_long (r : Long) : extended r = !fits 32 r.toInt := by
  have h := r.isLt
  have key : ∀ k : Nat, (r.extractLsb' 31 9 == BitVec.ofNat 9 k) =
      decide (r.toNat / 2147483648 = k % 512) := by
    intro k
    rw [Bool.eq_iff_iff, beq_iff_eq, decide_eq_true_iff, ← BitVec.toNat_inj]
    simp [Nat.shiftRight_eq_div_pow]
    omega
  have k0 := key 0
  have k1 := key 511
  have e1 : (0 : BitVec 9) = BitVec.ofNat 9 0 := rfl
  have e2 : BitVec.allOnes 9 = BitVec.ofNat 9 511 := rfl
  simp only [extended, fits, bne, BitVec.toInt_eq_toNat_cond]
  rw [e1, e2, k0, k1, Bool.eq_iff_iff]
  simp
  split <;> omega

theorem resultFlags_word (r : Word) (v c : Bool) :
    resultFlags r v c =
      { z := r == 0, n := decide (r.toInt < 0), v := v, e := false, c := c } := by
  simp [resultFlags, extended_word, BitVec.msb_eq_toInt]

theorem resultFlags_long (r : Long) (v c : Bool) :
    resultFlags r v c =
      { z := r == 0, n := decide (r.toInt < 0), v := v, e := !fits 32 r.toInt, c := c } := by
  simp [resultFlags, extended_long, BitVec.msb_eq_toInt]


/-! ### Width 16 -/

theorem ofNat_eq_ofInt_word (k : Nat) (x : Int) (h : x % 65536 = (k : Int) % 65536) :
    BitVec.ofNat 16 k = BitVec.ofInt 16 x := by
  apply BitVec.eq_of_toNat_eq
  simp [BitVec.toNat_ofInt, h]
  omega

/-- An output with the limits where `mode` is on and the number does not fit. -/
theorem narrow_word (mode : Bool) (x : Int) (c : Bool) (r : Word)
    (h : r = if mode && !fits 16 x then (if x < 0 then minNeg 16 else maxPos 16)
             else BitVec.ofInt 16 x) :
    narrow 16 mode x c = { r := r, flags := resultFlags r (!fits 16 x) c } := by
  have e : r = if mode && !fits 16 x then
      BitVec.ofInt 16 (if x < 0 then -2 ^ (16 - 1) else 2 ^ (16 - 1) - 1)
      else BitVec.ofInt 16 x := by
    rw [h]
    congr 1
    by_cases hx : x < 0
    · simp only [hx, if_true]; decide
    · simp only [hx, if_false]; decide
  simp [narrow, resultFlags_word, e]

/-- A number that fits is its own image. -/
theorem narrow_word_fits (mode c : Bool) (r : Word) :
    narrow 16 mode r.toInt c = { r := r, flags := resultFlags r false c } := by
  have hf : fits 16 r.toInt = true := by
    have h := r.isLt
    simp only [fits, BitVec.toInt_eq_toNat_cond]
    simp
    split <;> omega
  rw [narrow_word mode _ c r (by simp [hf]), hf]
  rfl

/-- The adder (R146): the exact sum, narrowed. -/
theorem addCore_word (mode : Bool) (a b : Word) (cin : Bool) :
    addCore mode a b cin = narrow 16 mode (a.toInt + b.toInt + cin.toNat)
      (decide (2 ^ 16 ≤ a.toNat + b.toNat + cin.toNat)) := by
  have ha := a.isLt
  have hb := b.isLt
  have hc := cin.toNat_le
  have hv : (a.msb == b.msb && (BitVec.ofNat 16 (a.toNat + b.toNat + cin.toNat)).msb != a.msb) =
      !fits 16 (a.toInt + b.toInt + cin.toNat) := by
    simp only [fits, BitVec.msb_eq_decide, BitVec.toInt_eq_toNat_cond, BitVec.toNat_ofNat]
    generalize cin.toNat = k at *
    rw [Bool.eq_iff_iff]
    simp
    split <;> split <;> omega
  have hn : fits 16 (a.toInt + b.toInt + cin.toNat) = false →
      a.msb = decide (a.toInt + b.toInt + (cin.toNat : Int) < 0) := by
    simp only [fits, BitVec.msb_eq_decide, BitVec.toInt_eq_toNat_cond]
    generalize cin.toNat = k at *
    rw [Bool.eq_iff_iff]
    simp
    split <;> split <;> omega
  have hr : BitVec.ofNat 16 (a.toNat + b.toNat + cin.toNat) =
      BitVec.ofInt 16 (a.toInt + b.toInt + cin.toNat) := by
    apply ofNat_eq_ofInt_word
    simp only [BitVec.toInt_eq_toNat_cond]
    split <;> split <;> omega
  rw [hr] at hv
  rw [narrow_word mode _ _ _ rfl]
  simp only [addCore, hr, hv, saturate]
  cases hf : fits 16 (a.toInt + b.toInt + cin.toNat) with
  | true => simp
  | false => simp [hn hf]

/-- The subtractor (R149, R150): the exact difference, narrowed, with C for no borrow. -/
theorem subCore_word (mode : Bool) (a b : Word) (cin : Bool) :
    subCore mode a b cin = narrow 16 mode (a.toInt - b.toInt - (!cin).toNat)
      (decide (b.toNat + (!cin).toNat ≤ a.toNat)) := by
  have hb := b.isLt
  have e1 : (~~~b).toInt = -b.toInt - 1 := by
    simp only [BitVec.toInt_eq_toNat_cond, BitVec.toNat_not]
    split <;> split <;> omega
  have e2 : (~~~b).toNat = 2 ^ 16 - 1 - b.toNat := by simp
  rw [subCore, addCore_word, e1, e2]
  cases cin
  · congr 1
    · simp; omega
    · rw [Bool.eq_iff_iff]; simp; omega
  · congr 1
    · simp; omega
    · rw [Bool.eq_iff_iff]; simp; omega

/-- Logic results (R180). -/
theorem logicOut_word (r : Word) : logicOut r = narrow 16 false r.toInt false :=
  (narrow_word_fits false false r).symm

/-- ABS (R151). -/
theorem absOut_word (mode c : Bool) (b : Word) :
    absOut mode c b = narrow 16 mode (b.toInt.natAbs : Int) c := by
  have hb := b.isLt
  by_cases hm : b = minNeg 16
  · subst hm
    cases mode <;> cases c <;> decide
  · have hv : (b.msb && b == minNeg 16) = false := by simp [hm]
    have hne : b.toNat ≠ 32768 := fun h => hm (by apply BitVec.eq_of_toNat_eq; rw [h]; rfl)
    have hi : (if b.msb then -b else b).toInt = (b.toInt.natAbs : Int) := by
      cases hs : b.msb with
      | true =>
        have : 32768 ≤ b.toNat := by
          rw [BitVec.msb_eq_decide] at hs
          simpa using hs
        simp only [if_true, BitVec.toInt_eq_toNat_cond, BitVec.toNat_neg]
        split <;> split <;> omega
      | false =>
        have : b.toNat < 32768 := by
          rw [BitVec.msb_eq_decide] at hs
          simpa using hs
        simp only [Bool.false_eq_true, if_false, BitVec.toInt_eq_toNat_cond]
        split <;> omega
    rw [← hi, narrow_word_fits]
    simp only [absOut, hv, saturate]
    cases b.msb <;> simp

/-- The right shifts by one (R187 to R189): the value that `top` and the shifted operand make. -/
theorem shiftRightOut_word (top : Bool) (b : Word) :
    shiftRightOut top b = narrow 16 false
      ((b.toNat / 2 : Nat) - (if top then 2 ^ (16 - 1) else 0)) (b.getLsbD 0) := by
  have hb := b.isLt
  have hi : ((b >>> 1) ||| (if top then minNeg 16 else 0)).toInt =
      ((b.toNat / 2 : Nat) : Int) - (if top then 2 ^ (16 - 1) else 0) := by
    have hs : (b >>> 1).toNat = b.toNat / 2 := by simp [Nat.shiftRight_eq_div_pow]
    cases top with
    | false =>
      have hz : ((b >>> 1) ||| (if false = true then minNeg 16 else 0)) = b >>> 1 := by simp
      rw [hz, BitVec.toInt_eq_toNat_cond, hs]
      simp
      omega
    | true =>
      have ho : ((b >>> 1) ||| minNeg 16).toNat = b.toNat / 2 + 32768 := by
        rw [BitVec.toNat_or, hs, show (minNeg 16).toNat = 2 ^ (16 - 1) * 1 from rfl, Nat.or_comm]
        rw [← Nat.two_pow_add_eq_or_of_lt (by omega)]
        omega
      simp only [if_true]
      rw [BitVec.toInt_eq_toNat_cond, ho]
      simp
      omega
  rw [← hi, narrow_word_fits]
  rfl


/-! ### Width 40 -/

theorem ofNat_eq_ofInt_long (k : Nat) (x : Int) (h : x % 1099511627776 = (k : Int) % 1099511627776) :
    BitVec.ofNat 40 k = BitVec.ofInt 40 x := by
  apply BitVec.eq_of_toNat_eq
  simp [BitVec.toNat_ofInt, h]
  omega

/-- An output with the limits where `mode` is on and the number does not fit. -/
theorem narrow_long (mode : Bool) (x : Int) (c : Bool) (r : Long)
    (h : r = if mode && !fits 40 x then (if x < 0 then minNeg 40 else maxPos 40)
             else BitVec.ofInt 40 x) :
    narrow 40 mode x c = { r := r, flags := resultFlags r (!fits 40 x) c } := by
  have e : r = if mode && !fits 40 x then
      BitVec.ofInt 40 (if x < 0 then -2 ^ (40 - 1) else 2 ^ (40 - 1) - 1)
      else BitVec.ofInt 40 x := by
    rw [h]
    congr 1
    by_cases hx : x < 0
    · simp only [hx, if_true]; decide
    · simp only [hx, if_false]; decide
  simp [narrow, resultFlags_long, e]

/-- A number that fits is its own image. -/
theorem narrow_long_fits (mode c : Bool) (r : Long) :
    narrow 40 mode r.toInt c = { r := r, flags := resultFlags r false c } := by
  have hf : fits 40 r.toInt = true := by
    have h := r.isLt
    simp only [fits, BitVec.toInt_eq_toNat_cond]
    simp
    split <;> omega
  rw [narrow_long mode _ c r (by simp [hf]), hf]
  rfl

/-- The adder (R146): the exact sum, narrowed. -/
theorem addCore_long (mode : Bool) (a b : Long) (cin : Bool) :
    addCore mode a b cin = narrow 40 mode (a.toInt + b.toInt + cin.toNat)
      (decide (2 ^ 40 ≤ a.toNat + b.toNat + cin.toNat)) := by
  have ha := a.isLt
  have hb := b.isLt
  have hc := cin.toNat_le
  have hv : (a.msb == b.msb && (BitVec.ofNat 40 (a.toNat + b.toNat + cin.toNat)).msb != a.msb) =
      !fits 40 (a.toInt + b.toInt + cin.toNat) := by
    simp only [fits, BitVec.msb_eq_decide, BitVec.toInt_eq_toNat_cond, BitVec.toNat_ofNat]
    generalize cin.toNat = k at *
    rw [Bool.eq_iff_iff]
    simp
    split <;> split <;> omega
  have hn : fits 40 (a.toInt + b.toInt + cin.toNat) = false →
      a.msb = decide (a.toInt + b.toInt + (cin.toNat : Int) < 0) := by
    simp only [fits, BitVec.msb_eq_decide, BitVec.toInt_eq_toNat_cond]
    generalize cin.toNat = k at *
    rw [Bool.eq_iff_iff]
    simp
    split <;> split <;> omega
  have hr : BitVec.ofNat 40 (a.toNat + b.toNat + cin.toNat) =
      BitVec.ofInt 40 (a.toInt + b.toInt + cin.toNat) := by
    apply ofNat_eq_ofInt_long
    simp only [BitVec.toInt_eq_toNat_cond]
    split <;> split <;> omega
  rw [hr] at hv
  rw [narrow_long mode _ _ _ rfl]
  simp only [addCore, hr, hv, saturate]
  cases hf : fits 40 (a.toInt + b.toInt + cin.toNat) with
  | true => simp
  | false => simp [hn hf]

/-- The subtractor (R149, R150): the exact difference, narrowed, with C for no borrow. -/
theorem subCore_long (mode : Bool) (a b : Long) (cin : Bool) :
    subCore mode a b cin = narrow 40 mode (a.toInt - b.toInt - (!cin).toNat)
      (decide (b.toNat + (!cin).toNat ≤ a.toNat)) := by
  have hb := b.isLt
  have e1 : (~~~b).toInt = -b.toInt - 1 := by
    simp only [BitVec.toInt_eq_toNat_cond, BitVec.toNat_not]
    split <;> split <;> omega
  have e2 : (~~~b).toNat = 2 ^ 40 - 1 - b.toNat := by simp
  rw [subCore, addCore_long, e1, e2]
  cases cin
  · congr 1
    · simp; omega
    · rw [Bool.eq_iff_iff]; simp; omega
  · congr 1
    · simp; omega
    · rw [Bool.eq_iff_iff]; simp; omega

/-- Logic results (R180). -/
theorem logicOut_long (r : Long) : logicOut r = narrow 40 false r.toInt false :=
  (narrow_long_fits false false r).symm

/-- ABS (R151). -/
theorem absOut_long (mode c : Bool) (b : Long) :
    absOut mode c b = narrow 40 mode (b.toInt.natAbs : Int) c := by
  have hb := b.isLt
  by_cases hm : b = minNeg 40
  · subst hm
    cases mode <;> cases c <;> decide
  · have hv : (b.msb && b == minNeg 40) = false := by simp [hm]
    have hne : b.toNat ≠ 549755813888 := fun h => hm (by apply BitVec.eq_of_toNat_eq; rw [h]; rfl)
    have hi : (if b.msb then -b else b).toInt = (b.toInt.natAbs : Int) := by
      cases hs : b.msb with
      | true =>
        have : 549755813888 ≤ b.toNat := by
          rw [BitVec.msb_eq_decide] at hs
          simpa using hs
        simp only [if_true, BitVec.toInt_eq_toNat_cond, BitVec.toNat_neg]
        split <;> split <;> omega
      | false =>
        have : b.toNat < 549755813888 := by
          rw [BitVec.msb_eq_decide] at hs
          simpa using hs
        simp only [Bool.false_eq_true, if_false, BitVec.toInt_eq_toNat_cond]
        split <;> omega
    rw [← hi, narrow_long_fits]
    simp only [absOut, hv, saturate]
    cases b.msb <;> simp

/-- The right shifts by one (R187 to R189): the value that `top` and the shifted operand make. -/
theorem shiftRightOut_long (top : Bool) (b : Long) :
    shiftRightOut top b = narrow 40 false
      ((b.toNat / 2 : Nat) - (if top then 2 ^ (40 - 1) else 0)) (b.getLsbD 0) := by
  have hb := b.isLt
  have hi : ((b >>> 1) ||| (if top then minNeg 40 else 0)).toInt =
      ((b.toNat / 2 : Nat) : Int) - (if top then 2 ^ (40 - 1) else 0) := by
    have hs : (b >>> 1).toNat = b.toNat / 2 := by simp [Nat.shiftRight_eq_div_pow]
    cases top with
    | false =>
      have hz : ((b >>> 1) ||| (if false = true then minNeg 40 else 0)) = b >>> 1 := by simp
      rw [hz, BitVec.toInt_eq_toNat_cond, hs]
      simp
      omega
    | true =>
      have ho : ((b >>> 1) ||| minNeg 40).toNat = b.toNat / 2 + 549755813888 := by
        rw [BitVec.toNat_or, hs, show (minNeg 40).toNat = 2 ^ (40 - 1) * 1 from rfl, Nat.or_comm]
        rw [← Nat.two_pow_add_eq_or_of_lt (by omega)]
        omega
      simp only [if_true]
      rw [BitVec.toInt_eq_toNat_cond, ho]
      simp
      omega
  rw [← hi, narrow_long_fits]
  rfl


/-! ### Runs of sign bits (R186, R190) -/

theorem fits_succ_step (w i : Nat) (b : BitVec w) (hi : i + 1 < w)
    (h : fits (i + 2) b.toInt = true) :
    (b.getLsbD i == b.msb) = fits (i + 1) b.toInt := by
  obtain ⟨d, rfl⟩ : ∃ d, w = i + 2 + d := ⟨w - (i + 2), by omega⟩
  have hb := b.isLt
  have hp : (2 : Nat) ^ (i + 2 + d) = 2 ^ i * (4 * 2 ^ d) := by
    rw [Nat.pow_add, Nat.pow_add, Nat.mul_assoc]
  have hd : 0 < 2 ^ d := Nat.two_pow_pos d
  have hq : 0 < 2 ^ i := Nat.two_pow_pos i
  have hm : b.msb = decide (2 ^ i * (2 * 2 ^ d) ≤ b.toNat) := by
    rw [BitVec.msb_eq_decide]
    congr 2
    rw [show i + 2 + d - 1 = i + 1 + d by omega, Nat.pow_add, Nat.pow_succ, Nat.mul_assoc]
  rw [BitVec.getLsbD, Nat.testBit_eq_decide_div_mod_eq, hm]
  simp only [fits, BitVec.toInt_eq_toNat_cond, hp] at h ⊢
  rw [hp] at hb
  generalize hn : b.toNat = n at *
  simp only [Nat.add_sub_cancel, show i + 2 - 1 = i + 1 by omega, Int.pow_succ] at h ⊢
  have e2 : (2 : Int) ^ i = ((2 ^ i : Nat) : Int) := by simp
  rw [e2] at h ⊢
  generalize 2 ^ i = q at *
  generalize 2 ^ d = k at *
  have hqk : q * 1 ≤ q * k := Nat.mul_le_mul_left q hd
  have l1 : q * (2 * k) = 2 * (q * k) := by rw [Nat.mul_left_comm]
  have l2 : q * (4 * k) = 4 * (q * k) := by rw [Nat.mul_left_comm]
  simp only [l1, l2] at hb hm h ⊢
  simp only [Bool.and_eq_true, decide_eq_true_eq] at h
  rw [Bool.eq_iff_iff]
  simp only [beq_iff_eq, Bool.and_eq_true, decide_eq_true_eq]
  rw [decide_eq_decide]
  have hdiv := Nat.div_add_mod n q
  have hmod := Nat.mod_lt n hq
  split at h
  · -- nonnegative
    rename_i hlt
    have hlt' : n < 2 * (q * k) := by omega
    have hn2 : n < 2 * q := by
      have := h.2; omega
    have hdv : n / q = if q ≤ n then 1 else 0 := by
      split
      · rw [Nat.div_eq_of_lt_le] <;> omega
      · exact Nat.div_eq_of_lt (by omega)
    rw [if_pos hlt, hdv]
    split <;> omega
  · rename_i hlt
    have hn2 : 4 * (q * k) ≤ n + 2 * q := by
      have := h.1; omega
    have hdv : n / q = if 4 * (q * k) ≤ n + q then 4 * k - 1 else 4 * k - 2 := by
      have e1 : q * (4 * k - 1) = 4 * (q * k) - q := by
        rw [Nat.mul_sub, ← l2]; simp
      have e3 : q * (4 * k - 2) = 4 * (q * k) - 2 * q := by
        rw [Nat.mul_sub, ← l2, Nat.mul_comm q 2]
      have e4 : q * (4 * k) = 4 * (q * k) := l2
      split
      · apply Nat.div_eq_of_lt_le
        · rw [Nat.mul_comm, e1]; omega
        · rw [Nat.mul_comm, Nat.mul_add, e1]; omega
      · apply Nat.div_eq_of_lt_le
        · rw [Nat.mul_comm, e3]; omega
        · rw [Nat.mul_comm, Nat.mul_add, e3]; omega
    rw [if_neg hlt, hdv]
    split <;> omega

theorem fits_iff (w : Nat) (x : Int) :
    fits w x = true ↔ -2 ^ (w - 1) ≤ x ∧ x < 2 ^ (w - 1) := by
  simp [fits]

theorem fits_mono (v w : Nat) (x : Int) (hw : v ≤ w) (h : fits v x = true) : fits w x = true := by
  rw [fits_iff] at *
  have e : ((2 ^ (v - 1) : Nat) : Int) ≤ ((2 ^ (w - 1) : Nat) : Int) :=
    Int.ofNat_le.mpr (Nat.pow_le_pow_right (by decide) (by omega))
  simp only [Nat.cast_pow, Nat.cast_ofNat] at e
  omega

theorem fits_self (w : Nat) (b : BitVec w) (hw : 0 < w) : fits w b.toInt = true := by
  obtain ⟨k, rfl⟩ : ∃ k, w = k + 1 := ⟨w - 1, by omega⟩
  rw [fits_iff]
  exact ⟨BitVec.le_toInt b, BitVec.toInt_lt⟩

/-- The run of bits that equal the MSB says how many bits the number can do without. -/
theorem signRun_spec (w i : Nat) (b : BitVec w) (hi : i < w) (h : fits (i + 1) b.toInt = true) :
    signRun b i ≤ i ∧ ∀ m ≤ i, (m ≤ signRun b i ↔ fits (i + 1 - m) b.toInt = true) := by
  induction i with
  | zero =>
    refine ⟨Nat.le_refl 0, fun m hm => ?_⟩
    obtain rfl : m = 0 := by omega
    simpa using h
  | succ i ih =>
    have hs := fits_succ_step w i b (by omega) h
    simp only [signRun, hs]
    cases hf : fits (i + 1) b.toInt with
    | true =>
      obtain ⟨h1, h2⟩ := ih (by omega) hf
      refine ⟨by simp; omega, fun m hm => ?_⟩
      cases m with
      | zero => simpa using h
      | succ m =>
        rw [show i + 1 + 1 - (m + 1) = i + 1 - m by omega, ← h2 m (by omega)]
        simp; omega
    | false =>
      refine ⟨by simp, fun m hm => ?_⟩
      cases m with
      | zero => simpa using h
      | succ m =>
        constructor
        · intro hc; simp at hc
        · intro hc
          have := fits_mono (i + 1 + 1 - (m + 1)) (i + 1) b.toInt (by omega) hc
          rw [hf] at this; exact absurd this (by decide)

/-- The count of R190's reading E1. -/
theorem signRun_signBits (w : Nat) (b : BitVec w) (hw : 0 < w) :
    signBits w b.toInt (signRun b (w - 1)) := by
  obtain ⟨h1, h2⟩ := signRun_spec w (w - 1) b (by omega)
    (by rw [Nat.sub_add_cancel hw]; exact fits_self w b hw)
  rw [Nat.sub_add_cancel hw] at h2
  refine ⟨by omega, (h2 _ h1).mp (Nat.le_refl _), fun hm => ?_⟩
  have h3 := h2 (signRun b (w - 1) + 1) (by omega)
  rw [← Nat.sub_sub] at h3
  cases hf : fits (w - signRun b (w - 1) - 1) b.toInt with
  | false => rfl
  | true => exact absurd (h3.mpr hf) (by omega)

/-- The overflow test of ASHL (R186): one of the `k` bits below the MSB differs from it. -/
theorem signRun_lt_iff (w k : Nat) (b : BitVec w) (hk : k < w) :
    decide (signRun b (w - 1) < k) = !fits (w - k) b.toInt := by
  obtain ⟨-, h2⟩ := signRun_spec w (w - 1) b (by omega)
    (by rw [Nat.sub_add_cancel (by omega)]; exact fits_self w b (by omega))
  rw [Nat.sub_add_cancel (by omega)] at h2
  have h3 := h2 k (by omega)
  cases hf : fits (w - k) b.toInt with
  | true => have := h3.mpr hf; simp; omega
  | false =>
    have : ¬ k ≤ signRun b (w - 1) := fun hc => by rw [h3.mp hc] at hf; exact absurd hf (by decide)
    simp; omega

/-- A multiple by a power of two fits where the number fits so many bits less. -/
theorem fits_mul_pow (w k : Nat) (x : Int) (hk : k < w) :
    fits w (x * 2 ^ k) = fits (w - k) x := by
  obtain ⟨d, rfl⟩ : ∃ d, w = k + 1 + d := ⟨w - (k + 1), by omega⟩
  have hp : (0 : Int) < 2 ^ k := Int.pow_pos (by decide)
  have e1 : (2 : Int) ^ (k + 1 + d - 1) = 2 ^ d * 2 ^ k := by
    rw [show k + 1 + d - 1 = d + k by omega, Int.pow_add]
  have e2 : k + 1 + d - k - 1 = d := by omega
  rw [Bool.eq_iff_iff, fits_iff, fits_iff, e1, e2, ← Int.neg_mul]
  constructor
  · rintro ⟨h1, h2⟩
    exact ⟨Int.le_of_mul_le_mul_right h1 hp, Int.lt_of_mul_lt_mul_right h2 (Int.le_of_lt hp)⟩
  · rintro ⟨h1, h2⟩
    exact ⟨Int.mul_le_mul_of_nonneg_right h1 (Int.le_of_lt hp),
      Int.mul_lt_mul_of_pos_right h2 hp⟩


/-- ASHL with a count in range (R186). -/
theorem ashlInRange_word (mode : Bool) (a : Word) (n : Int) (h1 : -15 ≤ n) (h2 : n ≤ 15) :
    ashlInRange mode a n =
      if 0 ≤ n then
        narrow 16 mode (a.toInt * 2 ^ n.toNat) (decide (0 < n) && a.getLsbD (16 - n.toNat))
      else narrow 16 false (a.toInt / 2 ^ (-n).toNat) (a.getLsbD ((-n).toNat - 1)) := by
  unfold ashlInRange
  by_cases h0 : n = 0
  · subst h0
    simp [narrow_word_fits]
  by_cases hp : 0 < n
  · simp only [h0, hp, if_true, if_false, show (0 ≤ n) = True from eq_true (by omega)]
    generalize hk : n.toNat = k
    have hk' : k < 16 := by omega
    have hv : decide (signRun a (16 - 1) < k) = !fits 16 (a.toInt * 2 ^ k) := by
      rw [signRun_lt_iff 16 k a hk', fits_mul_pow 16 k _ hk']
    have hr : a <<< k = BitVec.ofInt 16 (a.toInt * 2 ^ k) := by
      apply BitVec.eq_of_toInt_eq
      rw [BitVec.toInt_ofInt, BitVec.toInt_shiftLeft, BitVec.toInt_eq_toNat_bmod,
        Nat.shiftLeft_eq]
      simp [Int.bmod_mul_bmod]
    have hs : a.msb = decide (a.toInt * 2 ^ k < 0) := by
      have hpos : (0 : Int) < 2 ^ k := Int.pow_pos (by decide)
      rw [BitVec.msb_eq_toInt, decide_eq_decide]
      constructor
      · intro h; exact Int.mul_neg_of_neg_of_pos h hpos
      · intro h
        by_contra hc
        have h' := Int.mul_nonneg (Int.not_lt.mp hc) (Int.le_of_lt hpos)
        omega
    rw [narrow_word mode _ _ _ rfl, hv, hr, hs]
    simp [saturate]
  · simp only [h0, hp, if_false, show (0 ≤ n) = False from eq_false (by omega)]
    have hr : (a.sshiftRight (-n).toNat).toInt = a.toInt / 2 ^ (-n).toNat := by
      rw [BitVec.toInt_sshiftRight, Int.shiftRight_eq_div_pow]; simp
    rw [← hr, narrow_word_fits]


/-- ASHL with a count in range (R186). -/
theorem ashlInRange_long (mode : Bool) (a : Long) (n : Int) (h1 : -39 ≤ n) (h2 : n ≤ 39) :
    ashlInRange mode a n =
      if 0 ≤ n then
        narrow 40 mode (a.toInt * 2 ^ n.toNat) (decide (0 < n) && a.getLsbD (40 - n.toNat))
      else narrow 40 false (a.toInt / 2 ^ (-n).toNat) (a.getLsbD ((-n).toNat - 1)) := by
  unfold ashlInRange
  by_cases h0 : n = 0
  · subst h0
    simp [narrow_long_fits]
  by_cases hp : 0 < n
  · simp only [h0, hp, if_true, if_false, show (0 ≤ n) = True from eq_true (by omega)]
    generalize hk : n.toNat = k
    have hk' : k < 40 := by omega
    have hv : decide (signRun a (40 - 1) < k) = !fits 40 (a.toInt * 2 ^ k) := by
      rw [signRun_lt_iff 40 k a hk', fits_mul_pow 40 k _ hk']
    have hr : a <<< k = BitVec.ofInt 40 (a.toInt * 2 ^ k) := by
      apply BitVec.eq_of_toInt_eq
      rw [BitVec.toInt_ofInt, BitVec.toInt_shiftLeft, BitVec.toInt_eq_toNat_bmod,
        Nat.shiftLeft_eq]
      simp [Int.bmod_mul_bmod]
    have hs : a.msb = decide (a.toInt * 2 ^ k < 0) := by
      have hpos : (0 : Int) < 2 ^ k := Int.pow_pos (by decide)
      rw [BitVec.msb_eq_toInt, decide_eq_decide]
      constructor
      · intro h; exact Int.mul_neg_of_neg_of_pos h hpos
      · intro h
        by_contra hc
        have h' := Int.mul_nonneg (Int.not_lt.mp hc) (Int.le_of_lt hpos)
        omega
    rw [narrow_long mode _ _ _ rfl, hv, hr, hs]
    simp [saturate]
  · simp only [h0, hp, if_false, show (0 ≤ n) = False from eq_false (by omega)]
    have hr : (a.sshiftRight (-n).toNat).toInt = a.toInt / 2 ^ (-n).toNat := by
      rw [BitVec.toInt_sshiftRight, Int.shiftRight_eq_div_pow]; simp
    rw [← hr, narrow_long_fits]


/-! ### EXP, SAT, RND (R190 to R194) -/

/-- EXP (R190, R192): a count of R190 and its 16-bit result. -/
theorem expOut_eq {w : Nat} (b : BitVec w) (h0 : 0 < w) (hw : w ≤ 40) :
    ∃ k : Nat, expCounts w b.toInt k ∧ expOut b = narrow 16 false k false := by
  have hz : (b.toInt = 0) = (b = 0) := by
    rw [← BitVec.toInt_inj]; simp
  have hs := signRun_signBits w b h0
  have hle : signRun b (w - 1) < w := hs.1
  refine ⟨expCount b, ?_, ?_⟩
  · unfold expCounts expCount
    simp only [hz]
    split
    · rfl
    · refine ⟨_, hs, ?_⟩
      cases Config.expReading <;> simp
  · have hk : expCount b ≤ 40 := by
      unfold expCount
      split
      · omega
      · cases Config.expReading <;> simp <;> omega
    unfold expOut
    generalize expCount b = k at hk ⊢
    have ht : ((BitVec.ofNat 16 k).toInt) = (k : Int) := by
      rw [BitVec.toInt_eq_toNat_cond]; simp; omega
    have hn : (BitVec.ofNat 16 k).msb = false := by
      rw [BitVec.msb_eq_toInt, ht]; simp
    rw [← ht, narrow_word_fits]
    simp [resultFlags, extended_word, hn]

theorem AluOut.orV_orV {w : Nat} (o : AluOut w) (p q : Bool) :
    (o.orV p).orV q = o.orV (p || q) := by
  simp [AluOut.orV, Flags.orV, Bool.or_assoc]

/-- SAT (R193): the operand limited to 32 bits, with V where the limit changed it. -/
theorem satOut_eq (b : Long) :
    satOut b =
      (narrow 40 false (clampTo 32 b.toInt) false).orV (clampTo 32 b.toInt != b.toInt) := by
  unfold satOut clampTo
  simp only [Nat.add_one_sub_one, Int.reducePow, Int.reduceNeg]
  by_cases h1 : 0x7FFFFFFF < b.toInt
  · have hne : (2147483647 : Int) ≠ b.toInt := by omega
    rw [if_pos h1, if_neg (by omega), if_pos (by omega)]
    rw [show (2147483648 - 1 : Int) = 2147483647 from rfl, bne_iff_ne.mpr hne]
    decide
  · by_cases h2 : b.toInt < -0x80000000
    · have hne : (-2147483648 : Int) ≠ b.toInt := by omega
      rw [if_neg h1, if_pos h2, if_pos h2, bne_iff_ne.mpr hne]
      decide
    · have hf : fits 32 b.toInt = true := by rw [fits_iff]; simp; omega
      rw [if_neg h1, if_neg h2, if_neg h2, if_neg (by omega), narrow_long_fits]
      simp [AluOut.orV, Flags.orV, resultFlags, extended_long, hf]

/-- RND (R194): the operand rounded to its upper 24 bits and limited to 16 bits, with V where the
limit changed it. -/
theorem rndOut_eq (nearest : Bool) (b : Long) :
    ∃ q : Int, roundsTo nearest b.toInt q ∧
      rndOut nearest b = (narrow 16 false (clampTo 16 q) false).orV (clampTo 16 q != q) := by
  refine ⟨rounded nearest b.toInt, ?_, ?_⟩
  · generalize b.toInt = x
    unfold roundsTo rounded
    cases nearest with
    | true =>
      simp only [if_true]
      split <;> omega
    | false =>
      simp only [Bool.false_eq_true, if_false, rndR0]
      by_cases hx : 0 ≤ x
      · rw [Int.tdiv_eq_ediv_of_nonneg hx, if_neg (by omega)]
      · obtain ⟨y, rfl⟩ : ∃ y, x = -y := ⟨-x, by omega⟩
        rw [Int.neg_tdiv, Int.tdiv_eq_ediv_of_nonneg (by omega)]
        split <;> omega
  · unfold rndOut clampTo
    generalize rounded nearest b.toInt = q
    simp only [Nat.reduceSub, Int.reducePow, Int.reduceNeg]
    by_cases h1 : 0x7FFF < q
    · have hne : (32767 : Int) ≠ q := by omega
      rw [if_pos h1, if_neg (by omega), if_pos (by omega)]
      rw [show (32768 - 1 : Int) = 32767 from rfl, bne_iff_ne.mpr hne]
      simp only [h1, decide_true, Bool.true_or]
      decide
    · by_cases h2 : q < -0x8000
      · have hne : (-32768 : Int) ≠ q := by omega
        rw [if_neg h1, if_pos h2, if_pos h2, bne_iff_ne.mpr hne]
        simp only [h1, h2, decide_true, decide_false, Bool.false_or]
        decide
      · have ht : (BitVec.ofInt 16 q).toInt = q := by
          rw [BitVec.toInt_ofInt_eq_self (by decide)] <;> simp <;> omega
        have hn := narrow_word_fits false false (BitVec.ofInt 16 q)
        rw [ht] at hn
        rw [if_neg h1, if_neg h2, if_neg h2, if_neg (by omega), hn]
        simp [h1, h2, AluOut.orV, Flags.orV, resultFlags, extended_word]

/-! ### Products (R221, R222) -/

theorem product_eq (mm : MulMode) (a b : Word) :
    product mm a b = BitVec.ofInt 32 (exactProduct mm a b) := by
  cases mm <;> simp [product, exactProduct]
end Sys2Proof.Machine
end

