-- ==== Sys2Proof/Laws/Decode.lean ====
section
/-! SUPPORT. Codes and their tables are inverse, the fields of a word built from its parts, and the
decoding of move fields. -/

namespace Sys2Proof

/-! ### Code tables -/

theorem AReg.code_lt (r : AReg) : r.code < 8 := by cases r <;> rename_i x <;> cases x <;> decide

@[simp] theorem AReg.ofCode_code (r : AReg) : AReg.ofCode r.code = r := by
  cases r <;> rename_i x <;> cases x <;> rfl

theorem AReg.code_ofCode (n : Nat) (h : n < 8) : (AReg.ofCode n).code = n := by
  match n, h with
  | 0, _ | 1, _ | 2, _ | 3, _ | 4, _ | 5, _ | 6, _ | 7, _ => rfl

/-- The odd codes are the high halves, which a 40-bit result may name (R104). -/
theorem AReg.isHigh_ofCode (n : Nat) (h : n < 8) : (AReg.ofCode n).isHigh = (n % 2 == 1) := by
  match n, h with
  | 0, _ | 1, _ | 2, _ | 3, _ | 4, _ | 5, _ | 6, _ | 7, _ => rfl

theorem Acc.code_lt (x : Acc) : x.code < 4 := by cases x <;> decide

@[simp] theorem Acc.ofCode_code (x : Acc) : Acc.ofCode x.code = x := by cases x <;> rfl

theorem Acc.code_ofCode (n : Nat) (h : n < 4) : (Acc.ofCode n).code = n := by
  match n, h with
  | 0, _ | 1, _ | 2, _ | 3, _ => rfl

theorem AluSrc.code_lt (c : AluSrc) : c.code < 16 := by
  cases c with
  | reg r => have := r.code_lt; simp only [AluSrc.code]; omega
  | acc x => have := x.code_lt; simp only [AluSrc.code]; omega
  | _ => decide

@[simp] theorem AluSrc.ofCode_code (c : AluSrc) : AluSrc.ofCode c.code = .ok c := by
  cases c with
  | reg r => cases r <;> rename_i x <;> cases x <;> rfl
  | acc x => cases x <;> rfl
  | _ => rfl

/-- The operand codes: 1010 is reserved, the rest are Table 4 (R103). -/
theorem AluSrc.ofCode_cases (n : Nat) (h : n < 16) :
    (n = 10 ∧ AluSrc.ofCode n = .error .reservedOperand) ∨
    (n ≠ 10 ∧ ∃ c, AluSrc.ofCode n = .ok c ∧ c.code = n ∧ c.wide = decide (11 ≤ n) ∧
      (c = .p ↔ n = 11)) := by
  by_cases h10 : n = 10
  · subst h10
    exact .inl ⟨rfl, rfl⟩
  · refine .inr ⟨h10, ?_⟩
    interval_cases n <;> first
      | exact absurd rfl h10
      | exact ⟨_, rfl, rfl, rfl, by decide⟩

theorem MulMode.code_lt (m : MulMode) : m.code < 4 := by cases m <;> decide

@[simp] theorem MulMode.ofCode_code (m : MulMode) : MulMode.ofCode m.code = m := by
  cases m <;> rfl

theorem MoveReg.code_lt (r : MoveReg) : r.code < 64 := by
  cases r with
  | areg r => have := r.code_lt; simp only [MoveReg.code]; omega
  | guard x => have := x.code_lt; simp only [MoveReg.code]; omega
  | idx n => have := n.isLt; simp only [MoveReg.code]; omega
  | _ => decide

@[simp] theorem MoveReg.ofCode_code (r : MoveReg) : MoveReg.ofCode r.code = .ok r := by
  cases r with
  | areg r => cases r <;> rename_i x <;> cases x <;> rfl
  | guard x => cases x <;> rfl
  | idx n =>
    revert n
    decide
  | _ => rfl

/-- LOOP's five bits name exactly the registers that are loopable (R118). -/
theorem MoveReg.code_lt_of_loopable (r : MoveReg) (h : r.loopable = true) : r.code < 32 := by
  cases r with
  | areg r => have := r.code_lt; simp only [MoveReg.code]; omega
  | idx n => have := n.isLt; simp only [MoveReg.code]; omega
  | guard x => exact absurd h (by simp [MoveReg.loopable])
  | _ => first | decide | exact absurd h (by decide)

theorem Cond.code_lt (c : Cond) : c.code < 64 := by cases c <;> decide

@[simp] theorem Cond.ofCode_code (c : Cond) : Cond.ofCode c.code = .ok c := by cases c <;> rfl

theorem JmpiStep.code_lt (m : JmpiStep) : m.code < 4 := by cases m <;> decide

@[simp] theorem JmpiStep.ofCode_code (m : JmpiStep) : JmpiStep.ofCode m.code = .ok m := by
  cases m <;> rfl

/-! ### Fields -/

theorem field_ofNat (n lo len : Nat) (h : n < 4294967296) :
    field (BitVec.ofNat 32 n) lo len = n / 2 ^ lo % 2 ^ len := by
  simp [field, Nat.mod_eq_of_lt h]

theorem FullMove.code_lt (m : FullMove) : m.code < 16384 := by
  have h1 := m.store.toNat_le
  have h2 := m.idx.isLt
  have h3 := m.post.isLt
  have h4 := m.reg.code_lt
  simp only [FullMove.code]
  omega

theorem ShortMove.code_lt (m : ShortMove) : m.code < 256 := by
  have h1 := m.store.toNat_le
  have h2 := m.idx.isLt
  have h3 := m.star.toNat_le
  have h4 := m.reg.code_lt
  simp only [ShortMove.code]
  omega

theorem toNat_beq_one (b : Bool) : (b.toNat == 1) = b := by cases b <;> rfl

/-- A full move in bits 13:0 of a word. -/
theorem decodeFull_low (n : Nat) (m : FullMove) (hn : n < 4294967296)
    (h : n % 16384 = m.code) : decodeFull (BitVec.ofNat 32 n) 0 = .ok m := by
  have h1 := m.store.toNat_le
  have h2 := m.idx.isLt
  have h3 := m.post.isLt
  have h4 := m.reg.code_lt
  simp only [FullMove.code] at h
  have e1 : n / 2 ^ 0 % 2 ^ 6 = m.reg.code := by omega
  have e2 : n / 2 ^ (0 + 13) % 2 ^ 1 = m.store.toNat := by omega
  have e3 : n / 2 ^ (0 + 10) % 2 ^ 3 = m.idx.val := by omega
  have e4 : n / 2 ^ (0 + 6) % 2 ^ 4 = m.post.toNat := by omega
  simp only [decodeFull, field_ofNat n _ _ hn, e1, e2, e3, e4, MoveReg.ofCode_code,
    toNat_beq_one, BitVec.ofNat_toNat, BitVec.setWidth_eq]
  simp

/-- A full move in bits 27:14 of a word. -/
theorem decodeFull_high (n : Nat) (m : FullMove) (hn : n < 4294967296)
    (h : n / 16384 % 16384 = m.code) : decodeFull (BitVec.ofNat 32 n) 14 = .ok m := by
  have h1 := m.store.toNat_le
  have h2 := m.idx.isLt
  have h3 := m.post.isLt
  have h4 := m.reg.code_lt
  simp only [FullMove.code] at h
  have e1 : n / 2 ^ 14 % 2 ^ 6 = m.reg.code := by omega
  have e2 : n / 2 ^ (14 + 13) % 2 ^ 1 = m.store.toNat := by omega
  have e3 : n / 2 ^ (14 + 10) % 2 ^ 3 = m.idx.val := by omega
  have e4 : n / 2 ^ (14 + 6) % 2 ^ 4 = m.post.toNat := by omega
  simp only [decodeFull, field_ofNat n _ _ hn, e1, e2, e3, e4, MoveReg.ofCode_code,
    toNat_beq_one, BitVec.ofNat_toNat, BitVec.setWidth_eq]
  simp

/-- A short move in bits 7:0. -/
theorem decodeShort_low (n : Nat) (m : ShortMove) (hn : n < 4294967296)
    (h : n % 256 = m.code) : decodeShort (BitVec.ofNat 32 n) 0 = m := by
  have h1 := m.store.toNat_le
  have h2 := m.idx.isLt
  have h3 := m.star.toNat_le
  have h4 := m.reg.code_lt
  simp only [ShortMove.code] at h
  have e1 : n / 2 ^ 0 % 2 ^ 3 = m.reg.code := by omega
  have e2 : n / 2 ^ (0 + 7) % 2 ^ 1 = m.store.toNat := by omega
  have e3 : n / 2 ^ (0 + 4) % 2 ^ 3 = m.idx.val := by omega
  have e4 : n / 2 ^ (0 + 3) % 2 ^ 1 = m.star.toNat := by omega
  simp only [decodeShort, field_ofNat n _ _ hn, e1, e2, e3, e4, AReg.ofCode_code, toNat_beq_one]
  simp

/-- A short move in bits 15:8. -/
theorem decodeShort_high (n : Nat) (m : ShortMove) (hn : n < 4294967296)
    (h : n / 256 % 256 = m.code) : decodeShort (BitVec.ofNat 32 n) 8 = m := by
  have h1 := m.store.toNat_le
  have h2 := m.idx.isLt
  have h3 := m.star.toNat_le
  have h4 := m.reg.code_lt
  simp only [ShortMove.code] at h
  have e1 : n / 2 ^ 8 % 2 ^ 3 = m.reg.code := by omega
  have e2 : n / 2 ^ (8 + 7) % 2 ^ 1 = m.store.toNat := by omega
  have e3 : n / 2 ^ (8 + 4) % 2 ^ 3 = m.idx.val := by omega
  have e4 : n / 2 ^ (8 + 3) % 2 ^ 1 = m.star.toNat := by omega
  simp only [decodeShort, field_ofNat n _ _ hn, e1, e2, e3, e4, AReg.ofCode_code, toNat_beq_one]
  simp

theorem PMove.code_lt (pm : PMove) (low : Nat) (h : pm.code = some low) : low < 131072 := by
  cases pm with
  | full b m =>
    have := m.code_lt
    cases b <;> simp only [PMove.code, Option.some.injEq] at h <;> omega
  | short x y =>
    have h1 := x.code_lt
    have h2 := y.code_lt
    simp only [PMove.code, Option.some.injEq] at h
    omega
  | uncoded m => simp [PMove.code] at h

/-- A word whose bits 16:0 hold a parallel move's code reads as that move. -/
theorem decodePMove_of_code (n : Nat) (pm : PMove) (low : Nat) (hn : n < 4294967296)
    (hc : pm.code = some low) (h : n % 131072 = low) :
    decodePMove (BitVec.ofNat 32 n) = .ok pm := by
  unfold decodePMove
  cases pm with
  | full b m =>
    have hm := m.code_lt
    cases b with
    | x =>
      simp only [PMove.code, Option.some.injEq] at hc
      have e1 : n / 2 ^ 16 % 2 ^ 1 = 0 := by omega
      have e2 : n / 2 ^ 15 % 2 ^ 1 = 0 := by omega
      have e3 : n / 2 ^ 14 % 2 ^ 1 = 0 := by omega
      simp only [field_ofNat n _ _ hn, e1, e2, e3, decodeFull_low n m hn (by omega)]
      rfl
    | y =>
      simp only [PMove.code, Option.some.injEq] at hc
      have e1 : n / 2 ^ 16 % 2 ^ 1 = 0 := by omega
      have e2 : n / 2 ^ 15 % 2 ^ 1 = 0 := by omega
      have e3 : n / 2 ^ 14 % 2 ^ 1 = 1 := by omega
      simp only [field_ofNat n _ _ hn, e1, e2, e3, decodeFull_low n m hn (by omega)]
      rfl
  | short x y =>
    have h1 := x.code_lt
    have h2 := y.code_lt
    simp only [PMove.code, Option.some.injEq] at hc
    have e1 : n / 2 ^ 16 % 2 ^ 1 = 1 := by omega
    simp only [field_ofNat n _ _ hn, e1, decodeShort_high n x hn (by omega),
      decodeShort_low n y hn (by omega)]
    rfl
  | uncoded m => simp [PMove.code] at hc

end Sys2Proof
end

