-- ==== Sys2Proof/Laws/Flow.lean ====
section
/-! SUPPORT. What the parts of a step around an instruction can change: the environment's part of a
boundary, the transfer of R32, and the violated restrictions. -/

namespace Sys2Proof.Machine

/-- The environment's part of a boundary changes the script, INTSM, the peripheral's bit and HLT. -/
theorem State.takeEvent_frame (s : State) :
    ∃ es im off h,
      s.takeEvent = { s with events := es, intsm := im, irqOff := off, hlt := h } := by
  unfold State.takeEvent State.receive
  split
  · exact ⟨_, _, _, _, rfl⟩
  · exact ⟨_, _, _, _, rfl⟩
  · split <;> exact ⟨_, _, _, _, rfl⟩
  · exact ⟨_, _, _, _, rfl⟩

/-- HLT changes at a boundary only where the core waits. -/
theorem State.takeEvent_hlt (s : State) (h : s.hlt ≠ .waiting) : s.takeEvent.hlt = s.hlt := by
  unfold State.takeEvent State.receive
  split
  · rfl
  · rfl
  · split
    · simp
    · rfl
  · rfl

/-- The environment does not change what is fetched. -/
theorem State.fetch_takeEvent (s : State) : s.takeEvent.fetch = s.fetch := by
  obtain ⟨es, im, off, h, e⟩ := s.takeEvent_frame
  rw [e]; rfl

/-- A boundary that runs an instruction fetches after the environment has acted. -/
theorem step_of_runs (s : State) (h : s.runs = true) : step s = s.takeEvent.runNext := by
  simp only [State.runs, Bool.and_eq_true, Bool.not_eq_true', bne_iff_ne, ne_eq,
    Option.isNone_iff_eq_none] at h
  obtain ⟨⟨hr, he⟩, hw⟩ := h
  rcases step_cases s with ⟨h1, -⟩ | ⟨-, ⟨v, h1, -⟩ | ⟨-, h1, -⟩ | ⟨-, -, h1⟩⟩
  · exact absurd (hr.symm.trans h1) (by decide)
  · exact absurd (he.symm.trans h1) (by simp)
  · exact absurd h1 hw
  · exact h1

/-- The transfer changes PC, DS and, with a page, IPR0. -/
theorem State.transfer_frame (t : State) :
    ∃ pc page op ds,
      t.transfer = { t with pc := pc, ipr0 := page, pageOpen := op, ds := ds } := by
  unfold State.transfer
  split
  · split <;> exact ⟨_, _, _, _, rfl⟩
  · split <;> exact ⟨_, _, _, _, rfl⟩

/-- Violated restrictions change PC, DS, IPR0 and LC; LC only where R393 or R397 opens it. -/
theorem State.applyHazards_frame (t s : State) (k : Kind) :
    ∃ pc page ds lc,
      t.applyHazards s k = { t with pc := pc, ipr0 := page, ds := ds, lc := lc } ∧
      (t.loopHazard s k = false → lc = t.lc) := by
  unfold State.applyHazards
  cases h : t.loopHazard s k with
  | true =>
    rw [if_pos rfl]
    unfold State.flowHazard State.openLoop
    split <;> exact ⟨_, _, _, _, rfl, fun h' => absurd h' (by decide)⟩
  | false =>
    rw [if_neg (by decide)]
    unfold State.flowHazard
    split <;> exact ⟨_, _, _, _, rfl, fun _ => rfl⟩

/-- A transfer that loads no page leaves IPR0 and the page of the fetches alone. -/
theorem State.transfer_unpaged (t : State) (h : pagePending t.ds = false) :
    t.transfer.ipr0 = t.ipr0 ∧ t.transfer.pageOpen = t.pageOpen := by
  unfold State.transfer
  split
  · rename_i d hd
    split
    · rename_i pg hp
      simp [pagePending, hd, hp] at h
    · exact ⟨rfl, rfl⟩
  · split <;> exact ⟨rfl, rfl⟩

/-- Violated restrictions leave IPR0 alone where none is violated, or where no page is at stake. -/
theorem State.applyHazards_ipr0 (t s : State) (k : Kind)
    (h : (s.endHazard k = false ∧ s.slotHazard k = false) ∨
      (pagePending s.ds = false ∧ pageProduced t.xfer = false)) :
    (t.applyHazards s k).ipr0 = t.ipr0 := by
  have hf : (t.flowHazard s k).ipr0 = t.ipr0 := by
    unfold State.flowHazard
    rcases h with ⟨h1, h2⟩ | ⟨h1, h2⟩
    · simp [h1, h2]
    · split <;> simp [State.openFlow, h1, h2]
  unfold State.applyHazards
  split <;> exact hf

/-- Where no restriction is violated, the sequencing is the transfer and the closing alone. -/
theorem State.finish_orderly (s t : State) (k : Kind) (h : s.orderly t k) :
    s.finish t k = t.transfer.close s.mr0 k := by
  obtain ⟨h1, h2, h3⟩ := h
  simp [State.finish, State.applyHazards, State.loopHazard, State.flowHazard, h1, h2, h3]

end Sys2Proof.Machine
end

