-- ==== Sys2Proof/Laws/Frame.lean ====
section
/-! SUPPORT. The writes an instruction plans, and what a single write leaves alone. A frame over all
instructions follows from `exec_next`, `Instr.plan_mayWrite` and the frame of one write
(`State.writes_frame`, `State.writes_keeps`). -/

namespace Sys2Proof

open Machine

/-- The writes an instruction plans, read off its meaning. -/
def Instr.plan (i : Instr) (s : State) : Except Fault (List Write) :=
  match i with
  | .ldc const reg => .ok [.reg reg const]
  | .nop => .ok []
  | .jrcc cond => .ok (jumpWrites (s.takes cond) s.lr0 none)
  | .jrccOp1 cond page => .ok (jumpWrites (s.takes cond) s.lr0 (some (s.index page)))
  | .reti => .ok (s.returnWrites none)
  | .retiOp1 page => .ok (s.returnWrites (some (s.index page)))
  | .resp op1 op2 => .ok [.product (s.areg op2 ++ s.areg op1) none]
  | .loop last count => .ok [.loop (s.pc + 2) last (s.readReg .loop count), .clearL]
  | .jcc addr cond => .ok (jumpWrites (s.takes cond) addr none)
  | .callcc addr cond => .ok (.link (s.pc + 2) :: jumpWrites (s.takes cond) addr none)
  | .jmpi addr mm reg =>
      .ok [.index reg (jmpiStep mm (s.index reg)), .page0, .transfer (.immediate addr)]
  | .mvDouble xs xd ys yd => .ok (s.regMove .x xs xd ++ s.regMove .y ys yd)
  | .halt => .ok (if s.intsm = .idle then [.halt] else [])
  | .dmove x y => s.doubleMove x y
  | .ldx n post r => s.fullMove .x { store := false, idx := n, post := post, reg := r }
  | .stx n post r => s.fullMove .x { store := true, idx := n, post := post, reg := r }
  | .ldy n post r => s.fullMove .y { store := false, idx := n, post := post, reg := r }
  | .sty n post r => s.fullMove .y { store := true, idx := n, post := post, reg := r }
  | .add op1 op2 dst pm =>
      both (.ok (s.alu2 (fun _ a b => addCore s.mr0.s a b false) op1 op2 dst)) (s.parallel pm)
  | .sub op1 op2 dst pm =>
      both (.ok (s.alu2 (fun _ a b => subCore s.mr0.s a b true) op1 op2 dst)) (s.parallel pm)
  | .addc op1 op2 dst pm =>
      both (.ok (s.alu2 (fun _ a b => addCore s.mr0.s a b s.mr0.c) op1 op2 dst)) (s.parallel pm)
  | .subc op1 op2 dst pm =>
      both (.ok (s.alu2 (fun _ a b => subCore s.mr0.s a b s.mr0.c) op1 op2 dst)) (s.parallel pm)
  | .ashl op1 op2 dst pm =>
      both (.ok (s.alu1 (fun _ a => s.ashlOut a (s.operand16 op2).toInt) op1 dst)) (s.parallel pm)
  | .and op1 op2 dst pm =>
      both (.ok (s.alu2 (fun _ a b => logicOut (a &&& b)) op1 op2 dst)) (s.parallel pm)
  | .or op1 op2 dst pm =>
      both (.ok (s.alu2 (fun _ a b => logicOut (a ||| b)) op1 op2 dst)) (s.parallel pm)
  | .xor op1 op2 dst pm =>
      both (.ok (s.alu2 (fun _ a b => logicOut (a ^^^ b)) op1 op2 dst)) (s.parallel pm)
  | .mac op1 mm op2 acc pm =>
      both (.ok (s.accumulate (fun a p => addCore s.mr0.s a p false) op1 mm op2 acc))
        (s.parallel pm)
  | .msu op1 mm op2 acc pm =>
      both (.ok (s.accumulate (fun a p => subCore s.mr0.s a p true) op1 mm op2 acc))
        (s.parallel pm)
  | .abs op2 dst pm =>
      both (.ok (s.alu1 (fun _ b => absOut s.mr0.s (s.freeBit .absCarry) b) op2 dst))
        (s.parallel pm)
  | .asr op2 dst pm =>
      both (.ok (s.alu1 (fun _ b => shiftRightOut b.msb b) op2 dst)) (s.parallel pm)
  | .lsr op2 dst pm =>
      both (.ok (s.alu1 (fun _ b => shiftRightOut false b) op2 dst)) (s.parallel pm)
  | .lsrc op2 dst pm =>
      both (.ok (s.alu1 (fun _ b => shiftRightOut s.mr0.c b) op2 dst)) (s.parallel pm)
  | .exp op2 dst pm =>
      both (.ok (writeNarrow dst
        (if op2.wide then (expOut (s.operand40 op2).1).orV (s.operand40 op2).2
         else expOut (s.operand16 op2)))) (s.parallel pm)
  | .sat op2 dst pm =>
      both (.ok (writeWide dst ((satOut (s.operand40 op2).1).orV (s.operand40 op2).2)))
        (s.parallel pm)
  | .rnd op2 dst pm =>
      both (.ok (writeNarrow dst
        ((rndOut s.mr0.r (s.operand40 op2).1).orV (s.operand40 op2).2))) (s.parallel pm)
  | .nopMove pm => both (.ok []) (s.parallel pm)
  | .mul mm op2 op1 pm => both (.ok [s.multiply mm op1 op2]) (s.parallel pm)
  | .lsl op2 dst pm =>
      both (.ok (s.alu2 (fun _ a b => addCore s.mr0.s a b false) op2 op2 dst)) (s.parallel pm)
  | .lslc op2 dst pm =>
      both (.ok (s.alu2 (fun _ a b => addCore s.mr0.s a b s.mr0.c) op2 op2 dst)) (s.parallel pm)
  | .not op2 dst pm => both (.ok (s.alu1 (fun _ b => logicOut (~~~b)) op2 dst)) (s.parallel pm)
  | .parShort x y => s.doubleMove x.full y.full
  | .parFull b m => s.fullMove b m
  | .parUncoded m => s.uncodedMove m

/-- Every meaning runs its plan as one word, but for the unit rule of R283. -/
theorem exec_eq_runWord (i : Instr) (s : State) (hu : i.unitsDiffer = true) :
    exec i s = runWord i s (i.plan s) := by
  cases i with
  | mvDouble xs xd ys yd =>
    simp only [Instr.unitsDiffer, Bool.and_eq_true, Bool.not_eq_true'] at hu
    simp [exec, execMvDouble, hu.1, hu.2, Instr.plan]
  | _ => rfl

/-- Everything an instruction with a next state did: its plan's writes. -/
theorem exec_next (i : Instr) (s t : State) (h : exec i s = .next t) :
    i.WellFormed ∧ i.ConflictFree ∧ i.unitsDiffer = true ∧
      ∃ ws, i.plan s = .ok ws ∧ t = s.writes ws := by
  have hu : i.unitsDiffer = true := by
    cases i with
    | mvDouble xs xd ys yd =>
      simp only [exec, execMvDouble] at h
      simp only [Instr.unitsDiffer]
      revert h
      cases sameUnit xs xd <;> cases sameUnit ys yd <;> simp
    | _ => rfl
  rw [exec_eq_runWord i s hu, runWord_next_iff] at h
  exact ⟨h.1, h.2.1, hu, h.2.2⟩

/-! ### Which writes a plan holds -/

/-- What a write says of the instruction that plans it: its register is named as a destination, its
address is one the instruction stores to, its kind writes flags or P, and so on. -/
def Instr.mayWrite (i : Instr) (s : State) : Write → Prop
  | .result16 r _ => ∀ x ∈ r.targets, x ∈ i.written
  | .result40 x _ => ∀ y ∈ x.targets, y ∈ i.written
  | .reg r _ => ∀ x ∈ r.targets, x ∈ i.written
  | .index n _ => .step n ∈ i.written
  | .accLow x _ _ => ∀ y ∈ x.targets, y ∈ i.written
  | .link _ => .control .lr0 ∈ i.written
  | .loop _ _ _ => .control .ls ∈ i.written ∧ .control .le ∈ i.written ∧ .control .lc ∈ i.written
  | .page0 => .control .ipr0 ∈ i.written
  | .flags _ => i.writesFlags = true
  | .product _ _ => i.writesP = true
  | .data b key _ => (b.space, key) ∈ i.stores s
  | .code a _ => (.i, a.toNat) ∈ i.stores s
  | .lsup => .control .lc ∈ i.written ∨ .control .ls ∈ i.written ∨ .control .le ∈ i.written
  | .clearL => i.clearsL = true
  | .transfer _ => (kindOf i).isFlow = true
  | .halt => i = .halt

/-- Every write of a plan has a property, where the plan met no fault. -/
def plansOnly (P : Write → Prop) (p : Except Fault (List Write)) : Prop :=
  ∀ ws, p = .ok ws → ∀ w ∈ ws, P w

theorem plansOnly_ok (P : Write → Prop) (ws : List Write) :
    plansOnly P (.ok ws) ↔ ∀ w ∈ ws, P w := by
  simp [plansOnly]

theorem plansOnly_error (P : Write → Prop) (f : Fault) : plansOnly P (.error f) := by
  simp [plansOnly]

theorem plansOnly_both (P : Write → Prop) (p q : Except Fault (List Write)) (hp : plansOnly P p)
    (hq : plansOnly P q) : plansOnly P (both p q) := by
  intro ws hw
  obtain ⟨us, vs, rfl, rfl, rfl⟩ := (both_ok_iff ..).mp hw
  intro w h
  rcases List.mem_append.mp h with h | h
  · exact hp _ rfl w h
  · exact hq _ rfl w h

theorem postWrites_only (P : Write → Prop) (s : State) (port : Port) (n : IReg) (post : BitVec 4)
    (h : post ≠ 0 → ∀ v, P (.index n v)) : ∀ w ∈ s.postWrites port n post, P w := by
  unfold State.postWrites
  split
  · simp
  · rename_i hp
    intro w hw
    rw [List.mem_singleton.mp hw]
    exact h hp _

theorem lsupWrites_only (P : Write → Prop) (r : MoveReg)
    (h : r = .lc ∨ r = .ls ∨ r = .le → P .lsup) : ∀ w ∈ lsupWrites r, P w := by
  intro w hw
  cases r <;> simp [lsupWrites] at hw h <;> exact hw ▸ h

/-- What an access of a full move can write. -/
theorem fullAccess_only (P : Write → Prop) (s : State) (b : Bus) (m : FullMove)
    (hdata : m.reg ≠ .nop → m.store = true → ∀ v, P (.data b (s.index m.idx).toNat v))
    (hreg : m.reg ≠ .nop → m.store = false → ∀ v, P (.reg m.reg v))
    (hlsup : m.store = false → m.reg = .lc ∨ m.reg = .ls ∨ m.reg = .le → P .lsup) :
    plansOnly P (s.fullAccess b m) := by
  unfold State.fullAccess
  simp only
  split
  · simp [plansOnly_ok]
  rename_i hn
  split
  · rename_i hs
    split
    · rw [plansOnly_ok]
      intro w hw
      rw [List.mem_singleton.mp hw]
      exact hdata hn hs _
    · exact plansOnly_error _ _
  rename_i hs
  have hs : m.store = false := by simpa using hs
  split
  · simp [plansOnly_ok]
  split
  · exact plansOnly_error _ _
  · rw [plansOnly_ok]
    intro w hw
    rcases List.mem_cons.mp hw with rfl | h
    · exact hreg hn hs _
    · exact lsupWrites_only P m.reg (hlsup hs) w h

/-- What a register move can write. -/
theorem regMove_only (P : Write → Prop) (s : State) (port : Port) (src dst : MoveReg)
    (h : src ≠ .nop → ∀ v, P (.reg dst v)) : ∀ w ∈ s.regMove port src dst, P w := by
  unfold State.regMove
  split
  · simp
  · rename_i hn
    intro w hw
    rw [List.mem_singleton.mp hw]
    exact h hn _

/-- The writes of an instruction's moves: their destinations and stores are the instruction's. -/
structure Instr.Moves (i : Instr) (s : State) (targets : List Target)
    (stores : List (Space × Nat)) : Prop where
  written : ∀ x ∈ targets, x ∈ i.written
  stored : ∀ x ∈ stores, x ∈ i.stores s

theorem Instr.Moves.lsup {i : Instr} {s : State} {l : List Target} {st : List (Space × Nat)}
    (h : i.Moves s l st) (r : MoveReg) (hr : r = .lc ∨ r = .ls ∨ r = .le)
    (hl : ∀ x ∈ r.targets, x ∈ l) : i.mayWrite s .lsup := by
  rcases hr with rfl | rfl | rfl
  · exact .inl (h.written _ (hl _ (by simp [MoveReg.targets])))
  · exact .inr (.inl (h.written _ (hl _ (by simp [MoveReg.targets]))))
  · exact .inr (.inr (h.written _ (hl _ (by simp [MoveReg.targets]))))

theorem fullStep_mayWrite (i : Instr) (s : State) (b : Bus) (m : FullMove)
    (h : ∀ x ∈ m.targets, x ∈ i.written) : ∀ w ∈ s.fullStep b m, i.mayWrite s w := by
  unfold State.fullStep
  split
  · simp
  · rename_i hn
    exact postWrites_only _ s b.port m.idx m.post fun hp v =>
      h _ (by simp [FullMove.targets, hn, postTargets]; exact .inr hp)

theorem fullAccess_mayWrite (i : Instr) (s r : State) (b : Bus) (m : FullMove)
    (hr : ∃ l, r = { s with lsup := l }) (h : i.Moves s m.targets (s.fullStores b m)) :
    plansOnly (i.mayWrite s) (r.fullAccess b m) := by
  obtain ⟨l, rfl⟩ := hr
  refine fullAccess_only _ _ b m (fun hn hs v => ?_) (fun hn hs v x hx => ?_) (fun hs hr => ?_)
  · rw [State.index_congr s { s with lsup := l } rfl]
    exact h.stored _ (by simp [State.fullStores, hn, hs])
  · exact h.written _ (by simp [FullMove.targets, hn, hs]; exact .inl hx)
  · have hn : m.reg ≠ .nop := by rcases hr with h | h | h <;> rw [h] <;> decide
    exact h.lsup m.reg hr fun x hx => by simp [FullMove.targets, hn, hs]; exact .inl hx

theorem fullMove_mayWrite (i : Instr) (s : State) (b : Bus) (m : FullMove)
    (h : i.Moves s m.targets (s.fullStores b m)) :
    plansOnly (i.mayWrite s) (s.fullMove b m) :=
  plansOnly_both _ _ _ ((plansOnly_ok _ _).mpr (fullStep_mayWrite i s b m h.written))
    (fullAccess_mayWrite i s s b m ⟨s.lsup, rfl⟩ h)

theorem doubleMove_mayWrite (i : Instr) (s : State) (x y : FullMove)
    (h : i.Moves s (x.targets ++ y.targets) (s.fullStores .x x ++ s.fullStores .y y)) :
    plansOnly (i.mayWrite s) (s.doubleMove x y) := by
  have hx : i.Moves s x.targets (s.fullStores .x x) :=
    ⟨fun z hz => h.written z (List.mem_append.mpr (.inl hz)),
      fun z hz => h.stored z (List.mem_append.mpr (.inl hz))⟩
  have hy : i.Moves s y.targets (s.fullStores .y y) :=
    ⟨fun z hz => h.written z (List.mem_append.mpr (.inr hz)),
      fun z hz => h.stored z (List.mem_append.mpr (.inr hz))⟩
  refine plansOnly_both _ _ _ ((plansOnly_ok _ _).mpr fun w hw => ?_) (plansOnly_both _ _ _
    (fullAccess_mayWrite i s _ .x x (s.reading_frame x y) hx)
    (fullAccess_mayWrite i s _ .y y (s.reading_frame x y) hy))
  rcases List.mem_append.mp hw with hw | hw
  · exact fullStep_mayWrite i s .x x hx.written w hw
  · exact fullStep_mayWrite i s .y y hy.written w hw

theorem regMove_mayWrite (i : Instr) (s : State) (port : Port) (src dst : MoveReg)
    (h : ∀ x ∈ moveTargets src dst, x ∈ i.written) :
    ∀ w ∈ s.regMove port src dst, i.mayWrite s w :=
  regMove_only _ s port src dst fun hn _ x hx => h x (by simpa [moveTargets, hn] using hx)

theorem uncodedMove_mayWrite (i : Instr) (s : State) (m : UncodedMove)
    (h : i.Moves s m.targets (s.uncodedStores m)) :
    plansOnly (i.mayWrite s) (s.uncodedMove m) := by
  cases m with
  | regMove src dst => exact (plansOnly_ok _ _).mpr (regMove_mayWrite i s .x src dst h.written)
  | longX store r n =>
    simp only [State.uncodedMove, State.longMove]
    split
    · simp [plansOnly_ok]
    rename_i hn
    split
    · rename_i hs
      split
      · rw [plansOnly_ok]
        intro w hw
        rw [List.mem_singleton.mp hw]
        exact h.stored _ (by simp [State.uncodedStores, hn, hs, Bus.space])
      · exact plansOnly_error _ _
    rename_i hs
    split
    · simp [plansOnly_ok]
    split
    · exact plansOnly_error _ _
    · have ht : ∀ x ∈ r.targets, x ∈ (UncodedMove.longX store r n).targets := by
        simp [UncodedMove.targets, hs]
      rw [plansOnly_ok]
      intro w hw
      rcases List.mem_cons.mp hw with rfl | hl
      · exact fun x hx => h.written x (ht x hx)
      · exact lsupWrites_only _ r (fun hr => h.lsup r hr ht) w hl
  | ibus store x n post =>
    have hp := postWrites_only (i.mayWrite s) s .x n post
      (fun hp v => h.written _ (by simp [UncodedMove.targets, postTargets]; exact .inr hp))
    simp only [State.uncodedMove, State.ibusMove]
    split
    · split
      · rename_i hs
        rw [plansOnly_ok]
        intro w hw
        rcases List.mem_cons.mp hw with rfl | hl
        · exact h.stored _ (by simp [State.uncodedStores, hs, State.ibusAddress])
        · exact hp w hl
      · rename_i hs
        rw [plansOnly_ok]
        intro w hw
        rcases List.mem_cons.mp hw with rfl | hl
        · exact fun y hy => h.written y (by simp [UncodedMove.targets, hs]; exact .inl hy)
        · exact hp w hl
    · exact plansOnly_error _ _

theorem parallel_mayWrite (i : Instr) (s : State) (pm : PMove)
    (h : i.Moves s pm.targets (s.parallelStores pm)) :
    plansOnly (i.mayWrite s) (s.parallel pm) := by
  cases pm with
  | full b m => exact fullMove_mayWrite i s b m h
  | short x y => exact doubleMove_mayWrite i s x.full y.full h
  | uncoded m => exact uncodedMove_mayWrite i s m h

/-- The writes of a 40- or 16-bit result with its flags. -/
theorem alu2_mayWrite (i : Instr) (s : State) (f : (w : Nat) → BitVec w → BitVec w → AluOut w)
    (op1 op2 : AluSrc) (dst : AReg) (hf : i.writesFlags = true)
    (h : ∀ x ∈ resultTargets (wide2 op1 op2) dst, x ∈ i.written) :
    ∀ w ∈ s.alu2 f op1 op2 dst, i.mayWrite s w := by
  unfold State.alu2
  unfold resultTargets at h
  split
  · rename_i hw
    simp [writeWide, Instr.mayWrite, hf]
    simpa [hw] using h
  · rename_i hw
    simp [writeNarrow, Instr.mayWrite, hf]
    simpa [hw] using h

theorem alu1_mayWrite (i : Instr) (s : State) (f : (w : Nat) → BitVec w → AluOut w)
    (op2 : AluSrc) (dst : AReg) (hf : i.writesFlags = true)
    (h : ∀ x ∈ resultTargets op2.wide dst, x ∈ i.written) :
    ∀ w ∈ s.alu1 f op2 dst, i.mayWrite s w := by
  unfold State.alu1
  unfold resultTargets at h
  split
  · rename_i hw
    simp [writeWide, Instr.mayWrite, hf]
    simpa [hw] using h
  · rename_i hw
    simp [writeNarrow, Instr.mayWrite, hf]
    simpa [hw] using h

theorem writeWide_mayWrite (i : Instr) (s : State) (dst : AReg) (o : AluOut 40)
    (hf : i.writesFlags = true) (h : ∀ x ∈ resultTargets true dst, x ∈ i.written) :
    ∀ w ∈ writeWide dst o, i.mayWrite s w := by
  simp [writeWide, Instr.mayWrite, hf]
  simpa [resultTargets] using h

theorem writeNarrow_mayWrite (i : Instr) (s : State) (dst : AReg) (o : AluOut 16)
    (hf : i.writesFlags = true) (h : ∀ x ∈ resultTargets false dst, x ∈ i.written) :
    ∀ w ∈ writeNarrow dst o, i.mayWrite s w := by
  simp [writeNarrow, Instr.mayWrite, hf]
  simpa [resultTargets] using h

theorem accumulate_mayWrite (i : Instr) (s : State) (f : Long → Long → AluOut 40) (op1 : AReg)
    (mm : MulMode) (op2 acc : AReg) (hf : i.writesFlags = true) (hp : i.writesP = true)
    (h : ∀ x ∈ resultTargets true acc, x ∈ i.written) :
    ∀ w ∈ s.accumulate f op1 mm op2 acc, i.mayWrite s w := by
  intro w hw
  rcases List.mem_append.mp hw with hw | hw
  · exact writeWide_mayWrite i s acc _ hf h w hw
  · rw [List.mem_singleton.mp hw]
    exact hp

theorem jumpWrites_mayWrite (i : Instr) (s : State) (taken : Bool) (target : Word)
    (page : Option Word) (h : i.clearsL = true) :
    ∀ w ∈ jumpWrites taken target page, i.mayWrite s w := by
  have hk : (kindOf i).isFlow = true := by
    simp only [Instr.clearsL, beq_iff_eq] at h
    rw [h]; rfl
  unfold jumpWrites
  cases taken <;> simp [Instr.mayWrite, h, hk]

/-- An operation's writes and then a parallel move's. -/
theorem withParallel_mayWrite (i : Instr) (s : State) (op : List Write) (pm : PMove)
    (hop : ∀ w ∈ op, i.mayWrite s w) (h : i.Moves s pm.targets (s.parallelStores pm)) :
    plansOnly (i.mayWrite s) (both (.ok op) (s.parallel pm)) :=
  plansOnly_both _ _ _ ((plansOnly_ok _ _).mpr hop) (parallel_mayWrite i s pm h)

theorem mem_append_left' {α : Type} {l m : List α} : ∀ x ∈ l, x ∈ l ++ m :=
  fun _ h => List.mem_append.mpr (.inl h)

theorem mem_append_right' {α : Type} {l m : List α} : ∀ x ∈ m, x ∈ l ++ m :=
  fun _ h => List.mem_append.mpr (.inr h)

/-- Every write that an instruction plans is one it may perform. -/
theorem Instr.plan_mayWrite (i : Instr) (s : State) : plansOnly (i.mayWrite s) (i.plan s) := by
  cases i with
  | ldc c r => simp [Instr.plan, plansOnly_ok, Instr.mayWrite, Instr.written]
  | nop => simp [Instr.plan, plansOnly_ok]
  | jrcc c => exact (plansOnly_ok _ _).mpr (jumpWrites_mayWrite _ s _ _ _ rfl)
  | jrccOp1 c n => exact (plansOnly_ok _ _).mpr (jumpWrites_mayWrite _ s _ _ _ rfl)
  | reti => exact (plansOnly_ok _ _).mpr (jumpWrites_mayWrite _ s _ _ _ rfl)
  | retiOp1 n => exact (plansOnly_ok _ _).mpr (jumpWrites_mayWrite _ s _ _ _ rfl)
  | jcc a c => exact (plansOnly_ok _ _).mpr (jumpWrites_mayWrite _ s _ _ _ rfl)
  | callcc a c =>
    rw [Instr.plan, plansOnly_ok]
    intro w hw
    rcases List.mem_cons.mp hw with rfl | h
    · simp [Instr.mayWrite, Instr.written]
    · exact jumpWrites_mayWrite _ s _ _ _ rfl w h
  | resp op1 op2 => simp [Instr.plan, plansOnly_ok, Instr.mayWrite, Instr.writesP]
  | loop last c =>
    simp [Instr.plan, plansOnly_ok, Instr.mayWrite, Instr.written, Instr.clearsL, kindOf]
  | jmpi a mm n =>
    simp [Instr.plan, plansOnly_ok, Instr.mayWrite, Instr.written, kindOf, Kind.isFlow]
  | halt => rw [Instr.plan, plansOnly_ok]; split <;> simp [Instr.mayWrite]
  | mvDouble xs xd ys yd =>
    rw [Instr.plan, plansOnly_ok]
    intro w hw
    rcases List.mem_append.mp hw with h | h
    · exact regMove_mayWrite _ s _ _ _ mem_append_left' w h
    · exact regMove_mayWrite _ s _ _ _ mem_append_right' w h
  | dmove x y => exact doubleMove_mayWrite _ s _ _ ⟨fun _ h => h, fun _ h => h⟩
  | ldx n p r => exact fullMove_mayWrite _ s _ _ ⟨fun _ h => h, by simp [State.fullStores]⟩
  | ldy n p r => exact fullMove_mayWrite _ s _ _ ⟨fun _ h => h, by simp [State.fullStores]⟩
  | stx n p r => exact fullMove_mayWrite _ s _ _ ⟨fun _ h => h, fun _ h => h⟩
  | sty n p r => exact fullMove_mayWrite _ s _ _ ⟨fun _ h => h, fun _ h => h⟩
  | parShort x y => exact doubleMove_mayWrite _ s _ _ ⟨fun _ h => h, fun _ h => h⟩
  | parFull b m => exact fullMove_mayWrite _ s _ _ ⟨fun _ h => h, fun _ h => h⟩
  | parUncoded m => exact uncodedMove_mayWrite _ s _ ⟨fun _ h => h, fun _ h => h⟩
  | nopMove pm =>
    exact withParallel_mayWrite _ s _ pm (by simp) ⟨fun _ h => h, fun _ h => h⟩
  | mul mm a b pm =>
    exact withParallel_mayWrite _ s _ pm
      (by simp [State.multiply, Instr.mayWrite, Instr.writesP]) ⟨fun _ h => h, fun _ h => h⟩
  | mac a mm b d pm =>
    exact withParallel_mayWrite _ s _ pm
      (accumulate_mayWrite _ s _ _ _ _ _ rfl rfl mem_append_left')
      ⟨mem_append_right', fun _ h => h⟩
  | msu a mm b d pm =>
    exact withParallel_mayWrite _ s _ pm
      (accumulate_mayWrite _ s _ _ _ _ _ rfl rfl mem_append_left')
      ⟨mem_append_right', fun _ h => h⟩
  | exp b d pm =>
    exact withParallel_mayWrite _ s _ pm
      (writeNarrow_mayWrite _ s _ _ rfl mem_append_left') ⟨mem_append_right', fun _ h => h⟩
  | rnd b d pm =>
    exact withParallel_mayWrite _ s _ pm
      (writeNarrow_mayWrite _ s _ _ rfl mem_append_left') ⟨mem_append_right', fun _ h => h⟩
  | sat b d pm =>
    exact withParallel_mayWrite _ s _ pm
      (writeWide_mayWrite _ s _ _ rfl mem_append_left') ⟨mem_append_right', fun _ h => h⟩
  | lsl b d pm =>
    exact withParallel_mayWrite _ s _ pm
      (alu2_mayWrite _ s _ _ _ _ rfl
        (fun x h => mem_append_left' x (by simpa [wide2] using h)))
      ⟨mem_append_right', fun _ h => h⟩
  | lslc b d pm =>
    exact withParallel_mayWrite _ s _ pm
      (alu2_mayWrite _ s _ _ _ _ rfl
        (fun x h => mem_append_left' x (by simpa [wide2] using h)))
      ⟨mem_append_right', fun _ h => h⟩
  | ashl a b d pm | abs b d pm | asr b d pm | lsr b d pm | lsrc b d pm | not b d pm =>
    exact withParallel_mayWrite _ s _ pm (alu1_mayWrite _ s _ _ _ rfl mem_append_left')
      ⟨mem_append_right', fun _ h => h⟩
  | add a b d pm | sub a b d pm | addc a b d pm | subc a b d pm | and a b d pm | or a b d pm
  | xor a b d pm =>
    exact withParallel_mayWrite _ s _ pm (alu2_mayWrite _ s _ _ _ _ rfl mem_append_left')
      ⟨mem_append_right', fun _ h => h⟩

end Sys2Proof
end

