-- ==== Sys2Proof/Laws/Operands.lean ====
section
/-! SUPPORT. The parts of an accumulator and of a 32-bit word, and what they make together; MR0 on the
bus. -/

namespace Sys2Proof.Machine

theorem append_low (a b : Word) : (a ++ b : Code).extractLsb' 0 16 = b := by
  apply BitVec.eq_of_getLsbD_eq
  intro i hi
  rw [BitVec.getLsbD_extractLsb']
  refine (congrArg _ (BitVec.getLsbD_append (x := a) (y := b))).trans ?_
  simp [hi]

theorem append_high (a b : Word) : (a ++ b : Code).extractLsb' 16 16 = a := by
  apply BitVec.eq_of_getLsbD_eq
  intro i hi
  rw [BitVec.getLsbD_extractLsb']
  refine (congrArg _ (BitVec.getLsbD_append (x := a) (y := b))).trans ?_
  simp [hi]

/-- An accumulator as one number (R22). -/
theorem Accum.value_toNat (x : Accum) :
    x.value.toNat = x.x2.toNat * 2 ^ 32 + x.x1.toNat * 2 ^ 16 + x.x0.toNat := by
  have h0 := x.x0.isLt
  have e1 : (x.x1 ++ x.x0).toNat = x.x1.toNat * 2 ^ 16 + x.x0.toNat := by
    rw [BitVec.toNat_append, Nat.shiftLeft_eq, Nat.mul_comm, Nat.two_pow_add_eq_or_of_lt h0]
  have e2 := BitVec.toNat_append x.x2 (x.x1 ++ x.x0)
  rw [Nat.shiftLeft_eq, Nat.mul_comm, ← Nat.two_pow_add_eq_or_of_lt (x.x1 ++ x.x0).isLt, e1] at e2
  refine Eq.trans e2 ?_
  omega

/-- A 40-bit write is read back whole (R24). -/
theorem State.value_setLong (s : State) (x : Acc) (v : Long) :
    ((s.setLong x v).acc x).value = v := by
  apply BitVec.eq_of_toNat_eq
  have := v.isLt
  rw [Accum.value_toNat]
  simp [State.setLong]
  simp [Nat.shiftRight_eq_div_pow]
  omega

theorem getLsbD_setBit (w : Word) (p : Nat) (b : Bool) (q : Nat) (hp : p < 16) :
    (setBit w p b).getLsbD q = if q = p then b else w.getLsbD q := by
  have h1 : (1#16 <<< p).getLsbD q = decide (q = p) := by
    rw [BitVec.getLsbD_shiftLeft, BitVec.getLsbD_one, Bool.eq_iff_iff]
    simp
    omega
  unfold setBit
  cases b with
  | true =>
    rw [if_pos rfl, BitVec.getLsbD_or, h1]
    by_cases h : q = p <;> simp [h]
  | false =>
    rw [if_neg (by decide), BitVec.getLsbD_and, BitVec.getLsbD_not, h1]
    by_cases h : q = p
    · simp [h]
    · by_cases hq : q < 16
      · simp [h, hq]
      · simp [h, BitVec.getLsbD_of_ge w q (by omega)]

/-- The nine bits that a read of MR0 drives are the ones that a write of MR0 stores (R36). -/
theorem Mr0.unpack_pack (m : Mr0) (junk : Word) : Mr0.unpack (m.pack junk) = m := by
  have h : ∀ (w : Word) (p : Nat) (b : Bool) (q : Nat), p < 16 → q ≠ p →
      (setBit w p b).getLsbD q = w.getLsbD q := fun w p b q hp hq => by
    rw [getLsbD_setBit w p b q hp, if_neg hq]
  have h' : ∀ (w : Word) (p : Nat) (b : Bool), p < 16 → (setBit w p b).getLsbD p = b :=
    fun w p b hp => by rw [getLsbD_setBit w p b p hp, if_pos rfl]
  simp only [Mr0.unpack, Mr0.pack, mr0PosC, mr0PosE, mr0PosV, mr0PosN, mr0PosZ, mr0PosL,
    mr0PosS, mr0PosI, mr0PosR]
  simp (disch := decide) only [h, h']

end Sys2Proof.Machine
end

