-- ==== Sys2Proof/Laws/PerInstr.lean ====
section
/-! SUPPORT. Per instruction: the constructor that stands for the rows sharing a word (`Instr.canon`) is
its own representative, and it is well-formed exactly when the instruction is. -/

namespace Sys2Proof.Laws.CanonAgrees

open Sys2Proof

/-- `canon` is idempotent and keeps the reason, if any, for which an instruction is rejected. -/
def Statement (i : Instr) : Prop := i.canon.canon = i.canon ∧ i.canon.reject = i.reject

/-- A double full move has a representative: itself, or the one move that is left of it. -/
theorem canonDouble_agrees (x y : FullMove) :
    (canonDouble x y).canon = canonDouble x y ∧ (canonDouble x y).reject = none := by
  obtain ⟨xs, xi, xp, xr⟩ := x
  obtain ⟨ys, yi, yp, yr⟩ := y
  unfold canonDouble
  by_cases h1 : xr = .nop ∧ yr ≠ .nop
  · cases ys <;>
      simp [h1, Instr.canon, canonSingle, canonDouble, FullMove.moveNop, Instr.reject]
  · by_cases h2 : yr = .nop ∧ xr ≠ .nop
    · cases xs <;>
        simp [h2, Instr.canon, canonSingle, canonDouble, FullMove.moveNop, Instr.reject]
    · refine ⟨?_, ?_⟩
      · simp only [h1, h2, if_false, Instr.canon]
        simp [canonDouble, h1, h2]
      · simp only [h1, h2, if_false]
        rfl

theorem ldc a b : Statement (.ldc a b) := by
  by_cases h : b = .nop
  · subst h
    exact ⟨rfl, rfl⟩
  · simp [Statement, Instr.canon, Instr.reject, h]

theorem nop : Statement (.nop) := ⟨rfl, rfl⟩

theorem jrcc a : Statement (.jrcc a) := ⟨rfl, rfl⟩

theorem jrccOp1 a b : Statement (.jrccOp1 a b) := ⟨rfl, rfl⟩

theorem reti : Statement (.reti) := ⟨rfl, rfl⟩

theorem retiOp1 a : Statement (.retiOp1 a) := ⟨rfl, rfl⟩

theorem resp a b : Statement (.resp a b) := ⟨rfl, rfl⟩

theorem loop a b : Statement (.loop a b) := ⟨rfl, rfl⟩

theorem jcc a b : Statement (.jcc a b) := ⟨rfl, rfl⟩

theorem callcc a b : Statement (.callcc a b) := ⟨rfl, rfl⟩

theorem jmpi a b c : Statement (.jmpi a b c) := ⟨rfl, rfl⟩

theorem mvDouble a b c d : Statement (.mvDouble a b c d) := ⟨rfl, rfl⟩

theorem halt : Statement (.halt) := ⟨rfl, rfl⟩

theorem dmove a b : Statement (.dmove a b) := by
  exact canonDouble_agrees a b

theorem ldx a b c : Statement (.ldx a b c) := by
  exact canonDouble_agrees _ _

theorem stx a b c : Statement (.stx a b c) := by
  exact canonDouble_agrees _ _

theorem ldy a b c : Statement (.ldy a b c) := by
  exact canonDouble_agrees _ _

theorem sty a b c : Statement (.sty a b c) := by
  exact canonDouble_agrees _ _

theorem add a b c d : Statement (.add a b c d) := ⟨rfl, rfl⟩

theorem sub a b c d : Statement (.sub a b c d) := ⟨rfl, rfl⟩

theorem addc a b c d : Statement (.addc a b c d) := ⟨rfl, rfl⟩

theorem subc a b c d : Statement (.subc a b c d) := ⟨rfl, rfl⟩

theorem ashl a b c d : Statement (.ashl a b c d) := ⟨rfl, rfl⟩

theorem and a b c d : Statement (.and a b c d) := ⟨rfl, rfl⟩

theorem or a b c d : Statement (.or a b c d) := ⟨rfl, rfl⟩

theorem xor a b c d : Statement (.xor a b c d) := by
  by_cases h : a = .ones
  · subst h
    exact ⟨rfl, by simp [Instr.canon, Instr.reject, rejectAlu2, wide2, AluSrc.wide]⟩
  · simp [Statement, Instr.canon, Instr.reject, h]

theorem mac a b c d e : Statement (.mac a b c d e) := ⟨rfl, rfl⟩

theorem msu a b c d e : Statement (.msu a b c d e) := ⟨rfl, rfl⟩

theorem abs a b c : Statement (.abs a b c) := ⟨rfl, rfl⟩

theorem asr a b c : Statement (.asr a b c) := ⟨rfl, rfl⟩

theorem lsr a b c : Statement (.lsr a b c) := ⟨rfl, rfl⟩

theorem lsrc a b c : Statement (.lsrc a b c) := ⟨rfl, rfl⟩

theorem exp a b c : Statement (.exp a b c) := ⟨rfl, rfl⟩

theorem sat a b c : Statement (.sat a b c) := ⟨rfl, rfl⟩

theorem rnd a b c : Statement (.rnd a b c) := ⟨rfl, rfl⟩

theorem nopMove a : Statement (.nopMove a) := ⟨rfl, rfl⟩

theorem mul a b c d : Statement (.mul a b c d) := ⟨rfl, rfl⟩

theorem lsl a b c : Statement (.lsl a b c) := by
  exact ⟨rfl, by simp [Instr.canon, Instr.reject, rejectAlu2, rejectDoubled, wide2]⟩

theorem lslc a b c : Statement (.lslc a b c) := by
  exact ⟨rfl, by simp [Instr.canon, Instr.reject, rejectAlu2, rejectDoubled, wide2]⟩

theorem not a b c : Statement (.not a b c) := ⟨rfl, rfl⟩

theorem parShort a b : Statement (.parShort a b) := ⟨rfl, rfl⟩

theorem parFull a b : Statement (.parFull a b) := ⟨rfl, rfl⟩

theorem parUncoded a : Statement (.parUncoded a) := ⟨rfl, rfl⟩

end Sys2Proof.Laws.CanonAgrees
end

