-- ==== Sys2Proof/Tests/Slice0.lean ====
section
/-! SUPPORT. Tests: the well-formedness smoke, words written out from the spec's encodings, single steps
with the expected values of `95_test_vectors.md` (part 2 unless a comment says otherwise) or of the
rule a comment names, and a witness for the hypotheses of every statement that has some. -/

namespace Sys2Proof.Tests

open Sys2Proof Sys2Proof.Machine

/-! ### Helpers -/

/-- The state the vectors start from: reset, the word at address 0x0100. -/
def base : State := { State.reset with pc := 0x0100 }

/-- What `f` sees after the one step that runs the word `w`; none where the machine stops. -/
def after {α : Type} (w : Nat) (s : State) (f : State → α) : Option α :=
  match step (s.withFetchWord 32 w) with
  | .next t => some (f t)
  | .fault _ => none
  | .refused _ => none

/-- What a meaning leaves, seen through `f`. -/
def left {α : Type} (i : Instr) (s : State) (f : State → α) : Option α :=
  match exec i s with
  | .next t => some (f t)
  | .fault _ => none
  | .refused _ => none

/-- Why the word `w` is refused, if it is. -/
def refusal (w : Nat) (s : State) : Option Refusal :=
  match step (s.withFetchWord 32 w) with
  | .refused r => some r
  | .next _ => none
  | .fault _ => none

/-- Z, N, V, E, C. -/
def znvec (s : State) : List Bool := [s.mr0.z, s.mr0.n, s.mr0.v, s.mr0.e, s.mr0.c]

/-- An accumulator from its three parts. -/
def parts (x2 : Byte) (x1 x0 : Word) : Accum := { x2 := x2, x1 := x1, x0 := x0 }

/-- `base` with accumulators A and B. -/
def withAB (a b : Accum) : State := { base with accA := a, accB := b }

/-- `base` with A1 and A0. -/
def withA (x1 x0 : Word) : State := { base with accA := parts 0 x1 x0 }

/-- MR0 with mode bits S and I, and C. -/
def modes (s i c : Bool) : Mr0 := { Mr0.zero with s := s, i := i, c := c }

/-- The flags set in MR0 and remembered in FPREV. -/
def withMr0 (s : State) (m : Mr0) : State := { s with mr0 := m, fprev := m }

/-- P under the modes of MR0. -/
def withP (s : State) (p : Code) : State := { s with p := p, pmode := some s.modes }

def putX (s : State) (a : Nat) (v : Word) : State := { s with xmem := Memory.set16 s.xmem a v }

def putY (s : State) (a : Nat) (v : Word) : State := { s with ymem := Memory.set16 s.ymem a v }

/-- LDX (I0),A0 ; LDY (I1),A0, the word 0x30000400: two writers of A0. -/
def twoLoads : Instr :=
  .dmove { store := false, idx := 0, post := 0, reg := .areg (.lo .a) }
    { store := false, idx := 1, post := 0, reg := .areg (.lo .a) }

/-- `base` with all of X and Y in ROM. -/
def inRom : State :=
  { base with plat := { Platform.default with regions :=
      [{ space := .x, base := 0, size := 65536, kind := .rom },
       { space := .y, base := 0, size := 65536, kind := .rom }] } }

/-- The move NOP as a parallel move: the no-move field 0x00024. -/
def still : PMove := .full .x .moveNop

/-! ### Ill-formed terms are refused, one for each check of WellFormed -/

theorem test_ill_formed_even_result :
    Instr.reject (.add (.acc .a) (.acc .b) (.lo .b) still) = some .reservedResult := by decide

theorem test_ill_formed_even_mac_result :
    Instr.reject (.mac (.lo .a) .ss (.hi .a) (.lo .b) still) = some .reservedResult := by decide

theorem test_ill_formed_product_as_op1 :
    Instr.reject (.sub .p (.reg (.lo .a)) (.hi .a) still) = some .reservedOperand := by decide

theorem test_ill_formed_lsl_of_product :
    Instr.reject (.lsl .p (.hi .a) still) = some .reservedOperand := by decide

theorem test_ill_formed_ashl_of_product :
    Instr.reject (.ashl .p (.reg (.lo .a)) (.hi .a) still) = some .reservedOperand := by decide

theorem test_ill_formed_wide_shift_count :
    Instr.reject (.ashl (.acc .a) (.acc .b) (.hi .a) still) = some .wideShiftCount := by decide

theorem test_ill_formed_narrow_sat :
    Instr.reject (.sat (.reg (.lo .a)) (.hi .a) still) = some .narrowSatRnd := by decide

theorem test_ill_formed_narrow_rnd :
    Instr.reject (.rnd (.reg (.lo .a)) (.lo .b) still) = some .narrowSatRnd := by decide

theorem test_ill_formed_loop_count_ipr0 :
    Instr.reject (.loop 0 .ipr0) = some .loopRegister := by decide

theorem test_ill_formed_two_writers :
    twoLoads.conflict = true := by decide

/-- D6, U15. -/
theorem test_stepped_and_loaded_is_one_writer :
    Instr.conflict (.ldx 0 1 (.idx 0)) = false := by decide

theorem test_well_formed_odd_result :
    (Instr.add (.acc .a) (.acc .b) (.hi .b) still).WellFormed := by decide

theorem test_refused_ill_formed :
    exec (.sat (.reg (.lo .a)) (.hi .a) still) base = .refused (.rejected .narrowSatRnd) := rfl

theorem test_refused_unit :
    exec (.mvDouble (.idx 0) (.idx 1) .lr0 (.areg (.lo .a))) base = .refused .unitRestriction := rfl

/-! ### Words written out from the encodings of `30_encoding.md` -/

/-- R109: LDC 1234,I0. -/
theorem test_decode_ldc :
    decode 0b000_0000000_0000010011010010_010000#32 =
      .ok (.ldc 1234 (.idx 0)) := rfl

/-- R121: LDC to the move NOP. -/
theorem test_decode_nop :
    decode 0b000_0000000_0000000000000000_100100#32 =
      .ok (.nop) := rfl

/-- R97: JRcc. -/
theorem test_decode_jrcc :
    decode 0b0010_0000_0_00000000000000000_010001#32 =
      .ok (.jrcc .cc) := rfl

/-- R97: JRcc (I5). -/
theorem test_decode_jrccOp1 :
    decode 0b0010_0000_1_00000000000000_101_000101#32 =
      .ok (.jrccOp1 .zs 5) := rfl

/-- R98: RETI. -/
theorem test_decode_reti :
    decode 0b0010_0001_0_00000000000000_000000000#32 =
      .ok (.reti) := rfl

/-- R318's example, RETI (I7). -/
theorem test_decode_retiOp1 :
    decode 0b0010_0001_1_00000000000000_111_000000#32 =
      .ok (.retiOp1 7) := rfl

/-- R228's example, RESP A0,A1. -/
theorem test_decode_resp :
    decode 0b0010_0010_0_001_000_00000000000000000#32 =
      .ok (.resp (.lo .a) (.hi .a)) := rfl

/-- R100: LOOP A0,0x0105. -/
theorem test_decode_loop :
    decode 0b0010_01_0000_0000000100000101_0_00000#32 =
      .ok (.loop 0x0105 (.areg (.lo .a))) := rfl

/-- R101: J 0x2120. -/
theorem test_decode_jcc :
    decode 0b0010_1000_00_0010000100100000_000000#32 =
      .ok (.jcc 0x2120 .always) := rfl

/-- R102: CALLGT 0x0200. -/
theorem test_decode_callcc :
    decode 0b0010_1001_00_0000001000000000_011001#32 =
      .ok (.callcc 0x0200 .gt) := rfl

/-- R321's example, JMPI 0x0100,(I6)+1. -/
theorem test_decode_jmpi :
    decode 0b0010_1010_00_0000000100000000_0_01_110#32 =
      .ok (.jmpi 0x0100 .inc 6) := rfl

/-- R96: HALT. -/
theorem test_decode_halt :
    decode 0b0010_1101_000000000000000000000000#32 =
      .ok (.halt) := rfl

/-- R114, X10: LDX (I6)-1,A0 ; LDY (I6),A1. -/
theorem test_decode_dmove :
    decode 0b0011_0_110_1111_000000_0_110_0000_000001#32 =
      .ok (.dmove { store := false, idx := 6, post := 15, reg := .areg (.lo .a) }
      { store := false, idx := 6, post := 0, reg := .areg (.hi .a) }) := rfl

/-- X6: LDX (I0)+5,A0. -/
theorem test_decode_ldx :
    decode 0b0011_0_000_0101_000000_0_000_0000_100100#32 =
      .ok (.ldx 0 5 (.areg (.lo .a))) := rfl

/-- STX LC,(I0)+1. -/
theorem test_decode_stx :
    decode 0b0011_1_000_0001_001101_0_000_0000_100100#32 =
      .ok (.stx 0 1 .lc) := rfl

/-- LDY (I1)*,A0. -/
theorem test_decode_ldy :
    decode 0b0011_0_000_0000_100100_0_001_1000_000000#32 =
      .ok (.ldy 1 8 (.areg (.lo .a))) := rfl

/-- STY IPR1,(I2)+1. -/
theorem test_decode_sty :
    decode 0b0011_0_000_0000_100100_1_010_0001_111111#32 =
      .ok (.sty 2 1 .ipr1) := rfl

/-- R92: ADD A,B0,A. -/
theorem test_decode_add :
    decode 0b0100_1100_0010_001_00_0_0_000_0000_100100#32 =
      .ok (.add (.acc .a) (.reg (.lo .b)) (.hi .a) still) := rfl

/-- X10: SUB A0,A1,B0 ; LDX (I1)-4,I0. -/
theorem test_decode_sub :
    decode 0b0110_0000_0001_010_00_0_0_001_1100_010000#32 =
      .ok (.sub (.reg (.lo .a)) (.reg (.hi .a)) (.lo .b)
      (.full .x { store := false, idx := 1, post := 12, reg := .idx 0 })) := rfl

/-- R92. -/
theorem test_decode_addc :
    decode 0b1000_0000_0001_010_00_0_0_000_0000_100100#32 =
      .ok (.addc (.reg (.lo .a)) (.reg (.hi .a)) (.lo .b) still) := rfl

/-- R92. -/
theorem test_decode_subc :
    decode 0b1001_0001_0011_001_00_0_0_000_0000_100100#32 =
      .ok (.subc (.reg (.hi .a)) (.reg (.hi .b)) (.hi .a) still) := rfl

/-- R92. -/
theorem test_decode_ashl :
    decode 0b1010_0000_1001_000_00_0_0_000_0000_100100#32 =
      .ok (.ashl (.reg (.lo .a)) .ones (.lo .a) still) := rfl

/-- R92. -/
theorem test_decode_and :
    decode 0b1011_1100_1101_101_00_0_0_000_0000_100100#32 =
      .ok (.and (.acc .a) (.acc .b) (.hi .c) still) := rfl

/-- R92. -/
theorem test_decode_or :
    decode 0b1100_0011_1000_011_00_0_0_000_0000_100100#32 =
      .ok (.or (.reg (.hi .b)) .null (.hi .b) still) := rfl

/-- R92. -/
theorem test_decode_xor :
    decode 0b1101_1000_1011_001_00_0_0_000_0000_100100#32 =
      .ok (.xor .null .p (.hi .a) still) := rfl

/-- R93, X10: MAC A0,A1,B ; LDX (I0)*,A0 ; LDY (I2)*,A1. -/
theorem test_decode_mac :
    decode 0b0101_000_00_001_011_1_0_000_1_000_0_010_1_001#32 =
      .ok (.mac (.lo .a) .ss (.hi .a) (.hi .b)
      (.short { store := false, idx := 0, star := true, reg := .lo .a }
        { store := false, idx := 2, star := true, reg := .hi .a })) := rfl

/-- R93. -/
theorem test_decode_msu :
    decode 0b0111_101_10_111_111_00_0_0_000_0000_100100#32 =
      .ok (.msu (.hi .c) .us (.hi .d) (.hi .d) still) := rfl

/-- R94. -/
theorem test_decode_abs :
    decode 0b1111_0000_1100_001_00_0_0_000_0000_100100#32 =
      .ok (.abs (.acc .a) (.hi .a) still) := rfl

/-- R94. -/
theorem test_decode_asr :
    decode 0b1111_0001_0000_000_00_0_0_000_0000_100100#32 =
      .ok (.asr (.reg (.lo .a)) (.lo .a) still) := rfl

/-- R94. -/
theorem test_decode_lsr :
    decode 0b1111_0010_0001_001_00_0_0_000_0000_100100#32 =
      .ok (.lsr (.reg (.hi .a)) (.hi .a) still) := rfl

/-- R94. -/
theorem test_decode_lsrc :
    decode 0b1111_0011_0000_000_00_0_0_000_0000_100100#32 =
      .ok (.lsrc (.reg (.lo .a)) (.lo .a) still) := rfl

/-- R94. -/
theorem test_decode_exp :
    decode 0b1111_0101_1100_010_00_0_0_000_0000_100100#32 =
      .ok (.exp (.acc .a) (.lo .b) still) := rfl

/-- R94. -/
theorem test_decode_sat :
    decode 0b1111_0110_1100_011_00_0_0_000_0000_100100#32 =
      .ok (.sat (.acc .a) (.hi .b) still) := rfl

/-- R94. -/
theorem test_decode_rnd :
    decode 0b1111_0111_1100_010_00_0_0_000_0000_100100#32 =
      .ok (.rnd (.acc .a) (.lo .b) still) := rfl

/-- R257: the parallel full move STY A0,(I3)+1, whose row shares the words of NOP beside a move. -/
theorem test_decode_nopMove :
    decode 0b1111_0100_0000_000_0_0_1_1_011_0001_000000#32 =
      .ok (.nopMove (.full .y { store := true, idx := 3, post := 1, reg := .areg (.lo .a) })) := rfl

/-- R255: the parallel short moves, beside the single-operand NOP. -/
theorem test_decode_parShort :
    decode 0b1111_0100_0000_000_1_0_000_1_000_0_010_1_001#32 =
      .ok (.nopMove (.short { store := false, idx := 0, star := true, reg := .lo .a }
        { store := false, idx := 2, star := true, reg := .hi .a })) := rfl

/-- R95: MULUS C1,D0. -/
theorem test_decode_mul :
    decode 0b1111_111_10_110_101_00_0_0_000_0000_100100#32 =
      .ok (.mul .us (.lo .d) (.hi .c) still) := rfl

/-- R153: the word of LSL A0,A0 is ADD's. -/
theorem test_decode_lsl :
    decode 0b0100_0000_0000_000_00_0_0_000_0000_100100#32 =
      .ok (.add (.reg (.lo .a)) (.reg (.lo .a)) (.lo .a) still) := rfl

/-- R154: the word of LSLC A,A is ADDC's. -/
theorem test_decode_lslc :
    decode 0b1000_1100_1100_001_00_0_0_000_0000_100100#32 =
      .ok (.addc (.acc .a) (.acc .a) (.hi .a) still) := rfl

/-- R184: NOT A0,A0 is XOR with ONES as Op1. -/
theorem test_decode_not :
    decode 0b1101_1001_0000_000_00_0_0_000_0000_100100#32 =
      .ok (.not (.reg (.lo .a)) (.lo .a) still) := rfl

theorem test_decode_table_word :
    decodeTableWord 32 0x60140024 = some (.sub (.reg (.lo .a)) (.reg (.hi .a)) (.lo .b) still) := rfl

/-- R108. -/
theorem test_decode_refuses_double_move :
    decode 0x2B000000#32 = .error .doubleMoveLayout := rfl

/-- R116. -/
theorem test_decode_refuses_parallel_01 :
    decode 0x40148000#32 = .error .parallelMoveLayout := rfl

/-- R91. -/
theorem test_decode_refuses_opcode :
    decode 0xE0000024#32 = .error .reservedOpcode := rfl

/-- R110. -/
theorem test_decode_refuses_register :
    decode 0x00048D0B#32 = .error .reservedRegister := rfl

/-- R117. -/
theorem test_decode_refuses_condition :
    decode 0x28000010#32 = .error .unlistedCondition := rfl

/-- R106. -/
theorem test_decode_refuses_jmpi_mode :
    decode 0x2A000010#32 = .error .jmpiMode := rfl

/-! ### Single steps -/

theorem test_step_add_saturates :
    after 0x40140024 (withMr0 (withA 1 0x7FFF) (modes true false false))
      (fun t => (t.accB.x0, znvec t)) =
      some (0x7FFF, [false, false, true, false, false]) := by decide

/-- B0 enters as 0xFF:8000:0000. -/
theorem test_step_add_wide_extends :
    after 0x4C220024 (withAB (parts 0 1 0) (parts 0 0 0x8000))
      (fun t => (t.accA, znvec t)) =
      some (parts 0xFF 0x8001 0, [false, true, false, false, false]) := by decide

theorem test_step_addc :
    after 0x80140024 (withMr0 (withA 0 0xFFFF) (modes false false true))
      (fun t => (t.accB.x0, znvec t)) =
      some (0, [true, false, false, false, true]) := by decide

theorem test_step_sub_overflows :
    after 0x60140024 (withA 1 0x8000)
      (fun t => (t.accB.x0, znvec t)) =
      some (0x7FFF, [false, false, true, false, true]) := by decide

/-- UM 6.2's combination. -/
theorem test_step_sub_with_move :
    after 0x60140710 (putX { withA 4 9 with idx := #v[0, 0x0100, 0, 0, 0, 0, 0, 0] } 0x0100 0xBEEF)
      (fun t => (t.accB.x0, t.index 0, t.index 1, znvec t)) =
      some (5, 0xBEEF, 0x00FC, [false, false, false, false, true]) := by decide

theorem test_step_subc_borrows :
    after 0x90140024 (withA 3 3)
      (fun t => (t.accB.x0, znvec t)) =
      some (0xFFFF, [false, true, false, false, false]) := by decide

/-- C is a free bit and is not looked at. -/
theorem test_step_abs_of_minimum :
    after 0xF0020024 (withA 0 0x8000)
      (fun t => (t.accA.x1, t.accA.x2, t.mr0.z, t.mr0.n, t.mr0.v)) =
      some (0x8000, 0xFF, false, true, true) := by decide

theorem test_step_lsl :
    after 0x40000024 (withA 0 0x8000)
      (fun t => (t.accA.x0, znvec t)) =
      some (0, [true, false, true, false, true]) := by decide

theorem test_exec_lsl_wide :
    left (.lsl (.acc .a) (.hi .a) still) (withAB (parts 0 0x8000 0) .zero)
      (fun t => (t.accA, znvec t)) =
      some (parts 1 0 0, [false, false, false, true, false]) := by decide

theorem test_exec_lslc :
    left (.lslc (.reg (.lo .a)) (.lo .a) still) (withMr0 (withA 0 0x8000) (modes false false true))
      (fun t => (t.accA.x0, znvec t)) =
      some (1, [false, false, true, false, true]) := by decide

theorem test_step_and_wide :
    after 0xBCDA0024 (withAB (parts 0x12 0xFFFF 0) (parts 0x0F 0x0F0F 0xFFFF))
      (fun t => (t.accC, znvec t)) =
      some (parts 0x02 0x0F0F 0, [false, false, false, true, false]) := by decide

theorem test_step_or_sets_guard :
    after 0xC3860024 (withAB .zero (parts 0 0x8000 0))
      (fun t => (t.accB, znvec t)) =
      some (parts 0xFF 0x8000 0, [false, true, false, false, false]) := by decide

theorem test_step_xor_of_saturating_product :
    after 0xD8B20024 (withP (withMr0 base (modes true false false)) 0x40000000)
      (fun t => (t.accA, znvec t)) =
      some (parts 0 0x7FFF 0xFFFF, [false, false, true, false, false]) := by decide

theorem test_step_not_wide :
    after 0xD9C20024 (withA 0 0xFFFF)
      (fun t => (t.accA, znvec t)) =
      some (parts 0xFF 0xFFFF 0, [false, true, false, false, false]) := by decide

theorem test_step_ashl_left :
    after 0xA0140024 (withA 0xF 1)
      (fun t => (t.accB.x0, znvec t)) =
      some (0x8000, [false, true, true, false, false]) := by decide

theorem test_step_ashl_right :
    after 0xA0140024 (withA 0xFFFF 0x8001)
      (fun t => (t.accB.x0, znvec t)) =
      some (0xC000, [false, true, false, false, true]) := by decide

theorem test_step_asr_wide :
    after 0xF1C20024 (withAB (parts 0x80 0 1) .zero)
      (fun t => (t.accA, znvec t)) =
      some (parts 0xC0 0 0, [false, true, false, true, true]) := by decide

theorem test_step_lsr_wide :
    after 0xF2C20024 (withAB (parts 0xFF 0xFFFF 0xFFFF) .zero)
      (fun t => (t.accA, znvec t)) =
      some (parts 0x7F 0xFFFF 0xFFFF, [false, false, false, true, true]) := by decide

theorem test_step_lsrc :
    after 0xF3000024 (withMr0 (withA 1 1) (modes false false true))
      (fun t => (t.accA.x0, znvec t)) =
      some (0x8000, [false, true, false, false, true]) := by decide

/-- The other counts depend on the open parameter expCount. -/
theorem test_step_exp_of_zero :
    after 0xF5040024 (withMr0 (withAB .zero (parts 0 0 7)) (modes false false true))
      (fun t => (t.accB.x0, znvec t)) =
      some (0, [true, false, false, false, false]) := by decide

theorem test_step_sat_negative :
    after 0xF6C20024 (withAB (parts 0xFF 0x7FFF 0xFFFF) .zero)
      (fun t => (t.accA, znvec t)) =
      some (parts 0xFF 0x8000 0, [false, true, true, false, false]) := by decide

theorem test_step_rnd_half_to_even :
    after 0xF7C40024 (withMr0 (withA 2 0x8000) { Mr0.zero with r := true })
      (fun t => (t.accB.x0, znvec t)) =
      some (2, [false, false, false, false, false]) := by decide

theorem test_step_rnd_towards_zero :
    after 0xF7C40024 (withAB (parts 0xFF 0xFFFE 1) .zero)
      (fun t => (t.accB.x0, znvec t)) =
      some (0xFFFF, [false, true, false, false, false]) := by decide

theorem test_step_mul_signed_unsigned :
    after 0xFE900024 (withA 0xFFFF 0xFFFF)
      (fun t => (t.p, t.pmode, znvec t)) =
      some (0xFFFF0001, some { s := false, i := false }, [false, false, false, false, false]) := by decide

theorem test_step_mac_adds_previous :
    after 0x50160024 (withP (withMr0 (withAB (parts 0 5 2) (parts 0 0 1)) (modes false true false)) 6)
      (fun t => (t.accB, t.p, znvec t)) =
      some (parts 0 0 7, 0xA, [false, false, false, false, false]) := by decide

theorem test_step_mac_fractional :
    after 0x50160024 (withP (withAB (parts 0 0x4000 0x4000) (parts 0 0x1000 0)) 0x10000000)
      (fun t => (t.accB, t.p)) =
      some (parts 0 0x3000 0, 0x10000000) := by decide

theorem test_step_msu_no_borrow :
    after 0x70160024 (withP (withMr0 (withA 3 3) (modes false true false)) 0)
      (fun t => (t.accB, t.p, znvec t)) =
      some (parts 0 0 0, 9, [true, false, false, false, true]) := by decide

theorem test_step_resp :
    after 0x22340000 { base with accB := parts 0 0xDEAD 0xBEEF, p := 1 }
      (fun t => (t.p, t.pmode)) =
      some (0xDEADBEEF, none) := by decide

theorem test_step_ldc_sign_extends :
    after 0x00200001 base
      (fun t => t.accA) =
      some (parts 0xFF 0x8000 0) := by decide

theorem test_step_ldc_guard :
    after 0x00007FE0 (withA 0x1234 0)
      (fun t => t.accA) =
      some (parts 0xFF 0x1234 0) := by decide

theorem test_step_nop :
    after 0x00000024 base
      (fun t => (t.pc, t.accA, t.mr0)) =
      some (0x0101, .zero, .zero) := by decide

theorem test_step_ldx :
    after 0x30500024 (putX { base with idx := #v[0x0100, 0, 0, 0, 0, 0, 0, 0] } 0x0100 0x1234)
      (fun t => (t.accA.x0, t.index 0)) =
      some (0x1234, 0x0105) := by decide

/-- Mode 100, size 10: no access. -/
theorem test_step_ldx_null_modulo :
    after 0x30830024 { base with idx := #v[0x1009, 0x8009, 0, 0, 0, 0, 0, 0] }
      (fun t => (t.index 0, t.xmem)) =
      some (0x1000, []) := by decide

/-- UM 3.1.3's first example. -/
theorem test_step_ldx_bit_reversed :
    after 0x30830024 { base with idx := #v[0x3030, 0xC020, 0, 0, 0, 0, 0, 0] }
      (fun t => t.index 0) =
      some 0x3008 := by decide

theorem test_step_ldy :
    after 0x30090600 (putY { base with idx := #v[0x1FFF, 0x0200, 0, 0, 0, 0, 0, 0] } 0x0200 7)
      (fun t => (t.accA.x0, t.index 1)) =
      some (7, 0x21FF) := by decide

theorem test_step_stx :
    after 0x38134024 { base with lc := 7, le := 0x0200, idx := #v[0x0010, 0, 0, 0, 0, 0, 0, 0] }
      (fun t => (t.word16 .x 0x0010, t.index 0)) =
      some (7, 0x0011) := by decide

/-- STY I7,(I7) ; LDX (I6)-1,I7. -/
theorem test_step_sty_and_load_same_register :
    after 0x36F5FC17 (putX { base with idx := #v[0, 0, 0, 0, 0, 0, 0x0801, 0x0900] } 0x0801 0x4444)
      (fun t => (t.word16 .y 0x0900, t.index 7, t.index 6)) =
      some (0x0900, 0x4444, 0x0800) := by decide

/-- R254. -/
theorem test_exec_sty :
    left (.sty 2 1 (.areg (.lo .a))) { withA 0 0x0AAA with idx := #v[0, 0, 0x0200, 0, 0, 0, 0, 0] }
      (fun t => (t.word16 .y 0x0200, t.index 2)) =
      some (0x0AAA, 0x0201) := by decide

/-- The store takes the old A0. -/
theorem test_step_double_move_reads_first :
    after 0x30702840 (putX { withA 0 0x0AAA with idx := #v[0x0100, 0, 0x0200, 0, 0, 0, 0, 0] } 0x0100 0x0BBB)
      (fun t => (t.word16 .y 0x0200, t.accA.x0, t.index 0, t.index 2)) =
      some (0x0AAA, 0x0BBB, 0x0107, 0x0201) := by decide

theorem test_step_short_moves :
    after 0xF4010829 (putY (putX { base with idx := #v[0x0100, 1, 0x0200, 0xFFFF, 0, 0, 0, 0] } 0x0100 0x1111)
        0x0200 0x2222)
      (fun t => (t.accA.x0, t.accA.x1, t.index 0, t.index 2)) =
      some (0x1111, 0x2222, 0x0101, 0x01FF) := by decide

/-- R255, R258. -/
theorem test_exec_parShort :
    left (.parShort { store := false, idx := 0, star := true, reg := .lo .a }
      { store := true, idx := 2, star := false, reg := .lo .a }) (putX { withA 0 9 with idx := #v[0x0100, 1, 0x0200, 0, 0, 0, 0, 0] } 0x0100 0x1111)
      (fun t => (t.accA.x0, t.word16 .y 0x0200, t.index 0, t.index 2)) =
      some (0x1111, 9, 0x0101, 0x0200) := by decide

/-- R254, R257. -/
theorem test_exec_parFull :
    left (.parFull .y { store := true, idx := 0, post := 15, reg := .lr0 }) { base with lr0 := 0x1234, idx := #v[0x0010, 0, 0, 0, 0, 0, 0, 0] }
      (fun t => (t.word16 .y 0x0010, t.index 0)) =
      some (0x1234, 0x000F) := by decide

/-- R282. -/
theorem test_exec_register_move :
    left (.parUncoded (.regMove (.areg (.hi .a)) (.idx 1))) (withA 0x1234 0)
      (fun t => (t.index 1, t.accA.x1)) =
      some (0x1234, 0x1234) := by decide

/-- R280: post-modification; the page of the address is free. -/
theorem test_exec_sti :
    left (.parUncoded (.ibus true .a 0 1)) { withA 0x1234 0x5678 with idx := #v[0x0010, 0, 0, 0, 0, 0, 0, 0] }
      (fun t => (t.index 0, t.sti1.isSome, t.accA.x1)) =
      some (0x0011, true, 0x1234) := by decide

/-- R283: both sources are read before a target is written. -/
theorem test_exec_mvDouble :
    left (.mvDouble (.areg (.lo .a)) (.idx 0) (.idx 0) (.areg (.lo .a))) { withA 0 5 with idx := #v[9, 0, 0, 0, 0, 0, 0, 0] }
      (fun t => (t.index 0, t.accA.x0)) =
      some (5, 9) := by decide

/-- The move into MR0 wins over the ALU flags. -/
theorem test_exec_move_over_flags :
    left (.add (.reg (.lo .a)) (.reg (.hi .a)) (.lo .b)
      (.full .x { store := false, idx := 3, post := 0, reg := .mr0 })) (putX { withA 1 0xFFFF with idx := #v[0, 0, 0, 0x0020, 0, 0, 0, 0] } 0x0020 8)
      (fun t => (t.accB.x0, znvec t)) =
      some (0, [false, true, false, false, false]) := by decide

/-- R313: the delay slot comes next. -/
theorem test_step_jcc_taken :
    after 0x28008000 (withMr0 base { Mr0.zero with l := true })
      (fun t => (t.pc, t.ds, t.mr0.l)) =
      some (0x0101, some { target := 0x0200, page := none }, false) := by decide

/-- R313. -/
theorem test_step_jcc_not_taken :
    after 0x28008001 base
      (fun t => (t.pc, t.ds)) =
      some (0x0101, none) := by decide

/-- R314, D30: not taken, LR0 is written all the same. -/
theorem test_step_callcc_writes_lr0 :
    after 0x29008001 base
      (fun t => (t.pc, t.ds, t.lr0)) =
      some (0x0101, none, 0x0102) := by decide

/-- R315. -/
theorem test_step_jrcc :
    after 0x20000000 { base with lr0 := 0x0300 }
      (fun t => (t.pc, t.ds)) =
      some (0x0101, some { target := 0x0300, page := none }) := by decide

/-- R316: JR (I5). -/
theorem test_step_jrccOp1 :
    after 0x20800140 { base with lr0 := 0x0300, idx := #v[0, 0, 0, 0, 0, 2, 0, 0] }
      (fun t => t.ds) =
      some (some { target := 0x0300, page := some 2 }) := by decide

/-- R317. -/
theorem test_step_reti :
    after 0x21000000 (withMr0 { base with lr1 := 0x0300 } { Mr0.zero with l := true })
      (fun t => (t.ds, t.mr0.l)) =
      some (some { target := 0x0300, page := none }, false) := by decide

/-- R318: RETI (I7). -/
theorem test_step_retiOp1 :
    after 0x218001C0 { base with lr1 := 0x0300, idx := #v[0, 0, 0, 0, 0, 0, 0, 3] }
      (fun t => t.ds) =
      some (some { target := 0x0300, page := some 3 }) := by decide

/-- R321's example. -/
theorem test_step_jmpi :
    after 0x2A00400E { base with pc := 0x0020, ipr0 := 5, idx := #v[0, 0, 0, 0, 0, 0, 0x07FF, 0] }
      (fun t => (t.pc, t.ds, t.ipr0, t.index 6)) =
      some (0x0100, none, 0, 0x0800) := by decide

/-- R325. -/
theorem test_step_loop :
    after 0x24004140 (withMr0 (withA 0 3) { Mr0.zero with l := true })
      (fun t => (t.lc, t.le, t.ls, t.mr0.l, t.pc)) =
      some (3, 0x0105, 0x0102, false, 0x0101) := by decide

/-- R326. -/
theorem test_step_loop_end :
    after 0x00000024 { base with lc := 2, le := 0x0100, ls := 0x00F0 }
      (fun t => (t.pc, t.lc)) =
      some (0x00F0, 1) := by decide

/-- R32, R319. -/
theorem test_step_delay_slot :
    after 0x00000024 { base with ds := some { target := 0x0200, page := some 1 }, prevk := .cof }
      (fun t => (t.pc, t.ipr0, t.ds)) =
      some (0x0200, 1, none) := by decide

/-- R330. -/
theorem test_step_halt_waits :
    after 0x2D000000 base
      (fun t => (t.hlt, t.pc)) =
      some (.waiting, 0x0101) := by decide

/-- R353, R321: the entry and the vector's JMPI 0x0100,(I6)+1. -/
theorem test_step_interrupt_entry :
    (match step { base with pc := 0x0300, intsm := .pending 2, imem := Memory.set32 [] 0x22 0x2A00400E } with
      | .next t => some (t.pc, t.index 6, t.lr1, t.mr0.l, t.intsm)
      | .fault _ => none
      | .refused _ => none) = some (0x0100, 1, 0x0300, true, .idle) := by decide

/-- LDX (I0)+1,I0 takes the loaded value (D6, U15). -/
theorem test_step_load_wins_over_step :
    after 0x30140024 (putX { base with idx := #v[0x0010, 0, 0, 0, 0, 0, 0, 0] } 0x0010 5)
      (fun t => t.index 0) =
      some 5 := by decide

/-- R67, R71. -/
theorem test_exec_store_to_rom :
    left (.stx 0 0 .lr0) { inRom with lr0 := 0x1234 }
      (fun t => t.word16 .x 0) =
      some 0x1234 := by decide

/-- R330. -/
theorem test_step_drain_counts :
    (match step { base.withFetchWord 32 0x24 with hlt := .draining 3 2, intsm := .pending 2 } with
      | .next t => some t.hlt
      | .fault _ => none
      | .refused _ => none) = some (.draining 2 2) := by decide

/-- R392: a jump with a page in the slot of one without. -/
theorem test_page_free_in_slot :
    (({ base with xfer := .delayed 0x0300 (some 2) } : State).flowHazard
      { base with ds := some { target := 0x0200, page := none }, prevk := .cof } .cof).ipr0 =
      base.free .flowIpr0 16 := rfl

/-- R401, R397: LOOP A0,0x0101 directly after LDI or STI. -/
theorem test_step_loop_count_free_after_sti :
    after 0x24004040 { withA 0 3 with prevk := .ldsti }
      (fun t => t.lc) =
      some (base.free .flowLc 16) := rfl

/-- R398, R399: STX LC,(I0) ; LDY (I1),LS. -/
theorem test_reading_beside_loop_load :
    ({ base with npc := 0x0101, le := 0x0101, lc := 2, lsup := 1 } : State).nextTestFires = false ∧
      (({ base with npc := 0x0101, le := 0x0101, lc := 2, lsup := 1 } : State).reading
        { store := true, idx := 0, post := 0, reg := .lc }
        { store := false, idx := 1, post := 0, reg := .ls }).nextTestFires = true := by decide

/-- ADD A0,A1,A0 ; LDY (I2)+1,A0 (R259). -/
theorem test_step_refuses_conflict :
    refusal 0x40104840 base = some .writeConflict := by decide

theorem test_step_refuses_reserved_operand :
    refusal 0x40A40024 base = some (.rejected .reservedOperand) := by decide

/-! ### Hypotheses of the statements can be met -/

/-- An ALU word with a load beside it. -/
def addWithLoad : Instr :=
  .add (.reg (.lo .a)) (.reg (.hi .a)) (.lo .b)
    (.full .x { store := false, idx := 1, post := 12, reg := .idx 0 })

/-- The state in which the word at the program counter is the total NOP. -/
def atNop : State := base.withFetchWord 32 0x24

/-- The state in which a jump to 0x0200 stands at the program counter. -/
def atJump : State := base.withFetchWord 32 0x28008000

/-- The state in which a delay slot with the total NOP is next. -/
def inSlot : State := { atNop with ds := some { target := 0x0200, page := some 1 }, prevk := .cof }

/-- A delay slot of a jump without a page. -/
def unpagedSlot : State := { inSlot with ds := some { target := 0x0200, page := none } }

/-- A pending interrupt whose vector holds a JMPI. -/
def entering : State := { base with intsm := .pending 2, imem := Memory.set32 [] 0x22 0x2A00400E }

/-- An interrupt that waits for a delay slot. -/
def heldInSlot : State := { inSlot with intsm := .pending 2 }

/-- An interrupt that waits for the last instruction after a HALT. -/
def heldInDrain : State := { atNop with intsm := .pending 2, hlt := .draining 1 2 }

/-- An entry directly after a JMPI. -/
def afterJmpi : State := { entering with prevk := .jmpi }

/-- An entry whose vector holds no JMPI. -/
def badVector : State := { entering with imem := Memory.set32 [] 0x22 0x24 }

/-- An entry whose vector holds a JMPI word with mm = 10. -/
def reservedVector : State := { entering with imem := Memory.set32 [] 0x22 0x2A000010 }

/-- An index register that points at word 1. -/
def pointing : State := { base with idx := #v[1, 0, 0, 0, 0, 0, 0, 0] }

/-- A load at an address of X that is absent. -/
def atHole : State :=
  { base.withFetchWord 32 0x30500024 with plat :=
      { Platform.default with regions := [{ space := .x, base := 0, size := 65536, kind := .absent }] } }

/-- A platform without the first page of X, Y and I. -/
def hollow : Platform :=
  { Platform.default with regions :=
      [{ space := .x, base := 0, size := 65536, kind := .absent },
       { space := .y, base := 0, size := 65536, kind := .absent },
       { space := .i, base := 0, size := 65536, kind := .absent }] }

/-- An entry whose vector is not there. -/
def noVector : State := { entering with plat := hollow }

/-- A core that runs, or waits, while a request comes. -/
def asked (h : Hlt) (off : Bool) : State :=
  { base with hlt := h, irqOff := off, events := [.request 5, .quiet] }

theorem test_witness_encoded :
    addWithLoad.WellFormed ∧ encode addWithLoad = some 0x40140710 :=
  ⟨rfl, rfl⟩

theorem test_witness_decoded :
    ∃ i, decode 0x40140710#32 = .ok i :=
  ⟨_, rfl⟩

theorem test_witness_reserved_words :
    reservedWord 0x40A40024 = true ∧ reservedWord 0x40140024 = false :=
  by decide

theorem test_witness_instruction_fields :
    addWithLoad.WellFormed ∧ encode addWithLoad = some 0x40140710 ∧ (20, 4, 1) ∈ addWithLoad.fields ∧
      (10, 3, 1) ∈ addWithLoad.fields :=
  ⟨rfl, rfl, by decide, by decide⟩

theorem test_witness_reset_event :
    ({ base with events := [.reset, .quiet] } : State).events = .reset :: [.quiet] :=
  rfl

theorem test_witness_invariant :
    ∃ u, atNop.Inv ∧ step atNop = .next u :=
  ⟨_, ⟨rfl, rfl, rfl, rfl, rfl, rfl, rfl, rfl⟩, rfl⟩

theorem test_witness_frame_of_registers :
    (∃ t, exec addWithLoad base = .next t) ∧ .part .a 0 ∉ addWithLoad.written ∧
      .part .b 1 ∉ addWithLoad.written ∧ .part .b 2 ∉ addWithLoad.written ∧
      .index 2 ∉ addWithLoad.written ∧ .step 2 ∉ addWithLoad.written ∧
      .control .lr0 ∉ addWithLoad.written ∧
      .control .lr1 ∉ addWithLoad.written ∧ .control .ls ∉ addWithLoad.written ∧
      .control .le ∉ addWithLoad.written ∧ .control .lc ∉ addWithLoad.written ∧
      .control .ipr0 ∉ addWithLoad.written ∧ .control .ipr1 ∉ addWithLoad.written :=
  ⟨⟨_, rfl⟩, by decide⟩

theorem test_witness_frame_of_flags :
    (∃ t, exec (.jcc 0x0200 .always) base = .next t) ∧
      .control .mr0 ∉ (Instr.jcc 0x0200 .always).written ∧
      (Instr.jcc 0x0200 .always).writesFlags = false ∧ (Instr.jcc 0x0200 .always).writesP = false :=
  ⟨⟨_, rfl⟩, by decide⟩

theorem test_witness_frame_of_memory :
    (∃ t, exec (.stx 0 0 .lr0) pointing = .next t) ∧ (.x, 3 / cellsPerWord .x) ∈ (Instr.stx 0 0 .lr0).stores pointing ∧
      (.x, 4 / cellsPerWord .x) ∉ (Instr.stx 0 0 .lr0).stores pointing :=
  ⟨⟨_, rfl⟩, by decide⟩

theorem test_witness_frame_of_sequencing :
    (∃ t, exec addWithLoad base = .next t) ∧ (kindOf addWithLoad).isFlow = false ∧
      addWithLoad ≠ .halt ∧ .control .lc ∉ addWithLoad.written ∧
      .control .ls ∉ addWithLoad.written ∧ .control .le ∉ addWithLoad.written ∧
      addWithLoad.stores base = [] ∧ .control .ipr0 ∉ addWithLoad.written :=
  ⟨⟨_, rfl⟩, by decide⟩

theorem test_witness_runs_and_not :
    addWithLoad.Runs base ∧ ¬ (Instr.add .p .null (.lo .a) still).WellFormed :=
  ⟨⟨rfl, rfl, rfl, rfl⟩, by decide⟩

theorem test_witness_two_writers :
    twoLoads.WellFormed ∧ twoLoads.unitsDiffer = true ∧ twoLoads.conflict = true :=
  ⟨rfl, rfl, rfl⟩

theorem test_witness_refused_operands :
    (4 ≤ field 0x4B020024 28 4 ∧ field 0x4B020024 24 4 = 11) ∧
      (field 0xD0A40024 28 4 = 13 ∧ field 0xD0A40024 20 4 = 10) ∧
      (field 0x4A040024 28 4 = 4 ∧ field 0x4A040024 24 4 = 10) ∧
      (field 0xFDA40024 28 4 = 15 ∧ field 0xFDA40024 24 4 = 13 ∧ field 0xFDA40024 20 4 = 10) :=
  by decide

theorem test_witness_add_runs :
    (Instr.add (.acc .a) .p (.hi .b) still).Runs base ∧
      (Instr.addc (.reg (.lo .a)) .ones (.lo .d) (.full .x { store := false, idx := 1, post := 12, reg := .idx 0 })).Runs base ∧
      (Instr.sub (.acc .a) .p (.hi .b) still).Runs base ∧
      (Instr.subc (.reg (.lo .a)) .ones (.lo .d) (.full .x { store := false, idx := 1, post := 12, reg := .idx 0 })).Runs base :=
  ⟨⟨rfl, rfl, rfl, rfl⟩, ⟨rfl, rfl, rfl, rfl⟩, ⟨rfl, rfl, rfl, rfl⟩, ⟨rfl, rfl, rfl, rfl⟩⟩

theorem test_witness_doubled_runs :
    (Instr.lsl (.acc .d) (.hi .a) still).Runs base ∧
      (Instr.lslc (.reg (.hi .d)) (.lo .a) (.full .x { store := false, idx := 1, post := 12, reg := .idx 0 })).Runs base ∧
      (Instr.abs .p (.hi .a) still).Runs base :=
  ⟨⟨rfl, rfl, rfl, rfl⟩, ⟨rfl, rfl, rfl, rfl⟩, ⟨rfl, rfl, rfl, rfl⟩⟩

theorem test_witness_logic_runs :
    (Instr.and (.acc .a) .p (.hi .b) still).Runs base ∧
      (Instr.or (.reg (.lo .a)) .ones (.lo .d) (.full .x { store := false, idx := 1, post := 12, reg := .idx 0 })).Runs base ∧
      (Instr.xor (.acc .a) .p (.hi .b) still).Runs base ∧
      (Instr.not .null (.lo .a) still).Runs base :=
  ⟨⟨rfl, rfl, rfl, rfl⟩, ⟨rfl, rfl, rfl, rfl⟩, ⟨rfl, rfl, rfl, rfl⟩, ⟨rfl, rfl, rfl, rfl⟩⟩

theorem test_witness_shift_runs :
    (Instr.asr .p (.hi .a) still).Runs base ∧
      (Instr.lsr (.reg (.lo .a)) (.lo .a) still).Runs base ∧
      (Instr.lsrc (.acc .a) (.hi .d) still).Runs base :=
  ⟨⟨rfl, rfl, rfl, rfl⟩, ⟨rfl, rfl, rfl, rfl⟩, ⟨rfl, rfl, rfl, rfl⟩⟩

theorem test_witness_ashl_narrow_counts :
    (Instr.ashl (.reg (.lo .a)) (.reg (.hi .a)) (.lo .b) still).Runs (withA 15 1) ∧
      ((withA 15 1).operand16 (.reg (.hi .a))).toInt = 15 ∧
      ((withA 0xFFF1 1).operand16 (.reg (.hi .a))).toInt = -15 ∧
      ((withA 16 1).operand16 (.reg (.hi .a))).toInt = 16 ∧
      ((withA 0xFFF0 1).operand16 (.reg (.hi .a))).toInt = -16 :=
  ⟨⟨rfl, rfl, rfl, rfl⟩, by decide⟩

theorem test_witness_ashl_wide_counts :
    (Instr.ashl (.acc .a) (.reg (.lo .b)) (.hi .a) still).Runs base ∧
      ((withAB .zero (parts 0 0 39)).operand16 (.reg (.lo .b))).toInt = 39 ∧
      ((withAB .zero (parts 0 0 0xFFD9)).operand16 (.reg (.lo .b))).toInt = -39 ∧
      ((withAB .zero (parts 0 0 40)).operand16 (.reg (.lo .b))).toInt = 40 ∧
      ((withAB .zero (parts 0 0 0xFFD8)).operand16 (.reg (.lo .b))).toInt = -40 :=
  ⟨⟨rfl, rfl, rfl, rfl⟩, by decide⟩

theorem test_witness_count_and_round_runs :
    (Instr.exp (.acc .a) (.lo .a) still).Runs base ∧
      (Instr.exp .ones (.hi .a) still).Runs base ∧
      (Instr.sat .p (.hi .a) still).Runs base ∧
      (Instr.rnd (.acc .d) (.lo .b) still).Runs base :=
  ⟨⟨rfl, rfl, rfl, rfl⟩, ⟨rfl, rfl, rfl, rfl⟩, ⟨rfl, rfl, rfl, rfl⟩, ⟨rfl, rfl, rfl, rfl⟩⟩

theorem test_witness_multiplier_runs :
    (Instr.mul .su (.lo .a) (.hi .b) still).Runs base ∧
      (Instr.mac (.lo .a) .uu (.hi .a) (.hi .b) still).Runs base ∧
      (Instr.msu (.lo .a) .us (.hi .a) (.hi .d) still).Runs base :=
  ⟨⟨rfl, rfl, rfl, rfl⟩, ⟨rfl, rfl, rfl, rfl⟩, ⟨rfl, rfl, rfl, rfl⟩⟩

/-- P with the modes of its multiplication. -/
def product (s i : Bool) (p : Code) : State := withP (withMr0 base (modes s i false)) p

theorem test_witness_read_of_product :
    ((product true true 1).pmode = some (product true true 1).modes ∧ base.pmode = none) ∧
      (fits 32 (2 * (product false false 0x3FFFFFFF).p.toInt) = true ∧
        fits 32 (2 * (product false false 0xC0000000).p.toInt) = true) ∧
      (fits 32 (2 * (product true false 0x40000000).p.toInt) = false ∧
        fits 32 (2 * (product true false 0xBFFFFFFF).p.toInt) = false) ∧
      (product true false 0x40000000).mr0.s = true ∧
      (product false false 0x40000000).mr0.s = false :=
  by decide

theorem test_witness_resp_word :
    field 0x22100000 24 8 = 0x22 :=
  by decide

theorem test_witness_move_runs :
    (Instr.ldx 0 5 .mr0).Runs base ∧
      (Instr.ldy 1 8 .null).Runs base ∧
      (Instr.stx 2 15 (.guard .c)).Runs base ∧
      (Instr.sty 7 0 .ipr0).Runs base ∧
      (Instr.dmove { store := true, idx := 6, post := 1, reg := .lr0 }
        { store := false, idx := 5, post := 8, reg := .lc }).Runs base :=
  ⟨⟨rfl, rfl, rfl, rfl⟩, ⟨rfl, rfl, rfl, rfl⟩, ⟨rfl, rfl, rfl, rfl⟩, ⟨rfl, rfl, rfl, rfl⟩, ⟨rfl, rfl, rfl, rfl⟩⟩

theorem test_witness_parallel_move_runs :
    (Instr.parFull .y { store := true, idx := 0, post := 8, reg := .le }).Runs base ∧
      (Instr.parShort { store := true, idx := 0, star := true, reg := .lo .a }
        { store := false, idx := 1, star := false, reg := .hi .d }).Runs base ∧
      (Instr.parUncoded (.regMove .lr0 (.idx 0))).Runs base ∧
      (Instr.parUncoded (.longX false .lc 0)).Runs base ∧
      (Instr.parUncoded (.ibus false .a 0 8)).Runs base ∧
      (Instr.nopMove still).Runs base :=
  ⟨⟨rfl, rfl, rfl, rfl⟩, ⟨rfl, rfl, rfl, rfl⟩, ⟨rfl, rfl, rfl, rfl⟩, ⟨rfl, rfl, rfl, rfl⟩, ⟨rfl, rfl, rfl, rfl⟩, ⟨rfl, rfl, rfl, rfl⟩⟩

theorem test_witness_double_register_move :
    (Instr.mvDouble (.areg (.lo .a)) (.idx 0) .lr0 (.areg (.hi .a))).Runs base ∧
      (Instr.mvDouble (.idx 1) (.idx 0) .lr0 .null).unitsDiffer = false :=
  ⟨⟨rfl, rfl, rfl, rfl⟩, rfl⟩

theorem test_witness_ldc_clauses :
    (MoveReg.ipr1 ≠ .null ∧ MoveReg.ipr1 ≠ .nop ∧ MoveReg.ipr1 ≠ .lc ∧ MoveReg.ipr1 ≠ .mr0 ∧
      ∀ x, MoveReg.ipr1 ≠ .guard x) :=
  ⟨by decide, by decide, by decide, by decide, fun _ => nofun⟩

theorem test_witness_guard_clauses :
    Acc.a ≠ Acc.b :=
  by decide

theorem test_witness_store_then_load :
    base.kindAt .x (base.index 3).toNat = .ram ∧ inRom.kindAt .x (inRom.index 3).toNat = .rom ∧
      MoveReg.guard .a ≠ .null ∧ MoveReg.guard .a ≠ .nop ∧ MoveReg.mr0 ≠ .null ∧
      base.nextTestFires = false ∧ MoveReg.ipr1 ≠ .mr0 ∧ MoveReg.ipr1 ≠ .lc ∧
      ∀ x, MoveReg.ipr1 ≠ .guard x :=
  ⟨rfl, rfl, by decide, by decide, by decide, rfl, by decide, by decide, fun _ => nofun⟩

theorem test_witness_linear_steps :
    (7 : BitVec 4) ≠ 8 ∧ (9 : BitVec 4) ≠ 8 ∧ (8191#16).toNat < 8192 ∧ 57344 ≤ (57344#16).toNat :=
  by decide

theorem test_witness_modulo_ranges :
    (8192 ≤ (0x2000#16).toNat ∧ (0x3FFF#16).toNat < 16384) ∧
      (16384 ≤ (0x4000#16).toNat ∧ (0x7FFF#16).toNat < 32768) ∧
      (32768 ≤ (0x8000#16).toNat ∧ (0x9FFF#16).toNat < 40960) ∧
      (40960 ≤ (0xA000#16).toNat ∧ (0xBFFF#16).toNat < 49152) :=
  by decide

theorem test_witness_modulo_domain :
    (10 ≤ 2 ^ 4 ∧ 2 ^ 4 < 2 * 10 ∧ 8192 ≤ 2 ^ 13 ∧ 2 ^ 13 < 2 * 8192 ∧ 1 ≤ 2 ^ 0 ∧ 2 ^ 0 < 2 * 1) ∧
      modStep 0x1009 10 10 = some 0x1009 ∧ modStep 0x1000 (-10) 10 = some 0x1000 ∧
      modStep 0x100A 1 10 = none ∧ modStep 0x1000 11 10 = none ∧ modStep 0x1000 (-11) 10 = none :=
  by decide

theorem test_witness_bit_reversed_ranges :
    (0xC000#16).toNat % 8192 = 0 ∧
      (2 ^ 1 ≤ 2 * ((0xC001#16).toNat % 8192) ∧ (0xC001#16).toNat % 8192 < 2 ^ 1) ∧
      (2 ^ 13 ≤ 2 * ((0xDFFF#16).toNat % 8192) ∧ (0xDFFF#16).toNat % 8192 < 2 ^ 13) ∧
      49152 ≤ (0xC000#16).toNat ∧ (0xDFFF#16).toNat < 57344 :=
  by decide

theorem test_witness_stored_word :
    base.kindAt Bus.y.space 0xFFFF = .ram ∧ inRom.kindAt Bus.x.space 0 = .rom ∧ (Space.y = Bus.y.space → 131069 / 2 ≠ 0xFFFF) :=
  ⟨rfl, rfl, by decide⟩

theorem test_witness_absent_addresses :
    (({ base with plat := hollow } : State).kindAt .x 0xFFFF = .absent ∧
      ({ base with plat := hollow } : State).kindAt .y 0 = .absent ∧
      ({ base with plat := hollow } : State).kindAt .i 0x0100 = .absent ∧
      ({ base with plat := hollow } : State).runs = true ∧ base.pageOpen = false) ∧
      (Instr.ldx 0 1 .lr0).ConflictFree ∧ (Instr.ldy 0 1 .lr0).ConflictFree :=
  ⟨by decide, rfl, rfl⟩

theorem test_witness_conditions_both_ways :
    (Cond.holds .cs (modes false false true) = true ∧ Cond.holds .cs Mr0.zero = false) ∧
      base.fprev = base.mr0 ∧ Cond.ofCode 63 = .error .unlistedCondition ∧ Cond.ofCode 1 = .ok .cs :=
  ⟨by decide, rfl, rfl, rfl⟩

theorem test_witness_control_words :
    field 0x218001C0 24 8 = 0x21 ∧ field 0x2A000010 24 8 = 0x2A ∧ field 0x2A000010 3 2 = 2 :=
  by decide

theorem test_witness_loop_well_formed :
    (Instr.loop 0xFFFF (.idx 7)).WellFormed :=
  rfl

theorem test_witness_halt_either_way :
    base.intsm = .idle ∧ ({ base with intsm := .pending 0 } : State).intsm ≠ .idle :=
  by decide

theorem test_witness_runs_next :
    atNop.runsNext .nop ∧ ∃ t, exec .nop atNop.takeEvent.prepare = .next t :=
  ⟨⟨rfl, ⟨rfl, .inl rfl, by decide, by decide⟩, rfl⟩, _, rfl⟩

theorem test_witness_runs_next_fault :
    ∃ f, atHole.runsNext (.ldx 0 5 (.areg (.lo .a))) ∧
      exec (.ldx 0 5 (.areg (.lo .a))) atHole.takeEvent.prepare = .fault f :=
  ⟨_, ⟨rfl, ⟨rfl, .inl rfl, by decide, by decide⟩, rfl⟩, rfl⟩

theorem test_witness_runs_next_refusal :
    ∃ r, (base.withFetchWord 32 0x30000400).runsNext twoLoads ∧
      exec twoLoads (base.withFetchWord 32 0x30000400).takeEvent.prepare = .refused r :=
  ⟨_, ⟨rfl, ⟨rfl, .inl rfl, by decide, by decide⟩, rfl⟩, rfl⟩

theorem test_witness_orderly_slot :
    ∃ t, exec .nop inSlot.prepare = .next t ∧ inSlot.orderly t (kindOf .nop) ∧ inSlot.ds ≠ none :=
  ⟨_, rfl, ⟨rfl, rfl, rfl⟩, by decide⟩

theorem test_witness_orderly_sequential :
    ∃ t, exec .nop atNop.prepare = .next t ∧ atNop.orderly t (kindOf .nop) ∧
      atNop.ds = none ∧ t.xfer = .none :=
  ⟨_, rfl, ⟨rfl, rfl, rfl⟩, rfl, rfl⟩

theorem test_witness_orderly_jump :
    ∃ t, exec (.jcc 0x0200 .always) atJump.prepare = .next t ∧
      atJump.orderly t (kindOf (.jcc 0x0200 .always)) ∧ atJump.ds = none ∧
      t.xfer = .delayed 0x0200 none :=
  ⟨_, rfl, ⟨rfl, rfl, rfl⟩, rfl, rfl⟩

theorem test_witness_orderly_jmpi :
    ∃ t, exec (.jmpi 0x0200 .inc 6) base.prepare = .next t ∧
      base.orderly t (kindOf (.jmpi 0x0200 .inc 6)) ∧ base.ds = none ∧ t.xfer = .immediate 0x0200 :=
  ⟨_, rfl, ⟨rfl, rfl, rfl⟩, rfl, rfl⟩

theorem test_witness_orderly_drain :
    ∃ t, exec .nop heldInDrain.prepare = .next t ∧ heldInDrain.orderly t (kindOf .nop) ∧
      t.hlt = .draining 1 2 :=
  ⟨_, rfl, ⟨rfl, rfl, rfl⟩, rfl⟩

theorem test_witness_taken_jcc :
    (atJump).runsNext (.jcc 0x0200 .always) ∧ (atJump).jumpsTo (.jcc 0x0200 .always) { target := 0x0200, page := none } ∧
      (atJump).ds = none ∧ (atJump).slotHazard .cof = false ∧
      (atJump).endHazard .cof = false :=
  ⟨⟨rfl, ⟨rfl, .inl rfl, by decide, by decide⟩, rfl⟩, .inl ⟨.always, rfl, .inl ⟨.inl rfl, rfl⟩⟩, rfl, rfl, rfl⟩

theorem test_witness_taken_callcc :
    (base.withFetchWord 32 0x29008000).runsNext (.callcc 0x0200 .always) ∧ (base.withFetchWord 32 0x29008000).jumpsTo (.callcc 0x0200 .always) { target := 0x0200, page := none } ∧
      (base.withFetchWord 32 0x29008000).ds = none ∧ (base.withFetchWord 32 0x29008000).slotHazard .cof = false ∧
      (base.withFetchWord 32 0x29008000).endHazard .cof = false :=
  ⟨⟨rfl, ⟨rfl, .inl rfl, by decide, by decide⟩, rfl⟩, .inl ⟨.always, rfl, .inl ⟨.inr rfl, rfl⟩⟩, rfl, rfl, rfl⟩

theorem test_witness_taken_jrcc :
    (base.withFetchWord 32 0x20000000).runsNext (.jrcc .always) ∧ (base.withFetchWord 32 0x20000000).jumpsTo (.jrcc .always) { target := 0, page := none } ∧
      (base.withFetchWord 32 0x20000000).ds = none ∧ (base.withFetchWord 32 0x20000000).slotHazard .cof = false ∧
      (base.withFetchWord 32 0x20000000).endHazard .cof = false :=
  ⟨⟨rfl, ⟨rfl, .inl rfl, by decide, by decide⟩, rfl⟩, .inl ⟨.always, rfl, .inr (.inl ⟨rfl, rfl⟩)⟩, rfl, rfl, rfl⟩

theorem test_witness_taken_jrccOp1 :
    (base.withFetchWord 32 0x20800140).runsNext (.jrccOp1 .always 5) ∧ (base.withFetchWord 32 0x20800140).jumpsTo (.jrccOp1 .always 5) { target := 0, page := some 0 } ∧
      (base.withFetchWord 32 0x20800140).ds = none ∧ (base.withFetchWord 32 0x20800140).slotHazard .cof = false ∧
      (base.withFetchWord 32 0x20800140).endHazard .cof = false :=
  ⟨⟨rfl, ⟨rfl, .inl rfl, by decide, by decide⟩, rfl⟩, .inl ⟨.always, rfl, .inr (.inr ⟨5, rfl, rfl⟩)⟩, rfl, rfl, rfl⟩

theorem test_witness_taken_reti :
    (base.withFetchWord 32 0x21000000).runsNext (.reti) ∧ (base.withFetchWord 32 0x21000000).jumpsTo (.reti) { target := 0, page := none } ∧
      (base.withFetchWord 32 0x21000000).ds = none ∧ (base.withFetchWord 32 0x21000000).slotHazard .cof = false ∧
      (base.withFetchWord 32 0x21000000).endHazard .cof = false :=
  ⟨⟨rfl, ⟨rfl, .inl rfl, by decide, by decide⟩, rfl⟩, .inr (.inl ⟨rfl, rfl⟩), rfl, rfl, rfl⟩

theorem test_witness_taken_retiOp1 :
    (base.withFetchWord 32 0x218001C0).runsNext (.retiOp1 7) ∧ (base.withFetchWord 32 0x218001C0).jumpsTo (.retiOp1 7) { target := 0, page := some 0 } ∧
      (base.withFetchWord 32 0x218001C0).ds = none ∧ (base.withFetchWord 32 0x218001C0).slotHazard .cof = false ∧
      (base.withFetchWord 32 0x218001C0).endHazard .cof = false :=
  ⟨⟨rfl, ⟨rfl, .inl rfl, by decide, by decide⟩, rfl⟩, .inr (.inr ⟨7, rfl, rfl⟩), rfl, rfl, rfl⟩

theorem test_witness_taken_jump_slot :
    ∃ u t, step { atJump with imem := Memory.set32 atJump.imem 0x0101 0x24 } = .next u ∧
      u.runsNext .nop ∧ exec .nop u.takeEvent.prepare = .next t ∧ u.orderly t (kindOf .nop) :=
  ⟨_, _, rfl, ⟨rfl, ⟨rfl, .inl rfl, by decide, by decide⟩, rfl⟩, rfl, rfl, rfl, rfl⟩

theorem test_witness_loop_end_test :
    (({ base with le := 0x0100, lc := 1 } : State).pc = 0x0100 ∧ base.fprev.l = false ∧
      base.lsup ≠ 1 ∧ (1#16) ≠ 0) ∧ base.lc = 0 :=
  by decide

theorem test_witness_interrupt_entry :
    entering.resetDue = false ∧ entering.takeEvent.intsm = .pending 2 ∧ entering.ds = none ∧
      entering.takeEvent.hlt.allowsEntry = true ∧ entering.prevk ≠ .jmpi ∧ entering.plainVector 2 ∧
      decode (entering.word32 (32 + 2)) = .ok (.jmpi 0x0100 .inc 6) :=
  ⟨rfl, rfl, rfl, rfl, by decide, ⟨.inl rfl, by decide, by decide⟩, rfl⟩

theorem test_witness_unpredictable_entry_afterJmpi :
    afterJmpi.resetDue = false ∧ afterJmpi.takeEvent.intsm = .pending 2 ∧ afterJmpi.ds = none ∧
      afterJmpi.takeEvent.hlt.allowsEntry = true ∧ afterJmpi.prevk = .jmpi :=
  ⟨rfl, rfl, rfl, rfl, rfl⟩

theorem test_witness_unpredictable_entry_badVector :
    badVector.resetDue = false ∧ badVector.takeEvent.intsm = .pending 2 ∧ badVector.ds = none ∧
      badVector.takeEvent.hlt.allowsEntry = true ∧ badVector.prevk ≠ .jmpi ∧ badVector.plainVector 2 ∧
      field (badVector.word32 (32 + 2)) 24 8 ≠ 0x2A :=
  ⟨rfl, rfl, rfl, rfl, by decide, ⟨.inl rfl, by decide, by decide⟩, by decide⟩

theorem test_witness_unpredictable_entry_reservedVector :
    reservedVector.resetDue = false ∧ reservedVector.takeEvent.intsm = .pending 2 ∧ reservedVector.ds = none ∧
      reservedVector.takeEvent.hlt.allowsEntry = true ∧ reservedVector.prevk ≠ .jmpi ∧ reservedVector.plainVector 2 ∧
      field (reservedVector.word32 (32 + 2)) 24 8 = 0x2A ∧
      decode (reservedVector.word32 (32 + 2)) = .error .jmpiMode :=
  ⟨rfl, rfl, rfl, rfl, by decide, ⟨.inl rfl, by decide, by decide⟩, by decide, rfl⟩

theorem test_witness_unpredictable_entry_noVector :
    noVector.resetDue = false ∧ noVector.takeEvent.intsm = .pending 2 ∧ noVector.ds = none ∧
      noVector.takeEvent.hlt.allowsEntry = true ∧ noVector.prevk ≠ .jmpi ∧ noVector.kindAt .i (32 + 2) = .absent :=
  ⟨rfl, rfl, rfl, rfl, by decide, rfl⟩

theorem test_witness_return_state_step :
    ∃ u, atNop.resetDue = false ∧ step atNop = .next u :=
  ⟨_, rfl, rfl⟩

theorem test_witness_entry_held_off_in_slot :
    ∃ t, heldInSlot.resetDue = false ∧ heldInSlot.hlt ≠ .waiting ∧ heldInSlot.plainFetch ∧
      decode (heldInSlot.word32 heldInSlot.fetchAddress.toNat) = .ok .nop ∧
      exec .nop heldInSlot.takeEvent.prepare = .next t ∧ heldInSlot.ds ≠ none :=
  ⟨_, rfl, by decide, ⟨rfl, .inl rfl, by decide, by decide⟩, rfl, rfl, by decide⟩

theorem test_witness_entry_held_off_in_drain :
    ∃ t, heldInDrain.resetDue = false ∧ heldInDrain.hlt ≠ .waiting ∧ heldInDrain.plainFetch ∧
      decode (heldInDrain.word32 heldInDrain.fetchAddress.toNat) = .ok .nop ∧
      exec .nop heldInDrain.takeEvent.prepare = .next t ∧ ∃ k vec, heldInDrain.hlt = .draining k vec ∧ k ≠ 0 :=
  ⟨_, rfl, by decide, ⟨rfl, .inl rfl, by decide, by decide⟩, rfl, rfl, 1, 2, rfl, by decide⟩

theorem test_witness_halted :
    ((asked .waiting false).hlt = .waiting ∧ (asked .waiting false).intsm = .idle ∧
      (asked .waiting false).events = .request 5 :: [.quiet] ∧ (asked .waiting false).irqOff = false) ∧
      (asked .waiting true).irqOff = true ∧ ({ base with hlt := .waiting } : State).events = [] ∧
      ({ base with hlt := .waiting, events := [.quiet] } : State).events = .quiet :: [] :=
  ⟨⟨rfl, rfl, rfl, rfl⟩, rfl, rfl, rfl⟩

theorem test_witness_requests :
    ((asked .running false).hlt ≠ .waiting ∧ (asked .running false).intsm = .idle ∧
      (asked .running false).irqOff = false) ∧ (asked .running true).irqOff = true ∧
      ({ asked .running false with intsm := .pending 1 } : State).intsm ≠ .idle ∧
      base.kindAt Bus.y.space 0xC000 ≠ .absent ∧ base.plat.intGlobEna = (.y, 0xC000) :=
  ⟨⟨by decide, rfl, rfl⟩, rfl, by decide, by decide, rfl⟩

theorem test_witness_violated_restriction :
    inSlot.slotHazard .cof = true ∧ (atNop.endHazard .other = false ∧
      atNop.prepare.loopWriteHazard atNop.prepare.transfer = false ∧
      atNop.prepare.loopWriteHazard (atNop.prepare.transfer.flowHazard atNop .other) = false) ∧
      heldInDrain.hlt = .draining 1 2 :=
  by decide

theorem test_witness_page_not_at_stake :
    (unpagedSlot.slotHazard .cof = true ∧ pagePending unpagedSlot.ds = false ∧
      pageProduced unpagedSlot.xfer = false) ∧ (atNop.endHazard .other = false ∧
      atNop.slotHazard .other = false ∧ pagePending atNop.ds = false) :=
  by decide

end Sys2Proof.Tests
end

/-! RESP (R228): the word that decodes to it and its whole effect. -/

namespace Sys2Proof

/-- A field is its upper bits after its lower ones (R6). -/
theorem field_split (w : Code) (lo low high : Nat) :
    field w lo (low + high) = field w lo low + 2 ^ low * field w (lo + low) high := by
  simp only [field, pow_add, Nat.mod_mul, Nat.div_div_eq_div_mul]

/-- A word that starts with two known hexadecimal digits has them as its opcode (R91) and as the
digit below it. -/
theorem field_digits_of_byte (w : Code) (opcode digit : Nat) (hdigit : digit < 16)
    (h : field w 24 8 = digit + 16 * opcode) :
    field w 28 4 = opcode ∧ field w 24 4 = digit := by
  have hsplit : field w 24 8 = field w 24 4 + 16 * field w 28 4 := field_split w 24 4 4
  have hlow : field w 24 4 < 16 := Nat.mod_lt _ (by decide)
  omega

/-- Opcode 0010 is the control group (R96). -/
theorem decodeCore_of_control (w : Code) (h : field w 28 4 = 2) :
    decodeCore w = decodeControl w := by
  simp only [decodeCore, h]

/-- In the control group 0010 is RESP (R96, Table 3). -/
theorem decodeControl_of_resp (w : Code) (h : field w 24 4 = 2) :
    decodeControl w =
      .ok (.resp (AReg.ofCode (field w 17 3)) (AReg.ofCode (field w 20 3))) := by
  simp only [decodeControl, h]

/-- A word read as a well-formed instruction that is its own representative decodes to it. -/
theorem decode_of_decodeCore (w : Code) (i : Instr) (hcore : decodeCore w = .ok i)
    (hwf : i.reject = none) (hcanon : i.canon = i) : decode w = .ok i := by
  simp only [decode, hcore, hwf, hcanon]

/-- The words 0x22… are RESP, whatever their other bits (R228). -/
theorem decode_of_resp (w : Code) (h : field w 24 8 = 0x22) :
    decode w = .ok (.resp (AReg.ofCode (field w 17 3)) (AReg.ofCode (field w 20 3))) := by
  obtain ⟨hopcode, hdigit⟩ := field_digits_of_byte w 2 2 (by decide) h
  refine decode_of_decodeCore w _ ?_ rfl rfl
  rw [decodeCore_of_control w hopcode, decodeControl_of_resp w hdigit]

namespace Machine

/-- RESP runs in every state: P becomes Op2 above Op1, its modes are forgotten, and the rest of the
state stands (R228). -/
theorem exec_resp (op1 op2 : AReg) (s : State) :
    exec (.resp op1 op2) s =
      .next { s with p := s.areg op2 ++ s.areg op1, pmode := none } := by
  rw [exec_eq_runWord _ _ rfl, runWord_next_iff]
  exact ⟨rfl, rfl, _, rfl, rfl⟩

/-- Settles O33: the decoder's path to RESP, and the two halves of the product it restores. -/
theorem respRestoresProduct : Obligations.RespRestoresProduct :=
  ⟨decode_of_resp, fun op1 op2 s =>
    ⟨_, exec_resp op1 op2 s, append_low _ _, append_high _ _, rfl⟩⟩

end Machine

end Sys2Proof

/-! The move NOP (R264): it plans no writes and is no second writer, so a word whose moves are all
move NOPs leaves the state as it was. -/

namespace Sys2Proof

/-- A move NOP is no writer (R264), so it conflicts with no other part of its word. -/
theorem FullMove.targets_of_nop (m : FullMove) (h : m.reg = .nop) : m.targets = [] :=
  if_pos h

namespace Machine

/-- A move NOP steps no index register, whatever its post-modification code. -/
theorem State.fullStep_of_nop (s : State) (b : Bus) (m : FullMove) (h : m.reg = .nop) :
    s.fullStep b m = [] :=
  if_pos h

/-- A move NOP accesses no memory, so it cannot fault where none is there. -/
theorem State.fullAccess_of_nop (s : State) (b : Bus) (m : FullMove) (h : m.reg = .nop) :
    s.fullAccess b m = .ok [] :=
  if_pos h

theorem State.fullMove_of_nop (s : State) (b : Bus) (m : FullMove) (h : m.reg = .nop) :
    s.fullMove b m = .ok [] := by
  rw [State.fullMove, s.fullStep_of_nop b m h, s.fullAccess_of_nop b m h]
  rfl

/-- The accesses of a double move read in `State.reading`, but a move NOP reads nothing. -/
theorem State.doubleMove_of_nop (s : State) (x y : FullMove) (hx : x.reg = .nop)
    (hy : y.reg = .nop) : s.doubleMove x y = .ok [] := by
  simp only [State.doubleMove, State.fullStep_of_nop, State.fullAccess_of_nop, hx, hy]
  rfl

/-- Beside an operation a move NOP adds nothing to the state the operation leaves. -/
theorem State.applyMove_of_nop (t s : State) (b : Bus) (m : FullMove) (h : m.reg = .nop) :
    t.applyMove s b m = t := by
  have hstep : t.stepMove s b m = t := if_pos h
  have haccess : t.accessMove s b m = t := if_pos h
  rw [State.applyMove, hstep, haccess]

/-- An instruction that may run, whose plan writes nothing and which names no destination, does
nothing at all. -/
theorem exec_of_plan_nil (i : Instr) (s : State) (hunits : i.unitsDiffer = true)
    (hwf : i.WellFormed) (htargets : i.targets = []) (hplan : i.plan s = .ok []) :
    exec i s = .next s := by
  have hfree : i.ConflictFree := by simp only [Instr.ConflictFree, Instr.conflict, htargets]; rfl
  rw [exec_eq_runWord i s hunits, runWord_next_iff]
  exact ⟨hwf, hfree, [], hplan, rfl⟩

/-- LDC into the move NOP plans a register write, but that write changes nothing (R264). -/
theorem exec_ldc_nop (c : Word) (s : State) : exec (.ldc c .nop) s = .next s := by
  rw [exec_eq_runWord _ _ rfl, runWord_next_iff]
  exact ⟨rfl, rfl, _, rfl, rfl⟩

/-- Settles O37: every form of full move with the move NOP plans no writes; the LDC plans one that
changes nothing; and beside an operation the move leaves the operation's state. -/
theorem moveNopDoesNothing : Obligations.MoveNopDoesNothing := by
  intro st st' n n' post post' b c s m m'
  refine ⟨?dmove, ?ldx, ?stx, ?ldy, ?sty, ?parFull, ?nopMove, exec_ldc_nop c s,
    fun t => t.applyMove_of_nop s b m rfl⟩
  case dmove =>
    have htargets : (Instr.dmove m m').targets = [] := by
      rw [Instr.targets, m.targets_of_nop rfl, m'.targets_of_nop rfl]; rfl
    exact exec_of_plan_nil _ s rfl rfl htargets (s.doubleMove_of_nop m m' rfl rfl)
  case nopMove =>
    have hplan : (Instr.nopMove (.full b m)).plan s = .ok [] := by
      rw [Instr.plan, State.parallel, s.fullMove_of_nop b m rfl]; rfl
    exact exec_of_plan_nil _ s rfl rfl (m.targets_of_nop rfl) hplan
  all_goals
    exact exec_of_plan_nil _ s rfl rfl (FullMove.targets_of_nop _ rfl)
      (s.fullMove_of_nop _ _ rfl)

end Machine

end Sys2Proof

/-! RETI (R317, R318): the words that decode to its two forms, and the writes both plan. -/

namespace Sys2Proof

/-- In the control group 0001 is RETI, and bit 23 selects the form with a page (R98). -/
theorem decodeControl_of_return (w : Code) (h : field w 24 4 = 1) :
    decodeControl w =
      .ok (if field w 23 1 = 1 then .retiOp1 (Fin.ofNat 8 (field w 6 3)) else .reti) := by
  simp only [decodeControl, h]

/-- The words 0x21… are the two forms of RETI, whatever their other bits (R317, R318). -/
theorem decode_of_return (w : Code) (h : field w 24 8 = 0x21) :
    decode w =
      .ok (if field w 23 1 = 1 then .retiOp1 (Fin.ofNat 8 (field w 6 3)) else .reti) := by
  obtain ⟨hopcode, hdigit⟩ := field_digits_of_byte w 2 1 (by decide) h
  have hcore := decodeCore_of_control w hopcode
  rw [decodeControl_of_return w hdigit] at hcore
  by_cases hpage : field w 23 1 = 1
  · rw [if_pos hpage] at hcore ⊢
    exact decode_of_decodeCore w _ hcore rfl rfl
  · rw [if_neg hpage] at hcore ⊢
    exact decode_of_decodeCore w _ hcore rfl rfl

namespace Machine

/-- A return's writes clear L and hand over the delayed transfer to LR1, and that is all (R356). -/
theorem State.writes_returnWrites (s : State) (page : Option Word) :
    s.writes (s.returnWrites page) =
      { s with mr0 := { s.mr0 with l := false }, xfer := .delayed s.lr1 page } :=
  rfl

/-- RETI runs in every state, and its transfer names no page (R317). -/
theorem exec_reti (s : State) :
    exec .reti s = .next
      { s with mr0 := { s.mr0 with l := false }, xfer := .delayed s.lr1 none } := by
  rw [exec_eq_runWord _ _ rfl, runWord_next_iff]
  exact ⟨rfl, rfl, _, rfl, (s.writes_returnWrites none).symm⟩

/-- RETI (Op1) runs in every state, and its transfer takes the page from the index register
(R318). -/
theorem exec_retiOp1 (n : IReg) (s : State) :
    exec (.retiOp1 n) s = .next
      { s with mr0 := { s.mr0 with l := false }, xfer := .delayed s.lr1 (some (s.index n)) } := by
  rw [exec_eq_runWord _ _ rfl, runWord_next_iff]
  exact ⟨rfl, rfl, _, rfl, (s.writes_returnWrites (some (s.index n))).symm⟩

/-- Settles O47: the decoder's path to the two forms of RETI, and the state each leaves. -/
theorem returnFromInterruptResults : Obligations.ReturnFromInterruptResults :=
  ⟨decode_of_return, fun n s => ⟨exec_reti s, exec_retiOp1 n s⟩⟩

end Machine

end Sys2Proof

/-! The fields of an encoded word (R91 to R115): every part of an instruction stands in its place. -/

namespace Sys2Proof

/-- A word holds each listed value in the field of that place and length. -/
def Holds (w : Code) (fs : List (Nat × Nat × Nat)) : Prop :=
  ∀ f ∈ fs, field w f.1 f.2.1 = f.2.2

@[simp] theorem holds_nil (w : Code) : Holds w [] := by simp [Holds]

@[simp] theorem holds_cons (w : Code) (lo len v : Nat) (fs : List (Nat × Nat × Nat)) :
    Holds w ((lo, len, v) :: fs) ↔ field w lo len = v ∧ Holds w fs := by
  simp [Holds]

@[simp] theorem holds_append (w : Code) (fs gs : List (Nat × Nat × Nat)) :
    Holds w (fs ++ gs) ↔ Holds w fs ∧ Holds w gs := by
  simp only [Holds, List.forall_mem_append]

/-- A field above bit `lo` is a field of the word shifted down to that bit. -/
theorem field_add (w : Code) (lo a len : Nat) :
    field w (lo + a) len = w.toNat / 2 ^ lo / 2 ^ a % 2 ^ len := by
  simp only [field, pow_add, Nat.div_div_eq_div_mul]

/-! ### Moves -/

/-- The 14 bits of a full move are its fields (R111). -/
theorem holds_fullMove (w : Code) (lo : Nat) (m : FullMove)
    (h : w.toNat / 2 ^ lo % 16384 = m.code) : Holds w (m.fields lo) := by
  have hstore := m.store.toNat_le
  have hidx := m.idx.isLt
  have hpost := m.post.isLt
  have hreg := m.reg.code_lt
  have hlow : field w lo 6 = w.toNat / 2 ^ lo % 2 ^ 6 := rfl
  simp only [FullMove.fields, holds_cons, holds_nil, and_true, field_add, hlow]
  simp only [FullMove.code] at h
  omega

/-- The 8 bits of a short move are its fields (R113). -/
theorem holds_shortMove (w : Code) (lo : Nat) (m : ShortMove)
    (h : w.toNat / 2 ^ lo % 256 = m.code) : Holds w (m.fields lo) := by
  have hstore := m.store.toNat_le
  have hidx := m.idx.isLt
  have hstar := m.star.toNat_le
  have hreg := m.reg.code_lt
  have hlow : field w lo 3 = w.toNat / 2 ^ lo % 2 ^ 3 := rfl
  simp only [ShortMove.fields, holds_cons, holds_nil, and_true, field_add, hlow]
  simp only [ShortMove.code] at h
  omega

/-- Bits 16:0 with a parallel move's code hold its fields (R115). -/
theorem holds_pmove (w : Code) (pm : PMove) (low : Nat) (hcode : pm.code = some low)
    (h : w.toNat % 131072 = low) : Holds w pm.fields := by
  cases pm with
  | full b m =>
    have hm := m.code_lt
    cases b <;>
    · simp only [PMove.code, Option.some.injEq] at hcode
      simp only [PMove.fields, holds_cons]
      exact ⟨by unfold field; omega, holds_fullMove w 0 m (by omega)⟩
  | short x y =>
    have hx := x.code_lt
    have hy := y.code_lt
    simp only [PMove.code, Option.some.injEq] at hcode
    simp only [PMove.fields, holds_cons, holds_append]
    exact ⟨by unfold field; omega, holds_shortMove w 8 x (by omega), holds_shortMove w 0 y (by omega)⟩
  | uncoded m => exact holds_nil w

/-! ### Words as numbers -/

/-- A word written as a number of 32 bits is that number. -/
theorem toNat_of_word (n : Nat) (w : Code) (hn : n < 4294967296)
    (h : some (BitVec.ofNat 32 n) = some w) : w.toNat = n := by
  rw [← Option.some.inj h, BitVec.toNat_ofNat]
  exact Nat.mod_eq_of_lt hn

/-- A word with a parallel move is the part above bit 17 and the move's code. -/
theorem toNat_of_withPMove (top : Nat) (pm : PMove) (w : Code) (htop : top + 131072 ≤ 4294967296)
    (h : withPMove top pm = some w) : ∃ low, pm.code = some low ∧ w.toNat = top + low := by
  unfold withPMove at h
  cases hcode : pm.code with
  | none => simp [hcode] at h
  | some low =>
    have hlow := pm.code_lt low hcode
    rw [hcode] at h
    exact ⟨low, rfl, toNat_of_word _ w (by omega) h⟩

/-- The fields above the parallel move, where each of them stands in the part above bit 17. -/
theorem holds_withPMove (top : Nat) (pm : PMove) (w : Code) (fs : List (Nat × Nat × Nat))
    (htop : top + 131072 ≤ 4294967296) (halign : top % 131072 = 0) (h : withPMove top pm = some w)
    (hfs : ∀ low < 131072, w.toNat = top + low → Holds w fs) : Holds w (fs ++ pm.fields) := by
  obtain ⟨low, hcode, hw⟩ := toNat_of_withPMove top pm w htop h
  have hlow := pm.code_lt low hcode
  exact (holds_append ..).mpr ⟨hfs low hlow hw, holds_pmove w pm low hcode (by omega)⟩

/-! ### Formats -/

theorem holds_alu2 (opcode : Nat) (op1 op2 : AluSrc) (dst : AReg) (pm : PMove) (w : Code)
    (hop : opcode < 16) (h : encodeAlu2 opcode op1 op2 dst pm = some w) :
    Holds w (alu2Fields opcode op1 op2 dst pm) := by
  have h1 := op1.code_lt
  have h2 := op2.code_lt
  have hd := dst.code_lt
  refine holds_withPMove _ pm w _ (by omega) (by omega) h fun low hlow hw => ?_
  simp only [holds_cons, holds_nil, and_true, field]
  omega

theorem holds_mac (opcode : Nat) (op1 : AReg) (mm : MulMode) (op2 acc : AReg) (pm : PMove)
    (w : Code) (hop : opcode < 16) (h : encodeMac opcode op1 mm op2 acc pm = some w) :
    Holds w (macFields opcode op1 mm op2 acc pm) := by
  have h1 := op1.code_lt
  have hm := mm.code_lt
  have h2 := op2.code_lt
  have ha := acc.code_lt
  refine holds_withPMove _ pm w _ (by omega) (by omega) h fun low hlow hw => ?_
  simp only [holds_cons, holds_nil, and_true, field]
  omega

theorem holds_alu1 (sub : Nat) (op2 : AluSrc) (dst : AReg) (pm : PMove) (w : Code)
    (hsub : sub < 16) (h : encodeAlu1 sub op2 dst pm = some w) :
    Holds w (alu1Fields sub op2 dst pm) := by
  have h2 := op2.code_lt
  have hd := dst.code_lt
  refine holds_withPMove _ pm w _ (by omega) (by omega) h fun low hlow hw => ?_
  simp only [holds_cons, holds_nil, and_true, field]
  omega

theorem holds_nopMove (pm : PMove) (w : Code)
    (h : withPMove (15 * 268435456 + 4 * 16777216) pm = some w) :
    Holds w ([(28, 4, 15), (24, 4, 4)] ++ pm.fields) := by
  refine holds_withPMove _ pm w _ (by omega) (by omega) h fun low hlow hw => ?_
  simp only [holds_cons, holds_nil, and_true, field]
  omega

theorem holds_mul (mm : MulMode) (op2 op1 : AReg) (pm : PMove) (w : Code)
    (h : encode (.mul mm op2 op1 pm) = some w) : Holds w (Instr.mul mm op2 op1 pm).fields := by
  have hm := mm.code_lt
  have h2 := op2.code_lt
  have h1 := op1.code_lt
  refine holds_withPMove _ pm w _ (by omega) (by omega) h fun low hlow hw => ?_
  simp only [holds_cons, holds_nil, and_true, field]
  omega

theorem holds_double (x y : FullMove) (w : Code) (h : encodeDouble x y = some w) :
    Holds w (doubleFields x y) := by
  have hx := x.code_lt
  have hy := y.code_lt
  have hw := toNat_of_word _ w (by omega) h
  simp only [doubleFields, holds_cons, holds_append]
  exact ⟨by unfold field; omega, holds_fullMove w 14 x (by omega), holds_fullMove w 0 y (by omega)⟩

/-- The register code of the move NOP is the lowest field of its half (R125). -/
theorem holds_moveNop (w : Code) (lo : Nat) (h : Holds w (FullMove.moveNop.fields lo)) :
    field w lo 6 = 36 := by
  simp only [FullMove.fields, holds_cons] at h
  obtain ⟨-, -, -, hreg, -⟩ := h
  exact hreg

theorem holds_xMove (m : FullMove) (w : Code) (h : encodeDouble m .moveNop = some w) :
    Holds w ([(28, 4, 3), (0, 6, 36)] ++ m.fields 14) := by
  obtain ⟨hop, hm, hnop⟩ : field w 28 4 = 3 ∧ Holds w (m.fields 14) ∧
      Holds w (FullMove.moveNop.fields 0) := by simpa [doubleFields] using holds_double m _ w h
  simp only [holds_cons, holds_append, holds_nil, and_true]
  exact ⟨⟨hop, holds_moveNop w 0 hnop⟩, hm⟩

theorem holds_yMove (m : FullMove) (w : Code) (h : encodeDouble .moveNop m = some w) :
    Holds w ([(28, 4, 3), (14, 6, 36)] ++ m.fields 0) := by
  obtain ⟨hop, hnop, hm⟩ : field w 28 4 = 3 ∧ Holds w (FullMove.moveNop.fields 14) ∧
      Holds w (m.fields 0) := by simpa [doubleFields] using holds_double _ m w h
  simp only [holds_cons, holds_append, holds_nil, and_true]
  exact ⟨⟨hop, holds_moveNop w 14 hnop⟩, hm⟩

/-- A control word is opcode 0010, its code and the rest (R96). -/
theorem toNat_of_control (sub rest : Nat) (w : Code) (hsub : sub < 16) (hrest : rest < 16777216)
    (h : encodeControl sub rest = some w) :
    w.toNat = 2 * 268435456 + sub * 16777216 + rest :=
  toNat_of_word _ w (by omega) h

/-- The word of a well-formed instruction holds the fields of its format. -/
theorem encode_holds (i : Instr) (w : Code) (hwf : i.WellFormed) (h : encode i = some w) :
    Holds w i.fields := by
  cases i with
  | ldc c r =>
    have hc := c.isLt
    have hr := r.code_lt
    have hw := toNat_of_word _ w (by omega) h
    simp only [Instr.fields, holds_cons, holds_nil, and_true, field]
    omega
  | nop =>
    have hw := toNat_of_word _ w (by decide) h
    simp only [Instr.fields, holds_cons, holds_nil, and_true, field, hw]
    decide
  | jrcc c =>
    have hc := c.code_lt
    have hw := toNat_of_control _ _ w (by decide) (by omega) h
    simp only [Instr.fields, holds_cons, holds_nil, and_true, field]
    omega
  | jrccOp1 c n =>
    have hc := c.code_lt
    have hn := n.isLt
    have hw := toNat_of_control _ _ w (by decide) (by omega) h
    simp only [Instr.fields, holds_cons, holds_nil, and_true, field]
    omega
  | reti =>
    have hw := toNat_of_control _ _ w (by decide) (by decide) h
    simp only [Instr.fields, holds_cons, holds_nil, and_true, field]
    omega
  | retiOp1 n =>
    have hn := n.isLt
    have hw := toNat_of_control _ _ w (by decide) (by omega) h
    simp only [Instr.fields, holds_cons, holds_nil, and_true, field]
    omega
  | resp op1 op2 =>
    have h1 := op1.code_lt
    have h2 := op2.code_lt
    have hw := toNat_of_control _ _ w (by decide) (by omega) h
    simp only [Instr.fields, holds_cons, holds_nil, and_true, field]
    omega
  | loop last count =>
    have hcount : count.code < 32 := count.code_lt_of_loopable (by
      simpa [Instr.WellFormed, Instr.reject] using hwf)
    have hl := last.isLt
    have hw := toNat_of_control _ _ w (by decide) (by omega) h
    simp only [Instr.fields, holds_cons, holds_nil, and_true, field]
    omega
  | jcc a c | callcc a c =>
    have ha := a.isLt
    have hc := c.code_lt
    have hw := toNat_of_control _ _ w (by decide) (by omega) h
    simp only [Instr.fields, holds_cons, holds_nil, and_true, field]
    omega
  | jmpi a mm n =>
    have ha := a.isLt
    have hm := mm.code_lt
    have hn := n.isLt
    have hw := toNat_of_control _ _ w (by decide) (by omega) h
    simp only [Instr.fields, holds_cons, holds_nil, and_true, field]
    omega
  | halt =>
    have hw := toNat_of_control _ _ w (by decide) (by decide) h
    simp only [Instr.fields, holds_cons, holds_nil, and_true, field]
    omega
  | mvDouble xs xd ys yd => exact holds_nil w
  | parUncoded m => exact holds_nil w
  | dmove x y => exact holds_double x y w h
  | ldx n p r | stx n p r => exact holds_xMove _ w h
  | ldy n p r | sty n p r => exact holds_yMove _ w h
  | add a b d pm | sub a b d pm | addc a b d pm | subc a b d pm | ashl a b d pm | and a b d pm
  | or a b d pm | xor a b d pm => exact holds_alu2 _ a b d pm w (by decide) h
  | lsl b d pm | lslc b d pm => exact holds_alu2 _ b b d pm w (by decide) h
  | not b d pm => exact holds_alu2 13 .ones b d pm w (by decide) h
  | mac a mm b d pm | msu a mm b d pm => exact holds_mac _ a mm b d pm w (by decide) h
  | abs b d pm | asr b d pm | lsr b d pm | lsrc b d pm | exp b d pm | sat b d pm | rnd b d pm =>
    exact holds_alu1 _ b d pm w (by decide) h
  | nopMove pm => exact holds_nopMove pm w h
  | mul mm b a pm => exact holds_mul mm b a pm w h
  | parShort x y => exact holds_nopMove (.short x y) w h
  | parFull b m => exact holds_nopMove (.full b m) w h

/-- Settles O6: the fields by `encode_holds`; the code tables are closed facts. -/
theorem instructionFormatFields : Obligations.InstructionFormatFields :=
  ⟨fun i w hwf h => encode_holds i w hwf h, by decide, by decide, fun _ => rfl, by decide,
    fun _ => rfl, fun _ => rfl, by decide, by decide, by decide⟩

end Sys2Proof

/-! Decoding what was encoded: each format's decoder reads the fields that its words hold. -/

namespace Sys2Proof

/-! ### Moves -/

theorem decodeFull_of_holds (w : Code) (lo : Nat) (m : FullMove) (h : Holds w (m.fields lo)) :
    decodeFull w lo = .ok m := by
  simp only [FullMove.fields, holds_cons] at h
  obtain ⟨hstore, hidx, hpost, hreg, -⟩ := h
  simp only [decodeFull, hstore, hidx, hpost, hreg, MoveReg.ofCode_code, toNat_beq_one]
  simp

theorem decodeShort_of_holds (w : Code) (lo : Nat) (m : ShortMove) (h : Holds w (m.fields lo)) :
    decodeShort w lo = m := by
  simp only [ShortMove.fields, holds_cons] at h
  obtain ⟨hstore, hidx, hstar, hreg, -⟩ := h
  simp only [decodeShort, hstore, hidx, hstar, hreg, AReg.ofCode_code, toNat_beq_one]
  simp

/-- Bits 16:14 as one number: the selectors of a parallel move and the bus of a full one (R115). -/
theorem field_selectors (w : Code) (v : Nat) (h : field w 14 3 = v) :
    field w 16 1 = v / 4 ∧ field w 15 1 = v / 2 % 2 ∧ field w 14 1 = v % 2 := by
  unfold field at *
  omega

/-- A parallel move that has a layout is read back from its fields. -/
theorem decodePMove_of_holds (w : Code) (pm : PMove) (hcoded : pm.code.isSome = true)
    (h : Holds w pm.fields) : decodePMove w = .ok pm := by
  cases pm with
  | full b m =>
    cases b with
    | x =>
      obtain ⟨hsel, hm⟩ := (holds_cons ..).mp h
      obtain ⟨h16, h15, h14⟩ := field_selectors w 0 hsel
      simp [decodePMove, h16, h15, h14, decodeFull_of_holds w 0 m hm]
    | y =>
      obtain ⟨hsel, hm⟩ := (holds_cons ..).mp h
      obtain ⟨h16, h15, h14⟩ := field_selectors w 1 hsel
      simp [decodePMove, h16, h15, h14, decodeFull_of_holds w 0 m hm]
  | short x y =>
    simp only [PMove.fields, holds_cons, holds_append] at h
    obtain ⟨h16, hx, hy⟩ := h
    simp [decodePMove, h16, decodeShort_of_holds w 8 x hx, decodeShort_of_holds w 0 y hy]
  | uncoded m => exact absurd hcoded (by simp [PMove.code])

/-- A word with a parallel move exists only where the move has a layout. -/
theorem code_isSome_of_withPMove (top : Nat) (pm : PMove) (w : Code)
    (h : withPMove top pm = some w) : pm.code.isSome = true := by
  unfold withPMove at h
  cases hcode : pm.code with
  | none => simp [hcode] at h
  | some low => rfl

/-! ### Formats -/

theorem decodeAlu2_of_holds (mk : AluSrc → AluSrc → AReg → PMove → Instr) (w : Code) (opcode : Nat)
    (op1 op2 : AluSrc) (dst : AReg) (pm : PMove) (hcoded : pm.code.isSome = true)
    (h : Holds w (alu2Fields opcode op1 op2 dst pm)) :
    field w 28 4 = opcode ∧ decodeAlu2 mk w = .ok (mk op1 op2 dst pm) := by
  simp only [alu2Fields, holds_append, holds_cons] at h
  obtain ⟨⟨hop, h1, h2, hd, -⟩, hpm⟩ := h
  exact ⟨hop, by simp [decodeAlu2, h1, h2, hd, decodePMove_of_holds w pm hcoded hpm]⟩

theorem decodeMac_of_holds (mk : AReg → MulMode → AReg → AReg → PMove → Instr) (w : Code)
    (opcode : Nat) (op1 : AReg) (mm : MulMode) (op2 acc : AReg) (pm : PMove)
    (hcoded : pm.code.isSome = true) (h : Holds w (macFields opcode op1 mm op2 acc pm)) :
    field w 28 4 = opcode ∧ decodeMac mk w = .ok (mk op1 mm op2 acc pm) := by
  simp only [macFields, holds_append, holds_cons] at h
  obtain ⟨⟨hop, h1, hm, h2, ha, -⟩, hpm⟩ := h
  exact ⟨hop, by simp [decodeMac, h1, hm, h2, ha, decodePMove_of_holds w pm hcoded hpm]⟩

theorem decodeAlu1_of_holds (mk : AluSrc → AReg → PMove → Instr) (w : Code) (sub : Nat)
    (op2 : AluSrc) (dst : AReg) (pm : PMove) (hcoded : pm.code.isSome = true)
    (h : Holds w (alu1Fields sub op2 dst pm)) :
    field w 28 4 = 15 ∧ field w 24 4 = sub ∧ decodeAlu1 mk w = .ok (mk op2 dst pm) := by
  simp only [alu1Fields, holds_append, holds_cons] at h
  obtain ⟨⟨hop, hsub, h2, hd, -⟩, hpm⟩ := h
  exact ⟨hop, hsub, by simp [decodeAlu1, h2, hd, decodePMove_of_holds w pm hcoded hpm]⟩

theorem decodeCore_of_nopMove (w : Code) (pm : PMove)
    (h : withPMove (15 * 268435456 + 4 * 16777216) pm = some w) :
    decodeCore w = .ok (.nopMove pm) := by
  have hcoded := code_isSome_of_withPMove _ pm w h
  have hfields := holds_nopMove pm w h
  simp only [holds_append, holds_cons] at hfields
  obtain ⟨⟨hop, hsub, -⟩, hpm⟩ := hfields
  simp [decodeCore, hop, decodeSingle, hsub, decodeNopMove, decodePMove_of_holds w pm hcoded hpm]

theorem decodeCore_of_double (w : Code) (x y : FullMove) (h : encodeDouble x y = some w) :
    decodeCore w = .ok (.dmove x y) := by
  obtain ⟨hop, hx, hy⟩ : field w 28 4 = 3 ∧ Holds w (x.fields 14) ∧ Holds w (y.fields 0) := by
    simpa [doubleFields] using holds_double x y w h
  simp [decodeCore, hop, decodeDouble, decodeFull_of_holds w 14 x hx, decodeFull_of_holds w 0 y hy]

/-- The four codes of MUL's field and its sub-opcode 111 are the codes 14 and 15 of opcode 1111. -/
theorem field_mul (w : Code) (h : field w 25 3 = 7) : field w 24 4 = 14 ∨ field w 24 4 = 15 := by
  unfold field at *
  omega

/-- LOOP's two opcode bits stand above two don't-care bits. -/
theorem field_loop (w : Code) (h : field w 26 2 = 1) :
    field w 24 4 = 4 ∨ field w 24 4 = 5 ∨ field w 24 4 = 6 ∨ field w 24 4 = 7 := by
  unfold field at *
  omega

/-- LDC's top three bits stand above a don't-care bit. -/
theorem field_ldc (w : Code) (h : field w 29 3 = 0) : field w 28 4 = 0 ∨ field w 28 4 = 1 := by
  unfold field at *
  omega

theorem decodeCore_of_ldc (w : Code) (c : Word) (r : MoveReg)
    (h : Holds w (Instr.ldc c r).fields) : decodeCore w = .ok (.ldc c r) := by
  simp only [Instr.fields, holds_cons] at h
  obtain ⟨htop, hc, hr, -⟩ := h
  have hldc : decodeLdc w = .ok (.ldc c r) := by simp [decodeLdc, hc, hr]
  rcases field_ldc w htop with hop | hop <;> simp [decodeCore, hop, hldc]

/-! ### Instructions -/

/-- The row that the opcode decides, before the names of R125 are chosen. -/
def Instr.core : Instr → Instr
  | .nop => .ldc 0 .nop
  | .ldx n post r => .dmove { store := false, idx := n, post := post, reg := r } .moveNop
  | .stx n post r => .dmove { store := true, idx := n, post := post, reg := r } .moveNop
  | .ldy n post r => .dmove .moveNop { store := false, idx := n, post := post, reg := r }
  | .sty n post r => .dmove .moveNop { store := true, idx := n, post := post, reg := r }
  | .lsl op2 dst pm => .add op2 op2 dst pm
  | .lslc op2 dst pm => .addc op2 op2 dst pm
  | .not op2 dst pm => .xor .ones op2 dst pm
  | .parShort x y => .nopMove (.short x y)
  | .parFull b m => .nopMove (.full b m)
  | .parUncoded m => .nopMove (.uncoded m)
  | i => i

/-- The representative of a row is the representative of what the opcode decides. -/
theorem Instr.canon_core (i : Instr) : i.core.canon = i.canon := by
  cases i <;> rfl

theorem rejectAlu2_same (op2 : AluSrc) (dst : AReg) :
    rejectAlu2 op2 op2 dst = rejectDoubled op2 dst := by
  simp [rejectAlu2, rejectDoubled, wide2]

theorem rejectAlu2_ones (op2 : AluSrc) (dst : AReg) :
    rejectAlu2 .ones op2 dst = rejectResult op2.wide dst := by
  simp [rejectAlu2, wide2, AluSrc.wide]

/-- It is rejected for the same reason, if for any. -/
theorem Instr.reject_core (i : Instr) : i.core.reject = i.reject := by
  cases i with
  | lsl b d pm | lslc b d pm => exact rejectAlu2_same b d
  | not b d pm => exact rejectAlu2_ones b d
  | _ => rfl

/-- The decoder reads from the word of a well-formed instruction the row that its opcode decides. -/
theorem decodeCore_of_encode (i : Instr) (w : Code) (hwf : i.WellFormed) (h : encode i = some w) :
    decodeCore w = .ok i.core := by
  have hfields := encode_holds i w hwf h
  cases i with
  | ldc c r => exact decodeCore_of_ldc w c r hfields
  | nop =>
    exact decodeCore_of_ldc w 0 .nop (encode_holds (.ldc 0 .nop) w rfl h)
  | jrcc c =>
    simp only [Instr.fields, holds_cons] at hfields
    obtain ⟨hop, hsub, hform, hc, -⟩ := hfields
    simp [decodeCore, hop, decodeControl, hsub, decodeJr, hform, hc, Instr.core]
  | jrccOp1 c n =>
    simp only [Instr.fields, holds_cons] at hfields
    obtain ⟨hop, hsub, hform, hn, hc, -⟩ := hfields
    simp [decodeCore, hop, decodeControl, hsub, decodeJr, hform, hn, hc, Instr.core]
  | reti =>
    simp only [Instr.fields, holds_cons] at hfields
    obtain ⟨hop, hsub, hform, -⟩ := hfields
    simp [decodeCore, hop, decodeControl, hsub, hform, Instr.core]
  | retiOp1 n =>
    simp only [Instr.fields, holds_cons] at hfields
    obtain ⟨hop, hsub, hform, hn, -⟩ := hfields
    simp [decodeCore, hop, decodeControl, hsub, hform, hn, Instr.core]
  | resp op1 op2 =>
    simp only [Instr.fields, holds_cons] at hfields
    obtain ⟨hop, hsub, h2, h1, -⟩ := hfields
    simp [decodeCore, hop, decodeControl, hsub, h1, h2, Instr.core]
  | loop last count =>
    simp only [Instr.fields, holds_cons] at hfields
    obtain ⟨hop, hsub, hlast, hcount, -⟩ := hfields
    have hloop : decodeLoop w = .ok (.loop last count) := by simp [decodeLoop, hlast, hcount]
    rcases field_loop w hsub with h24 | h24 | h24 | h24 <;>
      simp [decodeCore, hop, decodeControl, h24, hloop, Instr.core]
  | jcc a c | callcc a c =>
    simp only [Instr.fields, holds_cons] at hfields
    obtain ⟨hop, hsub, ha, hc, -⟩ := hfields
    simp [decodeCore, hop, decodeControl, hsub, decodeJump, ha, hc, Instr.core]
  | jmpi a mm n =>
    simp only [Instr.fields, holds_cons] at hfields
    obtain ⟨hop, hsub, ha, hm, hn, -⟩ := hfields
    simp [decodeCore, hop, decodeControl, hsub, decodeJmpi, ha, hm, hn, Instr.core]
  | halt =>
    simp only [Instr.fields, holds_cons] at hfields
    obtain ⟨hop, hsub, -⟩ := hfields
    simp [decodeCore, hop, decodeControl, hsub, Instr.core]
  | mvDouble xs xd ys yd => exact absurd h (by simp [encode])
  | parUncoded m => exact absurd h (by simp [encode, withPMove, PMove.code])
  | dmove x y => exact decodeCore_of_double w x y h
  | ldx n p r | stx n p r => exact decodeCore_of_double w _ .moveNop h
  | ldy n p r | sty n p r => exact decodeCore_of_double w .moveNop _ h
  | add a b d pm | sub a b d pm | addc a b d pm | subc a b d pm | ashl a b d pm | and a b d pm
  | or a b d pm | xor a b d pm =>
    obtain ⟨hop, hd⟩ := decodeAlu2_of_holds _ w _ a b d pm (code_isSome_of_withPMove _ pm w h) hfields
    simp only [decodeCore, hop]
    exact hd
  | lsl b d pm | lslc b d pm =>
    obtain ⟨hop, hd⟩ := decodeAlu2_of_holds _ w _ b b d pm (code_isSome_of_withPMove _ pm w h) hfields
    simp only [decodeCore, hop]
    exact hd
  | not b d pm =>
    obtain ⟨hop, hd⟩ :=
      decodeAlu2_of_holds _ w 13 .ones b d pm (code_isSome_of_withPMove _ pm w h) hfields
    simp only [decodeCore, hop]
    exact hd
  | mac a mm b d pm | msu a mm b d pm =>
    obtain ⟨hop, hd⟩ :=
      decodeMac_of_holds _ w _ a mm b d pm (code_isSome_of_withPMove _ pm w h) hfields
    simp only [decodeCore, hop]
    exact hd
  | abs b d pm | asr b d pm | lsr b d pm | lsrc b d pm | exp b d pm | sat b d pm | rnd b d pm =>
    obtain ⟨hop, hsub, hd⟩ :=
      decodeAlu1_of_holds _ w _ b d pm (code_isSome_of_withPMove _ pm w h) hfields
    simp only [decodeCore, hop, decodeSingle, hsub]
    exact hd
  | mul mm b a pm =>
    have hcoded := code_isSome_of_withPMove _ pm w h
    simp only [Instr.fields, holds_append, holds_cons] at hfields
    obtain ⟨⟨hop, hsub, hm, h2, h1, -⟩, hpm⟩ := hfields
    have hmul : decodeMul w = .ok (.mul mm b a pm) := by
      simp [decodeMul, hm, h2, h1, decodePMove_of_holds w pm hcoded hpm]
    rcases field_mul w hsub with h24 | h24 <;>
      simp [decodeCore, hop, decodeSingle, h24, hmul, Instr.core]
  | nopMove pm => exact decodeCore_of_nopMove w pm h
  | parShort x y => exact decodeCore_of_nopMove w (.short x y) h
  | parFull b m => exact decodeCore_of_nopMove w (.full b m) h

/-- A row that passes the checks of R119 decodes under its representative's name. -/
theorem decode_ok_iff (w : Code) (i : Instr) :
    decode w = .ok i ↔ ∃ j, decodeCore w = .ok j ∧ j.WellFormed ∧ j.canon = i := by
  unfold decode
  cases decodeCore w with
  | error r => simp
  | ok j => cases hj : j.reject <;> simp [Instr.WellFormed, hj]

/-- Settles O1: the decoder reads back the row, which is as well-formed as the instruction and has
its representative. -/
theorem decodeOfEncode : Obligations.DecodeOfEncode := fun i w hwf h =>
  (decode_ok_iff w _).mpr
    ⟨i.core, decodeCore_of_encode i w hwf h, i.reject_core.trans hwf, i.canon_core⟩

/-! ### Decoded instructions -/

/-- The representative of an instruction is its own representative and is rejected for the same
reason. -/
theorem Instr.canon_agrees (i : Instr) : i.canon.canon = i.canon ∧ i.canon.reject = i.reject := by
  cases i with
  | ldc c r => exact Laws.CanonAgrees.ldc c r
  | dmove x y => exact Laws.CanonAgrees.dmove x y
  | ldx n p r => exact Laws.CanonAgrees.ldx n p r
  | stx n p r => exact Laws.CanonAgrees.stx n p r
  | ldy n p r => exact Laws.CanonAgrees.ldy n p r
  | sty n p r => exact Laws.CanonAgrees.sty n p r
  | xor a b d pm => exact Laws.CanonAgrees.xor a b d pm
  | lsl b d pm => exact Laws.CanonAgrees.lsl b d pm
  | lslc b d pm => exact Laws.CanonAgrees.lslc b d pm
  | _ => exact ⟨rfl, rfl⟩

/-- Every parallel move that is read from a word has a layout. -/
theorem code_isSome_of_decodePMove (w : Code) (pm : PMove) (h : decodePMove w = .ok pm) :
    pm.code.isSome = true := by
  unfold decodePMove at h
  split at h
  · cases h; rfl
  · split at h
    · cases h
    · split at h
      · cases h
      · cases h
        split <;> rfl

theorem withPMove_isSome (top : Nat) (pm : PMove) (h : pm.code.isSome = true) :
    (withPMove top pm).isSome = true := by
  obtain ⟨low, hlow⟩ := Option.isSome_iff_exists.mp h
  simp [withPMove, hlow]

/-- What a two-operand word decodes to carries the parallel move read from it. -/
theorem decodeAlu2_ok (mk : AluSrc → AluSrc → AReg → PMove → Instr) (w : Code) (i : Instr)
    (h : decodeAlu2 mk w = .ok i) :
    ∃ op1 op2 dst pm, i = mk op1 op2 dst pm ∧ pm.code.isSome = true := by
  unfold decodeAlu2 at h
  split at h
  · cases h
  split at h
  · cases h
  split at h
  · cases h
  · next pm hpm => cases h; exact ⟨_, _, _, pm, rfl, code_isSome_of_decodePMove w pm hpm⟩

theorem decodeMac_ok (mk : AReg → MulMode → AReg → AReg → PMove → Instr) (w : Code) (i : Instr)
    (h : decodeMac mk w = .ok i) :
    ∃ op1 mm op2 acc pm, i = mk op1 mm op2 acc pm ∧ pm.code.isSome = true := by
  unfold decodeMac at h
  split at h
  · cases h
  · next pm hpm => cases h; exact ⟨_, _, _, _, pm, rfl, code_isSome_of_decodePMove w pm hpm⟩

theorem decodeAlu1_ok (mk : AluSrc → AReg → PMove → Instr) (w : Code) (i : Instr)
    (h : decodeAlu1 mk w = .ok i) : ∃ op2 dst pm, i = mk op2 dst pm ∧ pm.code.isSome = true := by
  unfold decodeAlu1 at h
  split at h
  · cases h
  split at h
  · cases h
  · next pm hpm => cases h; exact ⟨_, _, pm, rfl, code_isSome_of_decodePMove w pm hpm⟩

/-- What a word of opcode 1111 decodes to has a word. -/
theorem encode_isSome_of_decodeSingle (w : Code) (i : Instr) (h : decodeSingle w = .ok i) :
    (encode i).isSome = true := by
  have alu1 : ∀ mk : AluSrc → AReg → PMove → Instr, decodeAlu1 mk w = .ok i →
      (∀ b d pm, ∃ sub, encode (mk b d pm) = encodeAlu1 sub b d pm) → (encode i).isSome = true := by
    intro mk hd henc
    obtain ⟨b, d, pm, rfl, hpm⟩ := decodeAlu1_ok mk w i hd
    obtain ⟨sub, hsub⟩ := henc b d pm
    exact hsub ▸ withPMove_isSome _ pm hpm
  have mul : decodeMul w = .ok i → (encode i).isSome = true := by
    intro hd
    unfold decodeMul at hd
    split at hd
    · cases hd
    · next pm hpm => cases hd; exact withPMove_isSome _ pm (code_isSome_of_decodePMove w pm hpm)
  unfold decodeSingle at h
  split at h
  case h_5 =>
    unfold decodeNopMove at h
    split at h
    · cases h
    · next pm hpm => cases h; exact withPMove_isSome _ pm (code_isSome_of_decodePMove w pm hpm)
  case h_9 => exact mul h
  case h_10 => exact mul h
  case h_11 => cases h
  all_goals exact alu1 _ h fun _ _ _ => ⟨_, rfl⟩

/-- What a control word decodes to has a word. -/
theorem encode_isSome_of_decodeControl (w : Code) (i : Instr) (h : decodeControl w = .ok i) :
    (encode i).isSome = true := by
  have jr : decodeJr w = .ok i → (encode i).isSome = true := by
    intro hd
    unfold decodeJr at hd
    split at hd
    · cases hd
    · cases hd; split <;> rfl
  have loop : decodeLoop w = .ok i → (encode i).isSome = true := by
    intro hd
    unfold decodeLoop at hd
    split at hd <;> cases hd
    rfl
  have jump : ∀ mk : Word → Cond → Instr, decodeJump mk w = .ok i →
      (∀ a c, (encode (mk a c)).isSome = true) → (encode i).isSome = true := by
    intro mk hd henc
    unfold decodeJump at hd
    split at hd
    · cases hd
    · cases hd; exact henc _ _
  have jmpi : decodeJmpi w = .ok i → (encode i).isSome = true := by
    intro hd
    unfold decodeJmpi at hd
    split at hd <;> cases hd
    rfl
  unfold decodeControl at h
  split at h
  case h_1 => exact jr h
  case h_2 => cases h; split <;> rfl
  case h_3 => cases h; rfl
  case h_8 | h_9 => exact jump _ h fun _ _ => rfl
  case h_10 => exact jmpi h
  case h_11 | h_13 => cases h
  case h_12 => cases h; rfl
  all_goals exact loop h

/-- What a word's opcode decides has a word. -/
theorem encode_isSome_of_decodeCore (w : Code) (i : Instr) (h : decodeCore w = .ok i) :
    (encode i).isSome = true := by
  have ldc : decodeLdc w = .ok i → (encode i).isSome = true := by
    intro hd
    unfold decodeLdc at hd
    split at hd <;> cases hd
    rfl
  have double : decodeDouble w = .ok i → (encode i).isSome = true := by
    intro hd
    unfold decodeDouble at hd
    split at hd
    · cases hd
    · split at hd <;> cases hd
      rfl
  have alu2 : ∀ mk : AluSrc → AluSrc → AReg → PMove → Instr, decodeAlu2 mk w = .ok i →
      (∀ a b d pm, ∃ opcode, encode (mk a b d pm) = encodeAlu2 opcode a b d pm) →
      (encode i).isSome = true := by
    intro mk hd henc
    obtain ⟨a, b, d, pm, rfl, hpm⟩ := decodeAlu2_ok mk w i hd
    obtain ⟨opcode, hop⟩ := henc a b d pm
    exact hop ▸ withPMove_isSome _ pm hpm
  have mac : ∀ mk : AReg → MulMode → AReg → AReg → PMove → Instr, decodeMac mk w = .ok i →
      (∀ a mm b d pm, ∃ opcode, encode (mk a mm b d pm) = encodeMac opcode a mm b d pm) →
      (encode i).isSome = true := by
    intro mk hd henc
    obtain ⟨a, mm, b, d, pm, rfl, hpm⟩ := decodeMac_ok mk w i hd
    obtain ⟨opcode, hop⟩ := henc a mm b d pm
    exact hop ▸ withPMove_isSome _ pm hpm
  unfold decodeCore at h
  split at h
  case h_1 | h_2 => exact ldc h
  case h_3 => exact encode_isSome_of_decodeControl w i h
  case h_4 => exact double h
  case h_6 | h_8 => exact mac _ h fun _ _ _ _ _ => ⟨_, rfl⟩
  case h_15 => cases h
  case h_16 => exact encode_isSome_of_decodeSingle w i h
  all_goals exact alu2 _ h fun _ _ _ _ => ⟨_, rfl⟩

theorem encode_isSome_canonDouble (x y : FullMove) : (encode (canonDouble x y)).isSome = true := by
  unfold canonDouble
  split
  · split <;> rfl
  · split
    · split <;> rfl
    · rfl

/-- The representative of an instruction that has a word has one. -/
theorem encode_isSome_canon (i : Instr) (h : (encode i).isSome = true) :
    (encode i.canon).isSome = true := by
  cases i with
  | ldc c r =>
    show (encode (if r = .nop then .nop else .ldc c r)).isSome = true
    split <;> rfl
  | dmove x y => exact encode_isSome_canonDouble x y
  | ldx n p r | stx n p r | ldy n p r | sty n p r => exact encode_isSome_canonDouble _ _
  | xor a b d pm =>
    have hpm : pm.code.isSome = true := by
      obtain ⟨w, hw⟩ := Option.isSome_iff_exists.mp h
      exact code_isSome_of_withPMove _ pm w hw
    show (encode (if a = .ones then .not b d pm else .xor a b d pm)).isSome = true
    split <;> exact withPMove_isSome _ pm hpm
  | _ => exact h

/-- Settles O2: a decoded instruction is the representative of a well-formed row that has a word,
so it has one too, and `decodeOfEncode` reads that word. -/
theorem decodedInstructionReencodes : Obligations.DecodedInstructionReencodes := by
  intro w i h
  obtain ⟨j, hcore, hwf, rfl⟩ := (decode_ok_iff w i).mp h
  obtain ⟨hcanon, hreject⟩ := j.canon_agrees
  have hwf' : j.canon.WellFormed := hreject.trans hwf
  obtain ⟨w', hw'⟩ := Option.isSome_iff_exists.mp
    (encode_isSome_canon j (encode_isSome_of_decodeCore w j hcore))
  exact ⟨hwf', hcanon, w', hw', (decodeOfEncode _ w' hwf' hw').trans (congrArg _ hcanon)⟩

end Sys2Proof

/-! Reserved words (R119, R193, R194): each format's decoder, with the check of the instruction it
reads, refuses the words that the spec reserves. -/

namespace Sys2Proof

open Machine

/-- The instruction read from a word, if any, is one that the checks of R119 reject. -/
def Refused (e : Except Reject Instr) : Prop := ∀ j, e = .ok j → ¬ j.WellFormed

theorem refused_error (r : Reject) : Refused (.error r) := by simp [Refused]

theorem refused_ok (i : Instr) : Refused (.ok i) ↔ i.reject.isSome = true := by
  simp [Refused, Instr.WellFormed, ← Option.isSome_iff_ne_none]

/-- The decoder refuses a word where its opcode's row is refused. -/
theorem decode_error_iff (w : Code) : (∃ why, decode w = .error why) ↔ Refused (decodeCore w) := by
  unfold decode
  cases decodeCore w with
  | error r => simp [refused_error]
  | ok j => cases hj : j.reject <;> simp [refused_ok, hj]

theorem field_lt (w : Code) (lo len : Nat) : field w lo len < 2 ^ len :=
  Nat.mod_lt _ (Nat.two_pow_pos len)

/-! ### Codes -/

/-- Table 10 and its reserved codes (R110, R119). -/
theorem MoveReg.ofCode_cases (n : Nat) (h : n < 64) :
    (reservedReg n = true ∧ ∃ r, MoveReg.ofCode n = .error r) ∨
    (reservedReg n = false ∧ ∃ r, MoveReg.ofCode n = .ok r) := by
  have table : ∀ k < 64, (MoveReg.ofCode k).toOption.isSome = !reservedReg k := by decide
  have hn := table n h
  cases hreg : MoveReg.ofCode n with
  | error r =>
    rw [hreg] at hn
    exact .inl ⟨by simpa [Except.toOption] using hn, r, rfl⟩
  | ok r =>
    rw [hreg] at hn
    exact .inr ⟨by simpa [Except.toOption] using hn, r, rfl⟩

/-- The five bits of LOOP name only registers that LOOP may count (R118). -/
theorem MoveReg.loopable_ofCode (n : Nat) (h : n < 32) (r : MoveReg)
    (hr : MoveReg.ofCode n = .ok r) : r.loopable = true := by
  have table : ∀ k < 32, (match MoveReg.ofCode k with
      | .ok r => r.loopable
      | .error _ => true) = true := by decide
  simpa [hr] using table n h

/-- Table 1 and the codes that it does not list (R117, R119). -/
theorem Cond.ofCode_cases (n : Nat) (h : n < 64) :
    (unlistedCondition n = true ∧ ∃ r, Cond.ofCode n = .error r) ∨
    (unlistedCondition n = false ∧ ∃ c, Cond.ofCode n = .ok c) := by
  have table : ∀ k < 64, (Cond.ofCode k).toOption.isSome = !unlistedCondition k := by decide
  have hn := table n h
  cases hcond : Cond.ofCode n with
  | error r =>
    rw [hcond] at hn
    exact .inl ⟨by simpa [Except.toOption] using hn, r, rfl⟩
  | ok c =>
    rw [hcond] at hn
    exact .inr ⟨by simpa [Except.toOption] using hn, c, rfl⟩

/-- JMPI's modes: 10 has no meaning (R106, R119). -/
theorem JmpiStep.ofCode_cases (n : Nat) (h : n < 4) :
    (n = 2 ∧ JmpiStep.ofCode n = .error .jmpiMode) ∨
    (n ≠ 2 ∧ ∃ mm, JmpiStep.ofCode n = .ok mm) := by
  match n, h with
  | 0, _ => exact .inr ⟨by decide, .keep, rfl⟩
  | 1, _ => exact .inr ⟨by decide, .inc, rfl⟩
  | 2, _ => exact .inl ⟨rfl, rfl⟩
  | 3, _ => exact .inr ⟨by decide, .dec, rfl⟩

/-! ### Moves -/

theorem decodeFull_cases (w : Code) (lo : Nat) :
    (reservedReg (field w lo 6) = true ∧ ∃ r, decodeFull w lo = .error r) ∨
    (reservedReg (field w lo 6) = false ∧ ∃ m, decodeFull w lo = .ok m) := by
  unfold decodeFull
  rcases MoveReg.ofCode_cases (field w lo 6) (field_lt w lo 6) with ⟨hres, r, hr⟩ | ⟨hres, r, hr⟩
  · exact .inl ⟨hres, r, by rw [hr]⟩
  · exact .inr ⟨hres, _, by rw [hr]⟩

theorem decodePMove_cases (w : Code) :
    (reservedParallel w = true ∧ ∃ r, decodePMove w = .error r) ∨
    (reservedParallel w = false ∧ ∃ pm, decodePMove w = .ok pm) := by
  have h16 := field_lt w 16 1
  have h15 := field_lt w 15 1
  unfold decodePMove reservedParallel
  by_cases hshort : field w 16 1 = 1
  · exact .inr ⟨by simp [hshort], _, by rw [if_pos hshort]⟩
  have hfull : field w 16 1 = 0 := by omega
  by_cases hlost : field w 15 1 = 1
  · exact .inl ⟨by simp [hfull, hlost], _, by rw [if_neg hshort, if_pos hlost]⟩
  have hkept : field w 15 1 = 0 := by omega
  rcases decodeFull_cases w 0 with ⟨hres, r, hr⟩ | ⟨hres, m, hm⟩
  · exact .inl ⟨by simp [hfull, hres], r, by rw [if_neg hshort, if_neg hlost, hr]⟩
  · exact .inr ⟨by simp [hfull, hkept, hres], _, by rw [if_neg hshort, if_neg hlost, hm]⟩

/-! ### Checks of R119 -/

/-- Bit 17 is the lowest bit of the result code: 0 names a low half (R104). -/
theorem isHigh_result (w : Code) :
    (AReg.ofCode (field w 17 3)).isHigh = !evenResult w := by
  have hbit : field w 17 1 = field w 17 3 % 2 := by unfold field; omega
  rw [AReg.isHigh_ofCode _ (field_lt w 17 3), evenResult, hbit]
  rcases Nat.mod_two_eq_zero_or_one (field w 17 3) with h | h <;> simp [h]

theorem rejectResult_isSome (wide : Bool) (dst : AReg) :
    (rejectResult wide dst).isSome = (wide && !dst.isHigh) := by
  unfold rejectResult
  cases wide <;> cases dst.isHigh <;> rfl

theorem rejectAlu2_isSome (op1 op2 : AluSrc) (dst : AReg) :
    (rejectAlu2 op1 op2 dst).isSome =
      (decide (op1 = .p) || ((op1.wide || op2.wide) && !dst.isHigh)) := by
  unfold rejectAlu2
  by_cases h : op1 = .p <;> simp [h, rejectResult_isSome, wide2]

theorem rejectAshl_isSome (op1 op2 : AluSrc) (dst : AReg) :
    (rejectAshl op1 op2 dst).isSome =
      (decide (op1 = .p) || op2.wide || (op1.wide && !dst.isHigh)) := by
  unfold rejectAshl
  by_cases h : op1 = .p
  · simp [h]
  · cases hw : op2.wide <;> simp [h, rejectResult_isSome]

/-! ### Formats -/

theorem decodeAlu2_refused (mk : AluSrc → AluSrc → AReg → PMove → Instr) (w : Code)
    (hmk : ∀ a b d pm, (mk a b d pm).reject = rejectAlu2 a b d) :
    Refused (decodeAlu2 mk w) ↔ reservedAlu2Word w = true := by
  unfold decodeAlu2 reservedAlu2Word
  rcases AluSrc.ofCode_cases _ (field_lt w 24 4) with ⟨h1, e1⟩ | ⟨h1, a, e1, -, hwide1, hp⟩
  · simp only [e1, refused_error, true_iff]
    simp [h1]
  rcases AluSrc.ofCode_cases _ (field_lt w 20 4) with ⟨h2, e2⟩ | ⟨h2, b, e2, -, hwide2, -⟩
  · simp only [e1, e2, refused_error, true_iff]
    simp [h2]
  rcases decodePMove_cases w with ⟨h3, r, e3⟩ | ⟨h3, pm, e3⟩
  · simp [e1, e2, e3, h3, refused_error]
  simp only [e1, e2, e3, refused_ok, hmk, rejectAlu2_isSome, isHigh_result, hwide1, hwide2, hp,
    h3]
  cases evenResult w <;> simp <;> omega

theorem decodeAshl_refused (w : Code) :
    Refused (decodeAlu2 .ashl w) ↔ reservedAshlWord w = true := by
  unfold decodeAlu2 reservedAshlWord
  rcases AluSrc.ofCode_cases _ (field_lt w 24 4) with ⟨h1, e1⟩ | ⟨h1, a, e1, -, hwide1, hp⟩
  · simp only [e1, refused_error, true_iff]
    simp [h1]
  rcases AluSrc.ofCode_cases _ (field_lt w 20 4) with ⟨h2, e2⟩ | ⟨h2, b, e2, -, hwide2, -⟩
  · simp only [e1, e2, refused_error, true_iff]
    simp [h2]
  rcases decodePMove_cases w with ⟨h3, r, e3⟩ | ⟨h3, pm, e3⟩
  · simp [e1, e2, e3, h3, refused_error]
  simp only [e1, e2, e3, refused_ok, Instr.reject, rejectAshl_isSome, isHigh_result, hwide1,
    hwide2, hp, h3]
  cases evenResult w <;> simp <;> omega

theorem decodeMac_refused (mk : AReg → MulMode → AReg → AReg → PMove → Instr) (w : Code)
    (hmk : ∀ a mm b d pm, (mk a mm b d pm).reject = rejectResult true d) :
    Refused (decodeMac mk w) ↔ (evenResult w || reservedParallel w) = true := by
  unfold decodeMac
  rcases decodePMove_cases w with ⟨h3, r, e3⟩ | ⟨h3, pm, e3⟩
  · simp [e3, h3, refused_error]
  · simp [e3, h3, refused_ok, hmk, rejectResult_isSome, isHigh_result]

/-- A single-operand word whose check asks for a width and a result code. -/
theorem decodeAlu1_refused (mk : AluSrc → AReg → PMove → Instr) (w : Code) (check : Bool → Bool → Bool)
    (hmk : ∀ b d pm, (mk b d pm).reject.isSome = check b.wide d.isHigh) :
    Refused (decodeAlu1 mk w) ↔
      (field w 20 4 = 10 ∨ check (decide (11 ≤ field w 20 4)) (!evenResult w) = true ∨
        reservedParallel w = true) := by
  unfold decodeAlu1
  rcases AluSrc.ofCode_cases _ (field_lt w 20 4) with ⟨h2, e2⟩ | ⟨h2, b, e2, -, hwide, -⟩
  · simp only [e2, refused_error, true_iff]
    simp [h2]
  rcases decodePMove_cases w with ⟨h3, r, e3⟩ | ⟨h3, pm, e3⟩
  · simp [e2, e3, h3, refused_error]
  · simp [e2, e3, h2, h3, refused_ok, hmk, isHigh_result, hwide]

theorem decodeNopMove_refused (w : Code) :
    Refused (decodeNopMove w) ↔ reservedParallel w = true := by
  unfold decodeNopMove
  rcases decodePMove_cases w with ⟨h3, r, e3⟩ | ⟨h3, pm, e3⟩
  · simp [e3, h3, refused_error]
  · simp [e3, h3, refused_ok, Instr.reject]

theorem decodeMul_refused (w : Code) : Refused (decodeMul w) ↔ reservedParallel w = true := by
  unfold decodeMul
  rcases decodePMove_cases w with ⟨h3, r, e3⟩ | ⟨h3, pm, e3⟩
  · simp [e3, h3, refused_error]
  · simp [e3, h3, refused_ok, Instr.reject]

/-- A shift or ABS is rejected by its result code alone. -/
theorem decodeNarrowable_refused (mk : AluSrc → AReg → PMove → Instr) (w : Code)
    (hmk : ∀ b d pm, (mk b d pm).reject = rejectResult b.wide d) :
    Refused (decodeAlu1 mk w) ↔
      (field w 20 4 == 10 || (decide (11 ≤ field w 20 4) && evenResult w) || reservedParallel w) =
        true := by
  rw [decodeAlu1_refused mk w (fun wide high => wide && !high)
    (fun b d pm => by rw [hmk, rejectResult_isSome])]
  simp [or_assoc]

theorem decodeSingle_refused (w : Code) :
    Refused (decodeSingle w) ↔ reservedSingleWord w = true := by
  unfold decodeSingle reservedSingleWord
  have hlt := field_lt w 24 4
  have hop := field_lt w 20 4
  split
  case h_1 h | h_2 h | h_3 h | h_4 h =>
    simp only [h]
    exact decodeNarrowable_refused _ w fun _ _ _ => rfl
  case h_5 h => simp only [h]; exact decodeNopMove_refused w
  case h_6 h =>
    simp only [h]
    rw [decodeAlu1_refused .exp w (fun _ _ => false) (fun _ _ _ => rfl)]
    simp
  case h_7 h =>
    simp only [h]
    rw [decodeAlu1_refused .sat w (fun wide high => !wide || !high) (fun b d pm => by
      cases hb : b.wide <;> simp [Instr.reject, hb, rejectResult_isSome])]
    cases evenResult w <;> cases reservedParallel w <;> (simp <;> omega)
  case h_8 h =>
    simp only [h]
    rw [decodeAlu1_refused .rnd w (fun wide _ => !wide) (fun b d pm => by
      cases hb : b.wide <;> simp [Instr.reject, hb])]
    cases reservedParallel w <;> (simp <;> omega)
  case h_9 h | h_10 h => simp only [h]; exact decodeMul_refused w
  case h_11 => simp only [refused_error]

theorem decodeLdc_refused (w : Code) :
    Refused (decodeLdc w) ↔ reservedReg (field w 0 6) = true := by
  unfold decodeLdc
  rcases MoveReg.ofCode_cases _ (field_lt w 0 6) with ⟨hres, r, hr⟩ | ⟨hres, r, hr⟩
  · simp [hr, hres, refused_error]
  · simp [hr, hres, refused_ok, Instr.reject]

theorem decodeJr_refused (w : Code) :
    Refused (decodeJr w) ↔ unlistedCondition (field w 0 6) = true := by
  unfold decodeJr
  rcases Cond.ofCode_cases _ (field_lt w 0 6) with ⟨hres, r, hr⟩ | ⟨hres, c, hc⟩
  · simp [hr, hres, refused_error]
  · simp only [hc, hres, refused_ok]
    split <;> simp [Instr.reject]

theorem decodeJump_refused (mk : Word → Cond → Instr) (w : Code)
    (hmk : ∀ a c, (mk a c).reject = none) :
    Refused (decodeJump mk w) ↔ unlistedCondition (field w 0 6) = true := by
  unfold decodeJump
  rcases Cond.ofCode_cases _ (field_lt w 0 6) with ⟨hres, r, hr⟩ | ⟨hres, c, hc⟩
  · simp [hr, hres, refused_error]
  · simp [hc, hres, refused_ok, hmk]

theorem decodeLoop_refused (w : Code) :
    Refused (decodeLoop w) ↔ reservedReg (field w 0 5) = true := by
  have hlt := field_lt w 0 5
  unfold decodeLoop
  rcases MoveReg.ofCode_cases _ (show field w 0 5 < 64 by omega) with ⟨hres, r, hr⟩ | ⟨hres, r, hr⟩
  · simp [hr, hres, refused_error]
  · simp [hr, hres, refused_ok, Instr.reject, MoveReg.loopable_ofCode _ hlt r hr]

theorem decodeJmpi_refused (w : Code) : Refused (decodeJmpi w) ↔ (field w 3 2 == 2) = true := by
  unfold decodeJmpi
  rcases JmpiStep.ofCode_cases _ (field_lt w 3 2) with ⟨hres, hr⟩ | ⟨hres, mm, hm⟩
  · simp only [hr, refused_error, true_iff]
    simp [hres]
  · simp [hm, hres, refused_ok, Instr.reject]

theorem decodeControl_refused (w : Code) :
    Refused (decodeControl w) ↔ reservedControlWord w = true := by
  unfold decodeControl reservedControlWord
  split
  case h_1 h => simp only [h]; exact decodeJr_refused w
  case h_2 h =>
    simp only [h, refused_ok]
    split <;> simp [Instr.reject]
  case h_3 h => simp [h, refused_ok, Instr.reject]
  case h_4 h | h_5 h | h_6 h | h_7 h => simp only [h]; exact decodeLoop_refused w
  case h_8 h | h_9 h => simp only [h]; exact decodeJump_refused _ w fun _ _ => rfl
  case h_10 h => simp only [h]; exact decodeJmpi_refused w
  case h_11 h => simp [h, refused_error]
  case h_12 h => simp [h, refused_ok, Instr.reject]
  case h_13 => simp only [refused_error]

theorem decodeDouble_refused (w : Code) :
    Refused (decodeDouble w) ↔
      (reservedReg (field w 14 6) || reservedReg (field w 0 6)) = true := by
  unfold decodeDouble
  rcases decodeFull_cases w 14 with ⟨hx, r, hr⟩ | ⟨hx, x, ex⟩
  · simp [hr, hx, refused_error]
  rcases decodeFull_cases w 0 with ⟨hy, r, hr⟩ | ⟨hy, y, ey⟩
  · simp [ex, hr, hx, hy, refused_error]
  · simp [ex, ey, hx, hy, refused_ok, Instr.reject]

theorem decodeCore_refused (w : Code) : Refused (decodeCore w) ↔ reservedWord w = true := by
  have hlt := field_lt w 28 4
  unfold decodeCore reservedWord
  split
  case h_1 h | h_2 h => simp only [h]; exact decodeLdc_refused w
  case h_3 h => simp only [h]; exact decodeControl_refused w
  case h_4 h => simp only [h]; exact decodeDouble_refused w
  case h_6 h | h_8 h => simp only [h]; exact decodeMac_refused _ w fun _ _ _ _ _ => rfl
  case h_11 h => simp only [h]; exact decodeAshl_refused w
  case h_15 h => simp [h, refused_error]
  case h_16 =>
    have h15 : field w 28 4 = 15 := by
      simp only [imp_false] at *
      omega
    simp only [h15]
    exact decodeSingle_refused w
  all_goals
    rename_i h
    simp only [h]
    exact decodeAlu2_refused _ w fun _ _ _ _ => rfl

/-- Settles O4: the decoder refuses a word where its opcode's row is refused, and each format's
reader is refused on the spec's reserved words. -/
theorem decoderRefusesExactlyReservedWords : Obligations.DecoderRefusesExactlyReservedWords :=
  fun w => (decode_error_iff w).trans (decodeCore_refused w)

/-! ### Known words and conditions -/

/-- Settles O3: closed facts about ten words. -/
theorem knownWordsDecode : Obligations.KnownWordsDecode :=
  ⟨rfl, rfl, rfl, rfl, rfl, rfl, rfl, rfl, rfl, rfl⟩

/-- The codes of Table 1. -/
def listedConditions : List Nat := [0, 1, 2, 3, 4, 5, 8, 9, 17, 18, 19, 20, 21, 24, 25]

theorem Cond.ofCode_unlisted : ∀ n < 64, n ∉ listedConditions →
    Cond.ofCode n = .error .unlistedCondition := by decide

/-- Bit 4 set negates the condition of the code with bit 4 clear (R117). -/
theorem Cond.negation (m : Mr0) (n : Nat) (hn : n < 16) (h0 : n ≠ 0) (c : Cond)
    (hc : Cond.ofCode n = .ok c) :
    ∃ d, Cond.ofCode (n + 16) = .ok d ∧ Cond.holds d m = !Cond.holds c m := by
  have hcode : c.code = n := by
    have table : ∀ k < 16, (match Cond.ofCode k with
        | .ok d => d.code == k
        | .error _ => true) = true := by decide
    simpa [hc] using table n hn
  subst hcode
  cases c with
  | always => exact absurd rfl h0
  | cs => exact ⟨.cc, rfl, rfl⟩
  | es => exact ⟨.ec, rfl, rfl⟩
  | vs => exact ⟨.vc, rfl, rfl⟩
  | ns => exact ⟨.nc, rfl, rfl⟩
  | zs => exact ⟨.zc, rfl, rfl⟩
  | lt => exact ⟨.ge, rfl, rfl⟩
  | le => exact ⟨.gt, rfl, rfl⟩
  | _ => exact absurd hn (by decide)

/-- Settles O45: each row of Table 1, the codes it leaves out, and the negated pairs. -/
theorem conditionsOverFlags : Obligations.ConditionsOverFlags := by
  intro m lt table
  refine ⟨?rows, fun n hn hout => ?unlisted, fun n hn h0 c hc => Cond.negation m n hn h0 c hc⟩
  case rows =>
    simp only [table, List.forall_mem_cons]
    exact ⟨⟨.always, rfl, rfl⟩, ⟨.cs, rfl, rfl⟩, ⟨.es, rfl, rfl⟩, ⟨.vs, rfl, rfl⟩, ⟨.ns, rfl, rfl⟩,
      ⟨.zs, rfl, rfl⟩, ⟨.lt, rfl, rfl⟩, ⟨.le, rfl, rfl⟩, ⟨.cc, rfl, rfl⟩, ⟨.ec, rfl, rfl⟩,
      ⟨.vc, rfl, rfl⟩, ⟨.nc, rfl, rfl⟩, ⟨.zc, rfl, rfl⟩, ⟨.ge, rfl, rfl⟩, ⟨.gt, rfl, rfl⟩, by simp⟩
  case unlisted =>
    refine Cond.ofCode_unlisted n hn fun hmem => ?_
    have hcodes : listedConditions = table.map Prod.fst := rfl
    obtain ⟨row, hrow, hfst⟩ := List.mem_map.mp (hcodes ▸ hmem)
    exact hout row hrow hfst

end Sys2Proof

/-! Don't-care bits (R120): no format's decoder reads them, and encoded words have them 0. -/

namespace Sys2Proof

open Machine

/-! ### Fields and masks -/

theorem testBit_field (w : Code) (lo len k : Nat) :
    (field w lo len).testBit k = (decide (k < len) && w.getLsbD (lo + k)) := by
  rw [field, ← Nat.shiftRight_eq_div_pow, Nat.testBit_mod_two_pow, Nat.testBit_shiftRight]
  rfl

/-- A field that a mask does not meet is left alone when the mask's bits are cleared. -/
theorem field_clear (w m : Code) (lo len : Nat) (hm : field m lo len = 0) (hlen : lo + len ≤ 32) :
    field (w &&& ~~~m) lo len = field w lo len := by
  apply Nat.eq_of_testBit_eq
  intro k
  have hk : (field m lo len).testBit k = false := by rw [hm]; exact Nat.zero_testBit k
  rw [testBit_field] at hk
  rw [testBit_field, testBit_field, BitVec.getLsbD_and, BitVec.getLsbD_not]
  by_cases hlt : k < len
  · have hbit : m.getLsbD (lo + k) = false := by simpa [hlt] using hk
    have h32 : lo + k < 32 := by omega
    rw [hbit, decide_eq_true h32]
    simp
  · simp [hlt]

/-- A mask whose bits all lie in fields that are 0 meets no bit of the word. -/
theorem and_eq_zero_of_fields (w m : Code) (fs : List (Nat × Nat))
    (hm : ∀ k < 32, m.getLsbD k = true → ∃ f ∈ fs, f.1 ≤ k ∧ k < f.1 + f.2)
    (hw : Holds w (fs.map fun f => (f.1, f.2, 0))) : w &&& m = 0 := by
  apply BitVec.eq_of_getLsbD_eq
  intro k hk
  rw [BitVec.getLsbD_and]
  cases hmk : m.getLsbD k with
  | false => simp
  | true =>
    obtain ⟨f, hf, hlo, hhi⟩ := hm k hk hmk
    have hbit := testBit_field w f.1 f.2 (k - f.1)
    have hzero : field w f.1 f.2 = 0 := hw _ (List.mem_map_of_mem hf)
    rw [hzero, Nat.zero_testBit, Nat.add_sub_cancel' hlo] at hbit
    have hin : k - f.1 < f.2 := by omega
    simpa [hin] using hbit.symm

theorem clear_nothing (w : Code) : w &&& ~~~(0 : Code) = w := by
  rw [show ~~~(0 : Code) = BitVec.allOnes 32 from rfl, BitVec.and_allOnes]

/-! ### The decoder -/

/-- Clearing a mask's bits that no field of LDC meets (R109). -/
theorem decodeCore_clear_ldc (w : Code) (h : field w 28 4 = 0 ∨ field w 28 4 = 1) :
    decodeCore (w &&& ~~~(0x1FC00000 : Code)) = decodeCore w := by
  have htop : field (w &&& ~~~(0x1FC00000 : Code)) 29 3 = field w 29 3 := field_clear _ _ _ _ rfl (by decide)
  have hc : field (w &&& ~~~(0x1FC00000 : Code)) 6 16 = field w 6 16 := field_clear _ _ _ _ rfl (by decide)
  have hr : field (w &&& ~~~(0x1FC00000 : Code)) 0 6 = field w 0 6 := field_clear _ _ _ _ rfl (by decide)
  have hcleared : field (w &&& ~~~(0x1FC00000 : Code)) 28 4 = 0 ∨
      field (w &&& ~~~(0x1FC00000 : Code)) 28 4 = 1 := by
    apply field_ldc
    rw [htop]
    unfold field at *
    omega
  have hldc : decodeLdc (w &&& ~~~(0x1FC00000 : Code)) = decodeLdc w := by simp only [decodeLdc, hc, hr]
  have hcore : ∀ v : Code, field v 28 4 = 0 ∨ field v 28 4 = 1 → decodeCore v = decodeLdc v := by
    rintro v (hv | hv) <;> simp only [decodeCore, hv]
  rw [hcore _ hcleared, hcore _ h, hldc]

/-- Clearing the don't-care bits of the single-operand NOP (R195). -/
theorem decodeCore_clear_nopMove (w : Code) (hop : field w 28 4 = 15) (hsub : field w 24 4 = 4) :
    decodeCore (w &&& ~~~(0x00FE0000 : Code)) = decodeCore w := by
  have hpm : decodePMove (w &&& ~~~(0x00FE0000 : Code)) = decodePMove w := by
    simp (disch := decide) only [decodePMove, decodeFull, decodeShort, field_clear]
  have hcore : ∀ v : Code, field v 28 4 = 15 → field v 24 4 = 4 → decodeCore v = decodeNopMove v := by
    intro v h1 h2
    simp only [decodeCore, h1, decodeSingle, h2]
  rw [hcore _ ((field_clear w _ 28 4 rfl (by decide)).trans hop) ((field_clear w _ 24 4 rfl (by decide)).trans hsub),
    hcore w hop hsub, decodeNopMove, decodeNopMove, hpm]

/-- A control word whose format does not read the bits of a mask: its code and each field that the
code's reader takes stay. -/
theorem decodeControl_clear_jr (w : Code) (h : field w 24 4 = 0) :
    decodeControl (w &&& ~~~dontCareControl w) = decodeControl w := by
  have hbit := field_lt w 23 1
  by_cases hform : field w 23 1 = 1
  · simp only [dontCareControl, h, hform, if_true]
    simp (disch := decide) only [decodeControl, decodeJr, field_clear, h]
  · simp only [dontCareControl, h, hform, if_false]
    simp (disch := decide) only [decodeControl, decodeJr, field_clear, h, hform, if_false]

theorem decodeControl_clear_reti (w : Code) (h : field w 24 4 = 1) :
    decodeControl (w &&& ~~~dontCareControl w) = decodeControl w := by
  by_cases hform : field w 23 1 = 1
  · simp only [dontCareControl, h, hform, if_true]
    simp (disch := decide) only [decodeControl, field_clear, h]
  · simp only [dontCareControl, h, hform, if_false]
    simp (disch := decide) only [decodeControl, field_clear, h, hform, if_false]

theorem decodeControl_clear_resp (w : Code) (h : field w 24 4 = 2) :
    decodeControl (w &&& ~~~(0x0081FFFF : Code)) = decodeControl w := by
  simp (disch := decide) only [decodeControl, field_clear, h]

/-- LOOP's code is bits 27:26 only; clearing the two bits below leaves it a LOOP (R100). -/
theorem decodeControl_clear_loop (w : Code) (h : field w 26 2 = 1) :
    decodeControl (w &&& ~~~(0x03C00020 : Code)) = decodeControl w := by
  have hcontrol : ∀ v : Code, field v 26 2 = 1 → decodeControl v = decodeLoop v := by
    intro v hv
    rcases field_loop v hv with h24 | h24 | h24 | h24 <;> simp only [decodeControl, h24]
  rw [hcontrol _ ((field_clear w _ 26 2 rfl (by decide)).trans h), hcontrol w h]
  simp (disch := decide) only [decodeLoop, field_clear]

theorem decodeControl_clear_jump (w : Code) (h : field w 24 4 = 8 ∨ field w 24 4 = 9) :
    decodeControl (w &&& ~~~(0x00C00000 : Code)) = decodeControl w := by
  rcases h with h | h <;> simp (disch := decide) only [decodeControl, decodeJump, field_clear, h]

theorem decodeControl_clear_jmpi (w : Code) (h : field w 24 4 = 10) :
    decodeControl (w &&& ~~~(0x00C00020 : Code)) = decodeControl w := by
  simp (disch := decide) only [decodeControl, decodeJmpi, field_clear, h]

theorem decodeControl_clear_halt (w : Code) (h : field w 24 4 = 13) :
    decodeControl (w &&& ~~~(0x00FFFFFF : Code)) = decodeControl w := by
  simp (disch := decide) only [decodeControl, field_clear, h]

/-- The codes 4 to 7 of the control group are LOOP's bits 27:26. -/
theorem field_of_loop (w : Code)
    (h : field w 24 4 = 4 ∨ field w 24 4 = 5 ∨ field w 24 4 = 6 ∨ field w 24 4 = 7) :
    field w 26 2 = 1 := by
  unfold field at *
  omega

theorem decodeControl_clear (w : Code) :
    decodeControl (w &&& ~~~dontCareControl w) = decodeControl w := by
  by_cases h0 : field w 24 4 = 0
  · exact decodeControl_clear_jr w h0
  by_cases h1 : field w 24 4 = 1
  · exact decodeControl_clear_reti w h1
  unfold dontCareControl
  split
  case h_1 h => exact absurd h h0
  case h_2 h => exact absurd h h1
  case h_3 h => exact decodeControl_clear_resp w h
  case h_4 h => exact decodeControl_clear_loop w (field_of_loop w (.inl h))
  case h_5 h => exact decodeControl_clear_loop w (field_of_loop w (.inr (.inl h)))
  case h_6 h => exact decodeControl_clear_loop w (field_of_loop w (.inr (.inr (.inl h))))
  case h_7 h => exact decodeControl_clear_loop w (field_of_loop w (.inr (.inr (.inr h))))
  case h_8 h => exact decodeControl_clear_jump w (.inl h)
  case h_9 h => exact decodeControl_clear_jump w (.inr h)
  case h_10 h => exact decodeControl_clear_jmpi w h
  case h_11 h => exact decodeControl_clear_halt w h
  case h_12 => rw [clear_nothing]

/-- The don't-care bits of a control word lie below its opcode. -/
theorem field_opcode_dontCareControl (w : Code) : field (dontCareControl w) 28 4 = 0 := by
  unfold dontCareControl
  split
  case h_1 => split <;> rfl
  case h_2 => split <;> rfl
  all_goals rfl

theorem decodeCore_clear (w : Code) : decodeCore (w &&& ~~~dontCare w) = decodeCore w := by
  unfold dontCare
  split
  case h_1 h => exact decodeCore_clear_ldc w (.inl h)
  case h_2 h => exact decodeCore_clear_ldc w (.inr h)
  case h_3 h =>
    rw [decodeCore_of_control w h, decodeCore_of_control, decodeControl_clear w]
    rw [field_clear w _ 28 4 (field_opcode_dontCareControl w) (by decide), h]
  case h_4 h =>
    split
    · next hsub => exact decodeCore_clear_nopMove w h hsub
    · rw [clear_nothing]
  case h_5 => rw [clear_nothing]

theorem decode_clear (w : Code) : decode (w &&& ~~~dontCare w) = decode w := by
  unfold decode
  rw [decodeCore_clear]

/-! ### The encoder -/

/-- Only LDC, control words and the single-operand NOP have don't-care bits. -/
theorem dontCare_eq_zero (w : Code) (hlow : 3 ≤ field w 28 4)
    (hnop : field w 28 4 = 15 → field w 24 4 ≠ 4) : dontCare w = 0 := by
  unfold dontCare
  split
  case h_1 h | h_2 h | h_3 h => omega
  case h_4 h => exact if_neg (hnop h)
  case h_5 => rfl

/-- A control word's don't-care bits are those of its code. -/
theorem dontCare_of_control (w : Code) (h : field w 28 4 = 2) : dontCare w = dontCareControl w := by
  simp only [dontCare, h]

theorem dontCare_of_ldc (w : Code) (h : field w 29 3 = 0) : dontCare w = 0x1FC00000 := by
  rcases field_ldc w h with h | h <;> simp only [dontCare, h]

theorem dontCareControl_of_loop (w : Code) (h : field w 26 2 = 1) :
    dontCareControl w = 0x03C00020 := by
  rcases field_loop w h with h | h | h | h <;> simp only [dontCareControl, h]

theorem dontCare_of_nopMove (w : Code) (hop : field w 28 4 = 15) (hsub : field w 24 4 = 4) :
    dontCare w = 0x00FE0000 := by
  simp only [dontCare, hop, hsub, if_true]

theorem clear_nopMove (pm : PMove) (w : Code)
    (h : withPMove (15 * 268435456 + 4 * 16777216) pm = some w) : w &&& dontCare w = 0 := by
  have hfields := holds_nopMove pm w h
  simp only [holds_append, holds_cons] at hfields
  obtain ⟨⟨hop, hsub, -⟩, -⟩ := hfields
  obtain ⟨low, hcode, hw⟩ := toNat_of_withPMove _ pm w (by decide) h
  have hlow := pm.code_lt low hcode
  rw [dontCare_of_nopMove w hop hsub]
  refine and_eq_zero_of_fields w _ [(17, 7)] (by decide) ?_
  simp only [List.map_cons, List.map_nil, holds_cons, holds_nil, and_true, field]
  omega

theorem clear_ldc (c : Word) (r : MoveReg) (w : Code) (h : encode (.ldc c r) = some w) :
    w &&& dontCare w = 0 := by
  have hfields := encode_holds (.ldc c r) w rfl h
  simp only [Instr.fields, holds_cons] at hfields
  obtain ⟨htop, -⟩ := hfields
  have hc := c.isLt
  have hr := r.code_lt
  have hw := toNat_of_word _ w (by omega) h
  rw [dontCare_of_ldc w htop]
  refine and_eq_zero_of_fields w _ [(22, 7)] (by decide) ?_
  simp only [List.map_cons, List.map_nil, holds_cons, holds_nil, and_true, field]
  omega

/-- A control word's don't-care bits are 0 when they lie in fields that its rest leaves 0. -/
theorem clear_control (w : Code) (sub rest : Nat) (m : Code) (fs : List (Nat × Nat))
    (hsub : sub < 16) (hrest : rest < 16777216) (h : encodeControl sub rest = some w)
    (hmask : w.toNat = 2 * 268435456 + sub * 16777216 + rest → dontCareControl w = m)
    (hm : ∀ k < 32, m.getLsbD k = true → ∃ f ∈ fs, f.1 ≤ k ∧ k < f.1 + f.2)
    (hfs : w.toNat = 2 * 268435456 + sub * 16777216 + rest →
      Holds w (fs.map fun f => (f.1, f.2, 0))) :
    w &&& dontCare w = 0 := by
  have hw := toNat_of_control sub rest w hsub hrest h
  have hop : field w 28 4 = 2 := by unfold field; omega
  rw [dontCare_of_control w hop, hmask hw]
  exact and_eq_zero_of_fields w m fs hm (hfs hw)

/-- The words of the encoder have their don't-care bits 0. -/
theorem encode_clear (i : Instr) (w : Code) (hwf : i.WellFormed) (h : encode i = some w) :
    w &&& dontCare w = 0 := by
  have hfields := encode_holds i w hwf h
  have nothing : 3 ≤ field w 28 4 → (field w 28 4 = 15 → field w 24 4 ≠ 4) →
      w &&& dontCare w = 0 := fun h1 h2 => by rw [dontCare_eq_zero w h1 h2]; simp
  cases i with
  | ldc c r => exact clear_ldc c r w h
  | nop => exact clear_ldc 0 .nop w h
  | jrcc c =>
    have hc := c.code_lt
    refine clear_control w _ _ 0x007FFFC0 [(6, 17)] (by decide) (by omega) h (fun hw => ?_)
      (by decide) (fun hw => ?_)
    · have hsub : field w 24 4 = 0 := by unfold field; omega
      have hform : field w 23 1 ≠ 1 := by unfold field; omega
      simp only [dontCareControl, hsub, hform, if_false]
    · simp only [List.map_cons, List.map_nil, holds_cons, holds_nil, and_true, field]
      omega
  | jrccOp1 c n =>
    have hc := c.code_lt
    have hn := n.isLt
    refine clear_control w _ _ 0x007FFE00 [(9, 14)] (by decide) (by omega) h (fun hw => ?_)
      (by decide) (fun hw => ?_)
    · have hsub : field w 24 4 = 0 := by unfold field; omega
      have hform : field w 23 1 = 1 := by unfold field; omega
      simp only [dontCareControl, hsub, hform, if_true]
    · simp only [List.map_cons, List.map_nil, holds_cons, holds_nil, and_true, field]
      omega
  | reti =>
    refine clear_control w _ _ 0x007FFFFF [(0, 23)] (by decide) (by decide) h (fun hw => ?_)
      (by decide) (fun hw => ?_)
    · have hsub : field w 24 4 = 1 := by unfold field; omega
      have hform : field w 23 1 ≠ 1 := by unfold field; omega
      simp only [dontCareControl, hsub, hform, if_false]
    · simp only [List.map_cons, List.map_nil, holds_cons, holds_nil, and_true, field]
      omega
  | retiOp1 n =>
    have hn := n.isLt
    refine clear_control w _ _ 0x007FFE3F [(9, 14), (0, 6)] (by decide) (by omega) h (fun hw => ?_)
      (by decide) (fun hw => ?_)
    · have hsub : field w 24 4 = 1 := by unfold field; omega
      have hform : field w 23 1 = 1 := by unfold field; omega
      simp only [dontCareControl, hsub, hform, if_true]
    · simp only [List.map_cons, List.map_nil, holds_cons, holds_nil, and_true, field]
      omega
  | resp op1 op2 =>
    have h1 := op1.code_lt
    have h2 := op2.code_lt
    refine clear_control w _ _ 0x0081FFFF [(23, 1), (0, 17)] (by decide) (by omega) h (fun hw => ?_)
      (by decide) (fun hw => ?_)
    · have hsub : field w 24 4 = 2 := by unfold field; omega
      simp only [dontCareControl, hsub]
    · simp only [List.map_cons, List.map_nil, holds_cons, holds_nil, and_true, field]
      omega
  | loop last count =>
    have hcount : count.code < 32 := count.code_lt_of_loopable (by
      simpa [Instr.WellFormed, Instr.reject] using hwf)
    have hl := last.isLt
    refine clear_control w _ _ 0x03C00020 [(22, 4), (5, 1)] (by decide) (by omega) h (fun hw => ?_)
      (by decide) (fun hw => ?_)
    · exact dontCareControl_of_loop w (by unfold field; omega)
    · simp only [List.map_cons, List.map_nil, holds_cons, holds_nil, and_true, field]
      omega
  | jcc a c =>
    have ha := a.isLt
    have hc := c.code_lt
    refine clear_control w _ _ 0x00C00000 [(22, 2)] (by decide) (by omega) h (fun hw => ?_)
      (by decide) (fun hw => ?_)
    · have hsub : field w 24 4 = 8 := by unfold field; omega
      simp only [dontCareControl, hsub]
    · simp only [List.map_cons, List.map_nil, holds_cons, holds_nil, and_true, field]
      omega
  | callcc a c =>
    have ha := a.isLt
    have hc := c.code_lt
    refine clear_control w _ _ 0x00C00000 [(22, 2)] (by decide) (by omega) h (fun hw => ?_)
      (by decide) (fun hw => ?_)
    · have hsub : field w 24 4 = 9 := by unfold field; omega
      simp only [dontCareControl, hsub]
    · simp only [List.map_cons, List.map_nil, holds_cons, holds_nil, and_true, field]
      omega
  | jmpi a mm n =>
    have ha := a.isLt
    have hm := mm.code_lt
    have hn := n.isLt
    refine clear_control w _ _ 0x00C00020 [(22, 2), (5, 1)] (by decide) (by omega) h (fun hw => ?_)
      (by decide) (fun hw => ?_)
    · have hsub : field w 24 4 = 10 := by unfold field; omega
      simp only [dontCareControl, hsub]
    · simp only [List.map_cons, List.map_nil, holds_cons, holds_nil, and_true, field]
      omega
  | halt =>
    refine clear_control w _ _ 0x00FFFFFF [(0, 24)] (by decide) (by decide) h (fun hw => ?_)
      (by decide) (fun hw => ?_)
    · have hsub : field w 24 4 = 13 := by unfold field; omega
      simp only [dontCareControl, hsub]
    · simp only [List.map_cons, List.map_nil, holds_cons, holds_nil, and_true, field]
      omega
  | nopMove pm => exact clear_nopMove pm w h
  | parShort x y => exact clear_nopMove (.short x y) w h
  | parFull b m => exact clear_nopMove (.full b m) w h
  | mvDouble xs xd ys yd => exact absurd h (by simp [encode])
  | parUncoded m => exact absurd h (by simp [encode, withPMove, PMove.code])
  | mul mm b a pm =>
    simp only [Instr.fields, holds_append, holds_cons] at hfields
    obtain ⟨⟨hop, hsub, -⟩, -⟩ := hfields
    exact nothing (by omega) fun _ => by rcases field_mul w hsub with h24 | h24 <;> omega
  | abs b d pm | asr b d pm | lsr b d pm | lsrc b d pm | exp b d pm | sat b d pm | rnd b d pm =>
    simp only [Instr.fields, alu1Fields, holds_append, holds_cons] at hfields
    obtain ⟨⟨hop, hsub, -⟩, -⟩ := hfields
    exact nothing (by omega) fun _ => by omega
  | mac a mm b d pm | msu a mm b d pm =>
    simp only [Instr.fields, macFields, holds_append, holds_cons] at hfields
    obtain ⟨⟨hop, -⟩, -⟩ := hfields
    exact nothing (by omega) (by omega)
  | dmove x y =>
    simp only [Instr.fields, doubleFields, holds_cons] at hfields
    obtain ⟨hop, -⟩ := hfields
    exact nothing (by omega) (by omega)
  | ldx n p r | stx n p r | ldy n p r | sty n p r =>
    simp only [Instr.fields, holds_append, holds_cons] at hfields
    obtain ⟨⟨hop, -⟩, -⟩ := hfields
    exact nothing (by omega) (by omega)
  | _ =>
    simp only [Instr.fields, alu2Fields, holds_append, holds_cons] at hfields
    obtain ⟨⟨hop, -⟩, -⟩ := hfields
    exact nothing (by omega) (by omega)

/-- Settles O5: the decoder's side by clearing the bits, the encoder's by the formats. -/
theorem dontCareBitsIgnored : Obligations.DontCareBitsIgnored :=
  ⟨decode_clear, encode_clear⟩

end Sys2Proof

/-! Rows that share words (R125, R153, R154, R184): each row plans what its representative plans. -/

namespace Sys2Proof.Machine

/-- Instructions that are checked alike, write alike and plan alike have one meaning. -/
theorem exec_congr (i j : Instr) (s : State) (hi : i.unitsDiffer = true) (hj : j.unitsDiffer = true)
    (hreject : i.reject = j.reject) (htargets : i.targets = j.targets)
    (hplan : i.plan s = j.plan s) : exec i s = exec j s := by
  have hconflict : i.conflict = j.conflict := congrArg hasRepeat htargets
  rw [exec_eq_runWord i s hi, exec_eq_runWord j s hj, hplan, runWord, runWord, hreject, hconflict]

/-- The total NOP plans nothing (R121). -/
theorem exec_nop (s : State) : exec .nop s = .next s :=
  exec_of_plan_nil .nop s rfl rfl rfl rfl

/-! ### A double move with one half the move NOP -/

theorem loadsLoop_of_nop (m : FullMove) (h : m.reg = .nop) : loadsLoop m = false := by
  simp [loadsLoop, h]

theorem loadsLoop_of_store (m : FullMove) (h : m.store = true) : loadsLoop m = false := by
  simp [loadsLoop, h]

/-- A load reads memory, and its plan does not look at LSUP. -/
theorem State.fullAccess_load_lsup (s : State) (l : Fin 3) (b : Bus) (m : FullMove)
    (h : m.store = false) : ({ s with lsup := l } : State).fullAccess b m = s.fullAccess b m := by
  unfold State.fullAccess
  simp only [h]
  rfl

/-- The access of the one move that is left of a double move reads the state before the word. -/
theorem State.fullAccess_reading (s : State) (b : Bus) (x y m : FullMove)
    (h : m.store = true → loadsLoop x = false ∧ loadsLoop y = false) :
    (s.reading x y).fullAccess b m = s.fullAccess b m := by
  cases hm : m.store with
  | true =>
    obtain ⟨hx, hy⟩ := h hm
    have hreading : s.reading x y = s := by simp [State.reading, hx, hy]
    rw [hreading]
  | false =>
    obtain ⟨l, hl⟩ := s.reading_frame x y
    rw [hl, s.fullAccess_load_lsup l b m hm]

theorem both_ok_nil (p : Except Fault (List Write)) : both (.ok []) p = p := by
  cases p <;> rfl

theorem both_nil_ok (p : Except Fault (List Write)) : both p (.ok []) = p := by
  cases p with
  | error f => rfl
  | ok ws => simp [both]

theorem State.doubleMove_of_left_nop (s : State) (x y : FullMove) (hx : x.reg = .nop) :
    s.doubleMove x y = s.fullMove .y y := by
  have hy : (s.reading x y).fullAccess .y y = s.fullAccess .y y :=
    s.fullAccess_reading .y x y y fun h => ⟨loadsLoop_of_nop x hx, loadsLoop_of_store y h⟩
  simp only [State.doubleMove, State.fullMove, hy, State.fullStep_of_nop _ _ x hx,
    State.fullAccess_of_nop _ _ x hx, both_ok_nil, List.nil_append]

theorem State.doubleMove_of_right_nop (s : State) (x y : FullMove) (hy : y.reg = .nop) :
    s.doubleMove x y = s.fullMove .x x := by
  have hx : (s.reading x y).fullAccess .x x = s.fullAccess .x x :=
    s.fullAccess_reading .x x y x fun h => ⟨loadsLoop_of_store x h, loadsLoop_of_nop y hy⟩
  simp only [State.doubleMove, State.fullMove, hx, State.fullStep_of_nop _ _ y hy,
    State.fullAccess_of_nop _ _ y hy, both_nil_ok, List.append_nil]

theorem targets_dmove (x y : FullMove) : (Instr.dmove x y).targets = x.targets ++ y.targets := rfl

/-- A double move has the meaning of the name that R125 gives it. -/
theorem exec_canonDouble (x y : FullMove) (s : State) :
    exec (.dmove x y) s = exec (canonDouble x y) s := by
  obtain ⟨xstore, xidx, xpost, xreg⟩ := x
  obtain ⟨ystore, yidx, ypost, yreg⟩ := y
  unfold canonDouble
  split
  · rename_i h
    obtain ⟨hx, -⟩ : xreg = .nop ∧ yreg ≠ .nop := h
    cases ystore <;>
      exact exec_congr _ _ s rfl rfl rfl
        (by simp [Instr.targets, FullMove.targets_of_nop, hx]) (s.doubleMove_of_left_nop _ _ hx)
  split
  · rename_i h
    obtain ⟨hy, -⟩ : yreg = .nop ∧ xreg ≠ .nop := h
    cases xstore <;>
      exact exec_congr _ _ s rfl rfl rfl
        (by simp [Instr.targets, FullMove.targets_of_nop, hy]) (s.doubleMove_of_right_nop _ _ hy)
  · rfl

/-- A single move has the meaning of the double move that its word is. -/
theorem exec_canonSingle (b : Bus) (m : FullMove) (i : Instr) (s : State)
    (hunits : i.unitsDiffer = true) (hreject : i.reject = none) (htargets : i.targets = m.targets)
    (hplan : i.plan s = s.fullMove b m) : exec i s = exec (canonSingle b m) s := by
  cases b with
  | x =>
    rw [canonSingle, ← exec_canonDouble]
    exact exec_congr _ _ s hunits rfl hreject
      (by rw [htargets, targets_dmove, FullMove.targets_of_nop .moveNop rfl]; simp)
      (hplan.trans (s.doubleMove_of_right_nop m .moveNop rfl).symm)
  | y =>
    rw [canonSingle, ← exec_canonDouble]
    exact exec_congr _ _ s hunits rfl hreject
      (by rw [htargets, targets_dmove, FullMove.targets_of_nop .moveNop rfl]; simp)
      (hplan.trans (s.doubleMove_of_left_nop .moveNop m rfl).symm)

/-! ### Operations with two names -/

/-- XOR with ONES complements its operand at either width (R184). -/
theorem State.alu2_xor_ones (s : State) (op2 : AluSrc) (dst : AReg) :
    s.alu2 (fun _ a b => logicOut (a ^^^ b)) .ones op2 dst =
      s.alu1 (fun _ b => logicOut (~~~b)) op2 dst := by
  have complement : ∀ (w : Nat) (b : BitVec w), BitVec.allOnes w ^^^ b = ~~~b := fun w b => by
    rw [BitVec.allOnes_xor]
  have h40 : ∀ b, (s.operand40 .ones).1 ^^^ b = ~~~b := complement 40
  have h16 : ∀ b, s.operand16 .ones ^^^ b = ~~~b := complement 16
  have hw : wide2 .ones op2 = op2.wide := rfl
  simp only [State.alu2, State.alu1, h40, h16, hw]

theorem exec_xor_ones (op2 : AluSrc) (dst : AReg) (pm : PMove) (s : State) :
    exec (.xor .ones op2 dst pm) s = exec (.not op2 dst pm) s :=
  exec_congr _ _ s rfl rfl (rejectAlu2_ones op2 dst) rfl (by
    simp only [Instr.plan, s.alu2_xor_ones])

/-- LSL and LSLC write what ADD and ADDC with the operand twice write (R153, R154). -/
theorem resultTargets_same (op2 : AluSrc) (dst : AReg) :
    resultTargets op2.wide dst = resultTargets (wide2 op2 op2) dst := by
  rw [wide2, Bool.or_self]

theorem exec_lsl (op2 : AluSrc) (dst : AReg) (pm : PMove) (s : State) :
    exec (.lsl op2 dst pm) s = exec (.add op2 op2 dst pm) s :=
  exec_congr _ _ s rfl rfl (rejectAlu2_same op2 dst).symm
    (by simp only [Instr.targets, resultTargets_same]) rfl

theorem exec_lslc (op2 : AluSrc) (dst : AReg) (pm : PMove) (s : State) :
    exec (.lslc op2 dst pm) s = exec (.addc op2 op2 dst pm) s :=
  exec_congr _ _ s rfl rfl (rejectAlu2_same op2 dst).symm
    (by simp only [Instr.targets, resultTargets_same]) rfl

/-- Settles O7: by the rows that share words; every other row is its own representative. -/
theorem aliasesShareOneMeaning : Obligations.AliasesShareOneMeaning := by
  intro i s
  cases i with
  | ldc c r =>
    show exec (.ldc c r) s = exec (if r = .nop then .nop else .ldc c r) s
    split
    · next h => rw [h, exec_ldc_nop, exec_nop]
    · rfl
  | dmove x y => exact exec_canonDouble x y s
  | ldx n p r | stx n p r => exact exec_canonSingle .x _ _ s rfl rfl rfl rfl
  | ldy n p r | sty n p r => exact exec_canonSingle .y _ _ s rfl rfl rfl rfl
  | xor a b d pm =>
    show exec (.xor a b d pm) s = exec (if a = .ones then .not b d pm else .xor a b d pm) s
    split
    · next h => rw [h, exec_xor_ones]
    · rfl
  | lsl b d pm => exact exec_lsl b d pm s
  | lslc b d pm => exact exec_lslc b d pm s
  | parShort x y =>
    exact exec_congr _ (.nopMove (.short x y)) s rfl rfl rfl rfl (both_ok_nil _).symm
  | parFull b m => exact exec_congr _ (.nopMove (.full b m)) s rfl rfl rfl rfl (both_ok_nil _).symm
  | parUncoded m =>
    exact exec_congr _ (.nopMove (.uncoded m)) s rfl rfl rfl rfl (both_ok_nil _).symm
  | _ => rfl

end Sys2Proof.Machine

/-! When a word runs (R119, R259, R283, R68): an instruction takes a next state exactly when its plan
meets no fault and no check stops it. -/

namespace Sys2Proof.Machine

/-- A plan that met no fault. -/
def planned (p : Except Fault (List Write)) : Prop := ∃ ws, p = .ok ws

@[simp] theorem planned_ok (ws : List Write) : planned (.ok ws) := ⟨ws, rfl⟩

@[simp] theorem not_planned_error (f : Fault) : ¬ planned (.error f) := by simp [planned]

theorem planned_both_ok (ws : List Write) (p : Except Fault (List Write)) :
    planned (both (.ok ws) p) ↔ planned p := by
  cases p <;> simp [both]

/-- Each kind of move is planned exactly when the memory that it accesses is there (R68). -/
theorem State.fullMove_planned_iff (s : State) (b : Bus) (m : FullMove) :
    planned (s.fullMove b m) ↔ s.fullAdmitted b m = true := by
  cases h : s.fullAdmitted b m with
  | true => obtain ⟨ws, hw, -⟩ := s.fullMove_ok b m h; simp [hw]
  | false => simp [s.fullMove_error b m h]

theorem State.doubleMove_planned_iff (s : State) (x y : FullMove) :
    planned (s.doubleMove x y) ↔ (s.fullAdmitted .x x && s.fullAdmitted .y y) = true := by
  cases h : s.fullAdmitted .x x && s.fullAdmitted .y y with
  | true =>
    obtain ⟨hx, hy⟩ := Bool.and_eq_true_iff.mp h
    obtain ⟨ws, hw, -⟩ := s.doubleMove_ok x y hx hy
    simp [hw]
  | false => obtain ⟨f, hf⟩ := s.doubleMove_error x y h; simp [hf]

theorem State.uncodedMove_planned_iff (s : State) (m : UncodedMove) :
    planned (s.uncodedMove m) ↔ s.uncodedAdmitted m = true := by
  cases h : s.uncodedAdmitted m with
  | true => obtain ⟨ws, hw, -⟩ := s.uncodedMove_ok m h; simp [hw]
  | false => obtain ⟨f, hf⟩ := s.uncodedMove_error m h; simp [hf]

theorem State.parallel_planned_iff (s : State) (pm : PMove) :
    planned (s.parallel pm) ↔ s.parallelAdmitted pm = true := by
  cases h : s.parallelAdmitted pm with
  | true => obtain ⟨ws, hw, -⟩ := s.parallel_ok pm h; simp [hw]
  | false => obtain ⟨f, hf⟩ := s.parallel_error pm h; simp [hf]

/-- An instruction is planned exactly when the memory that it accesses is there. -/
theorem plan_planned_iff (i : Instr) (s : State) :
    planned (i.plan s) ↔ i.admittedIn s = true := by
  cases i with
  | dmove x y => exact s.doubleMove_planned_iff x y
  | parShort x y => exact s.doubleMove_planned_iff x.full y.full
  | ldx n p r | stx n p r | ldy n p r | sty n p r => exact s.fullMove_planned_iff _ _
  | parFull b m => exact s.fullMove_planned_iff b m
  | parUncoded m => exact s.uncodedMove_planned_iff m
  | ldc c r | nop | jrcc c | jrccOp1 c n | reti | retiOp1 n | resp a b | loop l c | jcc a c
  | callcc a c | jmpi a mm n | mvDouble xs xd ys yd | halt =>
    simp [Instr.plan, Instr.admittedIn]
  | _ => exact (planned_both_ok _ _).trans (s.parallel_planned_iff _)

/-- An instruction that may run leaves the state of its plan's writes. -/
theorem exec_of_plan (i : Instr) (s : State) (ws : List Write) (hwf : i.WellFormed)
    (hfree : i.ConflictFree) (hunits : i.unitsDiffer = true) (hplan : i.plan s = .ok ws) :
    exec i s = .next (s.writes ws) := by
  rw [exec_eq_runWord i s hunits, runWord_next_iff]
  exact ⟨hwf, hfree, ws, hplan, rfl⟩

/-- Settles O16: a next state means a plan without fault, which means memory that is there. -/
theorem completesExactlyWhenItRuns : Obligations.CompletesExactlyWhenItRuns := by
  intro i s
  constructor
  · rintro ⟨t, h⟩
    obtain ⟨hwf, hfree, hunits, ws, hplan, -⟩ := exec_next i s t h
    exact ⟨hwf, hfree, hunits, (plan_planned_iff i s).mp ⟨ws, hplan⟩⟩
  · rintro ⟨hwf, hfree, hunits, hadmitted⟩
    obtain ⟨ws, hplan⟩ := (plan_planned_iff i s).mpr hadmitted
    exact ⟨_, exec_of_plan i s ws hwf hfree hunits hplan⟩

/-- Settles O17: the check for two writers comes before the plan. -/
theorem twoWritersRefused : Obligations.TwoWritersRefused := by
  intro i s hwf hunits hconflict
  have hreject : i.reject = none := hwf
  rw [exec_eq_runWord i s hunits, runWord, hreject, hconflict]
  rfl

end Sys2Proof.Machine

/-! What an instruction leaves alone (R48, R258, R32): a view of the state that none of its writes can
change is as it was. -/

namespace Sys2Proof

/-- The registers that a write names, as `Instr.written` lists them. -/
def Machine.Write.targets : Machine.Write → List Target
  | .result16 r _ => r.targets
  | .result40 x _ | .accLow x _ _ => x.targets
  | .reg r _ => r.targets
  | .index n _ => [.step n]
  | .link _ => [.control .lr0]
  | .loop _ _ _ => [.control .ls, .control .le, .control .lc]
  | .page0 => [.control .ipr0]
  | .flags _ | .product _ _ | .data _ _ _ | .code _ _ | .lsup | .clearL | .transfer _ | .halt => []

namespace Machine

/-- A write that an instruction plans names only its destinations. -/
theorem written_of_mayWrite (i : Instr) (s : State) (w : Write) (h : i.mayWrite s w) :
    ∀ t ∈ w.targets, t ∈ i.written := by
  cases w with
  | loop ls le lc =>
    obtain ⟨hls, hle, hlc⟩ := h
    simp [Write.targets, hls, hle, hlc]
  | index n v | link v | page0 => simpa [Write.targets, Instr.mayWrite] using h
  | reg r v | result16 r v | result40 x v | accLow x v g => exact h
  | _ => simp [Write.targets]

/-- A view that no planned write changes is as it was after the instruction. -/
theorem exec_frame {α : Type} (f : State → α) (i : Instr) (s t : State) (h : exec i s = .next t)
    (hf : ∀ w, i.mayWrite s w → ∀ u : State, f (u.write w) = f u) : f t = f s := by
  obtain ⟨-, -, -, ws, hplan, rfl⟩ := exec_next i s t h
  exact State.writes_frame f ws (fun w hw => hf w (i.plan_mayWrite s ws hplan w hw)) s

/-- A view of one register is as it was where the register is no destination. -/
theorem exec_frame_target {α : Type} (f : State → α) (target : Target) (i : Instr) (s t : State)
    (h : exec i s = .next t) (hout : target ∉ i.written)
    (hf : ∀ (w : Write) (u : State), target ∉ w.targets → f (u.write w) = f u) : f t = f s :=
  exec_frame f i s t h fun w hw u => hf w u fun hin => hout (written_of_mayWrite i s w hw _ hin)

/-! ### One write and the sequencing state -/

section
variable (u : State) (w : Write)

@[simp] theorem State.write_pc : (u.write w).pc = u.pc := by cases w <;> simp [State.write]
@[simp] theorem State.write_npc : (u.write w).npc = u.npc := by cases w <;> simp [State.write]
@[simp] theorem State.write_ds : (u.write w).ds = u.ds := by cases w <;> simp [State.write]
@[simp] theorem State.write_fprev : (u.write w).fprev = u.fprev := by cases w <;> simp [State.write]
@[simp] theorem State.write_prevk : (u.write w).prevk = u.prevk := by cases w <;> simp [State.write]
@[simp] theorem State.write_intsm : (u.write w).intsm = u.intsm := by cases w <;> simp [State.write]
@[simp] theorem State.write_plat : (u.write w).plat = u.plat := by cases w <;> simp [State.write]
@[simp] theorem State.write_events : (u.write w).events = u.events := by
  cases w <;> simp [State.write]
@[simp] theorem State.write_memEpoch : (u.write w).memEpoch = u.memEpoch := by
  cases w <;> simp [State.write]
@[simp] theorem State.write_freeCtr : (u.write w).freeCtr = u.freeCtr := by
  cases w <;> simp [State.write]
@[simp] theorem State.write_sti2 : (u.write w).sti2 = u.sti2 := by cases w <;> simp [State.write]

end

/-- A register write opens the page of the fetches only in IPR0 (R261). -/
theorem State.writeReg_pageOpen (s : State) (r : MoveReg) (v : Word) (h : r ≠ .ipr0) :
    (s.writeReg r v).pageOpen = s.pageOpen := by
  cases r with
  | ipr0 => exact absurd rfl h
  | _ => simp [State.writeReg]

/-- Settles O15: no write touches the sequencing state but those of the kinds that the statement
excludes. -/
theorem frameOfSequencing : Obligations.FrameOfSequencing := by
  intro i s t h
  refine ⟨?_, ?_, ?_, ?_, ?_, ?_, ?_, ?_, ?_, ?_, ?_, fun hflow => ?xfer, fun hne => ?hlt,
    fun hlc hls hle => ?lsup, fun hstores => ⟨?irqOff, ?sti1⟩, fun hipr0 => ?pageOpen⟩
  case xfer =>
    refine exec_frame (·.xfer) i s t h fun w hw u => ?_
    cases w with
    | transfer x => exact absurd hw (by simp [Instr.mayWrite, hflow])
    | _ => simp [State.write]
  case hlt =>
    refine exec_frame (·.hlt) i s t h fun w hw u => ?_
    cases w with
    | halt => exact absurd hw hne
    | _ => simp [State.write]
  case lsup =>
    refine exec_frame (·.lsup) i s t h fun w hw u => ?_
    cases w with
    | lsup => exact absurd hw (by simp [Instr.mayWrite, hlc, hls, hle])
    | _ => simp [State.write]
  case irqOff =>
    refine exec_frame (·.irqOff) i s t h fun w hw u => ?_
    cases w with
    | data b key v => exact absurd hw (by simp [Instr.mayWrite, hstores])
    | _ => simp [State.write]
  case sti1 =>
    refine exec_frame (·.sti1) i s t h fun w hw u => ?_
    cases w with
    | code a v => exact absurd hw (by simp [Instr.mayWrite, hstores])
    | _ => simp [State.write]
  case pageOpen =>
    refine exec_frame_target (·.pageOpen) (.control .ipr0) i s t h hipr0 fun w u hout => ?_
    cases w with
    | reg r v =>
      refine u.writeReg_pageOpen r v ?_
      rintro rfl
      exact hout (by simp [Write.targets, MoveReg.targets])
    | page0 => exact absurd hout (by simp [Write.targets])
    | _ => simp [State.write]
  all_goals exact exec_frame _ i s t h fun w _ u => by simp

/-! ### One write and the registers -/

theorem State.acc_setAcc (s : State) (x y : Acc) (v : Accum) :
    (s.setAcc y v).acc x = if x = y then v else s.acc x := by
  split
  · next h => rw [h, State.acc_setAcc_same]
  · next h => exact State.acc_setAcc_other s y x v h

/-- The parts x0, x1, x2 of an accumulator as numbers, under the numbers of `Target.part`. -/
def Accum.part (a : Accum) (k : Fin 3) : Nat :=
  match k with
  | 0 => a.x0.toNat
  | 1 => a.x1.toNat
  | 2 => a.x2.toNat

theorem State.part_setAReg (u : State) (r : AReg) (v : Word) (x : Acc) (k : Fin 3)
    (h : .part x k ∉ r.targets) : ((u.setAReg r v).acc x).part k = (u.acc x).part k := by
  cases r with
  | lo y =>
    simp only [State.setAReg, State.acc_setAcc]
    split
    · next hxy =>
      subst hxy
      have hk : k ≠ 0 := by simpa [AReg.targets] using h
      match k, hk with
      | 1, _ => rfl
      | 2, _ => rfl
    · rfl
  | hi y =>
    simp only [State.setAReg, State.acc_setAcc]
    split
    · next hxy =>
      subst hxy
      obtain ⟨h1, h2⟩ : k ≠ 1 ∧ k ≠ 2 := by simpa [AReg.targets] using h
      match k, h1, h2 with
      | 0, _, _ => rfl
      | 1, h1, _ => exact absurd rfl h1
      | 2, _, h2 => exact absurd rfl h2
    · rfl

/-- A write of a whole accumulator leaves the others alone (R22). -/
theorem State.acc_setAcc_of_targets (u : State) (x y : Acc) (v : Accum) (k : Fin 3)
    (h : .part x k ∉ y.targets) : (u.setAcc y v).acc x = u.acc x := by
  refine State.acc_setAcc_other u y x v ?_
  rintro rfl
  match k with
  | 0 | 1 | 2 => exact h (by simp [Acc.targets])

theorem State.part_writeReg (u : State) (r : MoveReg) (v : Word) (x : Acc) (k : Fin 3)
    (h : .part x k ∉ r.targets) : ((u.writeReg r v).acc x).part k = (u.acc x).part k := by
  cases r with
  | areg r => exact u.part_setAReg r v x k h
  | guard y =>
    simp only [State.writeReg, State.acc_setAcc]
    split
    · next hxy =>
      subst hxy
      have hk : k ≠ 2 := by simpa [MoveReg.targets] using h
      match k, hk with
      | 0, _ => rfl
      | 1, _ => rfl
      | 2, hk => exact absurd rfl hk
    · rfl
  | idx n => simp [State.writeReg]
  | ipr0 => simp [State.writeReg]
  | _ => rfl

/-- A part of an accumulator that a write does not name is left alone. -/
theorem State.part_write (u : State) (w : Write) (x : Acc) (k : Fin 3)
    (h : .part x k ∉ w.targets) : ((u.write w).acc x).part k = (u.acc x).part k := by
  cases w with
  | result16 r v => exact u.part_setAReg r v x k h
  | reg r v => exact u.part_writeReg r v x k h
  | result40 y v => rw [State.write, State.setLong, u.acc_setAcc_of_targets x y _ k h]
  | accLow y v g => rw [State.write, u.acc_setAcc_of_targets x y _ k h]
  | index n v | data b key v | code a v => simp [State.write]
  | _ => rfl

/-- An index register that a write neither loads nor steps is left alone. -/
theorem State.index_write (u : State) (w : Write) (n : IReg) (hload : .index n ∉ w.targets)
    (hstep : .step n ∉ w.targets) : (u.write w).index n = u.index n := by
  cases w with
  | index m v =>
    have hne : n ≠ m := by simpa [Write.targets] using hstep
    exact u.index_setIndex_other m n v hne
  | reg r v =>
    cases r with
    | idx m =>
      have hne : n ≠ m := by simpa [Write.targets, MoveReg.targets] using hload
      exact u.index_setIndex_other m n v hne
    | areg r => exact State.index_congr _ _ (by simp [State.write, State.writeReg]) n
    | guard y => simp [State.write, State.writeReg]
    | ipr0 => simp [State.write, State.writeReg]
    | _ => rfl
  | result16 r v | result40 y v => exact State.index_congr _ _ (by simp [State.write]) n
  | accLow y v g => simp [State.write]
  | data b key v | code a v => simp [State.write]
  | _ => rfl

/-! A control register that a write does not name is left alone. -/

section
variable (u : State) (w : Write)

theorem State.lr0_write (h : .control .lr0 ∉ w.targets) : (u.write w).lr0 = u.lr0 := by
  cases w with
  | reg r v => cases r <;> simp_all [State.write, State.writeReg, Write.targets, MoveReg.targets]
  | _ => simp_all [State.write, Write.targets]

theorem State.lr1_write (h : .control .lr1 ∉ w.targets) : (u.write w).lr1 = u.lr1 := by
  cases w with
  | reg r v => cases r <;> simp_all [State.write, State.writeReg, Write.targets, MoveReg.targets]
  | _ => simp_all [State.write, Write.targets]

theorem State.ls_write (h : .control .ls ∉ w.targets) : (u.write w).ls = u.ls := by
  cases w with
  | reg r v => cases r <;> simp_all [State.write, State.writeReg, Write.targets, MoveReg.targets]
  | _ => simp_all [State.write, Write.targets]

theorem State.le_write (h : .control .le ∉ w.targets) : (u.write w).le = u.le := by
  cases w with
  | reg r v => cases r <;> simp_all [State.write, State.writeReg, Write.targets, MoveReg.targets]
  | _ => simp_all [State.write, Write.targets]

theorem State.lc_write (h : .control .lc ∉ w.targets) : (u.write w).lc = u.lc := by
  cases w with
  | reg r v => cases r <;> simp_all [State.write, State.writeReg, Write.targets, MoveReg.targets]
  | _ => simp_all [State.write, Write.targets]

theorem State.ipr0_write (h : .control .ipr0 ∉ w.targets) : (u.write w).ipr0 = u.ipr0 := by
  cases w with
  | reg r v => cases r <;> simp_all [State.write, State.writeReg, Write.targets, MoveReg.targets]
  | _ => simp_all [State.write, Write.targets]

theorem State.ipr1_write (h : .control .ipr1 ∉ w.targets) : (u.write w).ipr1 = u.ipr1 := by
  cases w with
  | reg r v => cases r <;> simp_all [State.write, State.writeReg, Write.targets, MoveReg.targets]
  | _ => simp_all [State.write, Write.targets]

end

/-- Settles O12: each register through the frame of one write. -/
theorem frameOfRegisters : Obligations.FrameOfRegisters := by
  intro i s t h
  have part : ∀ x k, .part x k ∉ i.written → (t.acc x).part k = (s.acc x).part k := fun x k hout =>
    exec_frame_target (fun u => (u.acc x).part k) _ i s t h hout
      fun w u hw => u.part_write w x k hw
  refine ⟨fun x => ⟨fun hout => BitVec.eq_of_toNat_eq (part x 0 hout),
    fun hout => BitVec.eq_of_toNat_eq (part x 1 hout),
    fun hout => BitVec.eq_of_toNat_eq (part x 2 hout)⟩, fun n hload hstep => ?index,
    fun hout => exec_frame_target (·.lr0) _ i s t h hout fun w u => u.lr0_write w,
    fun hout => exec_frame_target (·.lr1) _ i s t h hout fun w u => u.lr1_write w,
    fun hout => exec_frame_target (·.ls) _ i s t h hout fun w u => u.ls_write w,
    fun hout => exec_frame_target (·.le) _ i s t h hout fun w u => u.le_write w,
    fun hout => exec_frame_target (·.lc) _ i s t h hout fun w u => u.lc_write w,
    fun hout => exec_frame_target (·.ipr0) _ i s t h hout fun w u => u.ipr0_write w,
    fun hout => exec_frame_target (·.ipr1) _ i s t h hout fun w u => u.ipr1_write w⟩
  case index =>
    refine exec_frame (·.index n) i s t h fun w hw u => ?_
    have hnamed := written_of_mayWrite i s w hw
    exact u.index_write w n (fun hin => hload (hnamed _ hin)) fun hin => hstep (hnamed _ hin)

end Machine

end Sys2Proof

/-! MR0, P and memory: what a write leaves of them (R48, R25, R258). -/

namespace Sys2Proof.Machine

section
variable (u : State) (w : Write)

/-- Only a write that names MR0 changes the mode bits. -/
theorem State.modes_write (h : .control .mr0 ∉ w.targets) :
    (u.write w).mr0.s = u.mr0.s ∧ (u.write w).mr0.i = u.mr0.i ∧ (u.write w).mr0.r = u.mr0.r := by
  cases w with
  | reg r v =>
    cases r <;> simp_all [State.write, State.writeReg, Write.targets, MoveReg.targets]
  | flags f => exact ⟨rfl, rfl, rfl⟩
  | _ => simp [State.write]

theorem State.l_write (h : .control .mr0 ∉ w.targets) (hclear : w ≠ .clearL) :
    (u.write w).mr0.l = u.mr0.l := by
  cases w with
  | reg r v =>
    cases r <;> simp_all [State.write, State.writeReg, Write.targets, MoveReg.targets]
  | flags f => rfl
  | clearL => exact absurd rfl hclear
  | _ => simp [State.write]

/-- The status flags of MR0 alone. -/
def Mr0.status (m : Mr0) : Flags := { z := m.z, n := m.n, v := m.v, e := m.e, c := m.c }

theorem State.status_write (h : .control .mr0 ∉ w.targets) (hflags : ∀ f, w ≠ .flags f) :
    (u.write w).mr0.status = u.mr0.status := by
  cases w with
  | reg r v =>
    cases r <;> simp_all [State.write, State.writeReg, Write.targets, MoveReg.targets]
  | flags f => exact absurd rfl (hflags f)
  | clearL => rfl
  | _ => simp [State.write]

theorem State.product_write (hproduct : ∀ v m, w ≠ .product v m) :
    (u.write w).p = u.p ∧ (u.write w).pmode = u.pmode := by
  cases w with
  | product v m => exact absurd rfl (hproduct v m)
  | _ => simp [State.write]

/-- A byte of memory that a write does not store to reads as before. -/
theorem State.byteAt_write (sp : Space) (k : Nat)
    (hdata : ∀ b key v, w = .data b key v → (sp, k / cellsPerWord sp) ≠ (b.space, key))
    (hcode : ∀ a v, w = .code a v → (sp, k / cellsPerWord sp) ≠ (.i, a.toNat)) :
    (u.write w).byteAt sp k = u.byteAt sp k := by
  have keep : (u.write w).xmem = u.xmem → (u.write w).ymem = u.ymem →
      (u.write w).imem = u.imem → (u.write w).byteAt sp k = u.byteAt sp k := fun hx hy hi =>
    State.byteAt_congr _ _ sp k (by simp) (by cases sp <;> simp [State.mem, hx, hy, hi])
  cases w with
  | data b key v =>
    refine u.storeData_byteAt b key v sp k fun hsp hkey => hdata b key v rfl ?_
    subst hsp
    cases b <;> exact Prod.ext rfl hkey
  | code a v =>
    refine u.storeCode_byteAt a v sp k fun hsp hkey => hcode a v rfl ?_
    subst hsp
    exact Prod.ext rfl hkey
  | _ => exact keep (by simp [State.write]) (by simp [State.write]) (by simp [State.write])

end

/-! ### Jumps -/

/-- A jump's writes clear L, and hand over the transfer if it is taken (R313, R320). -/
theorem State.writes_jumpWrites (s : State) (taken : Bool) (target : Word) (page : Option Word) :
    s.writes (jumpWrites taken target page) =
      { s with mr0 := { s.mr0 with l := false },
               xfer := if taken then .delayed target page else s.xfer } := by
  cases taken <;> rfl

theorem State.mr0_jumpWrites (s : State) (taken : Bool) (target : Word) (page : Option Word) :
    (s.writes (jumpWrites taken target page)).mr0.l = false := by
  rw [State.writes_jumpWrites]

/-- The change-of-flow set without JMPI clears L (R320). -/
theorem l_of_clearsL (i : Instr) (s t : State) (h : exec i s = .next t) (hc : i.clearsL = true) :
    t.mr0.l = false := by
  have hcof : kindOf i = .cof := by simpa [Instr.clearsL] using hc
  obtain ⟨-, -, -, ws, hplan, rfl⟩ := exec_next i s t h
  have hpmove : ∀ pm, pmoveKind pm ≠ .cof := by
    intro pm hpm
    rcases pm with _ | _ | ⟨_ | _ | _⟩ <;> cases hpm
  cases i with
  | jrcc c | jrccOp1 c n | jcc a c | reti | retiOp1 n =>
    cases hplan
    exact State.mr0_jumpWrites ..
  | callcc a c =>
    cases hplan
    rw [State.writes_cons, State.mr0_jumpWrites]
  | loop last count => cases hplan; rfl
  | parUncoded m => exact absurd hcof (hpmove (.uncoded m))
  | ldc _ _ | nop | resp _ _ | mvDouble _ _ _ _ | halt | dmove _ _ | ldx _ _ _ | stx _ _ _
  | ldy _ _ _ | sty _ _ _ | parShort _ _ | parFull _ _ | jmpi _ _ _ => cases hcof
  | _ => exact absurd hcof (hpmove _)

/-- Settles O13: the bits of MR0 and the product through the frame of one write; L by
`l_of_clearsL` where the instruction clears it. -/
theorem frameOfFlagsAndProduct : Obligations.FrameOfFlagsAndProduct := by
  intro i s t h
  refine ⟨fun hout => ⟨?s, ?i, ?r, ?l, fun hflags => ?status⟩, fun hP => ⟨?p, ?pmode⟩⟩
  case s => exact exec_frame_target (·.mr0.s) _ i s t h hout fun w u hw => (u.modes_write w hw).1
  case i => exact exec_frame_target (·.mr0.i) _ i s t h hout fun w u hw => (u.modes_write w hw).2.1
  case r => exact exec_frame_target (·.mr0.r) _ i s t h hout fun w u hw => (u.modes_write w hw).2.2
  case l =>
    cases hc : i.clearsL with
    | true => rw [l_of_clearsL i s t h hc]; simp
    | false =>
      have hl : t.mr0.l = s.mr0.l := exec_frame (·.mr0.l) i s t h fun w hw u =>
        u.l_write w (fun hin => hout (written_of_mayWrite i s w hw _ hin)) (by
          rintro rfl
          exact absurd hw (by simp [Instr.mayWrite, hc]))
      simp [hl]
  case status =>
    have hstatus : t.mr0.status = s.mr0.status := exec_frame (·.mr0.status) i s t h fun w hw u =>
      u.status_write w (fun hin => hout (written_of_mayWrite i s w hw _ hin)) (by
        rintro f rfl
        exact absurd hw (by simp [Instr.mayWrite, hflags]))
    simpa [Mr0.status] using hstatus
  case p =>
    refine exec_frame (·.p) i s t h fun w hw u => (u.product_write w ?_).1
    rintro v m rfl
    exact absurd hw (by simp [Instr.mayWrite, hP])
  case pmode =>
    refine exec_frame (·.pmode) i s t h fun w hw u => (u.product_write w ?_).2
    rintro v m rfl
    exact absurd hw (by simp [Instr.mayWrite, hP])

/-- Settles O14: the planned stores go to the addresses that the statement leaves out. -/
theorem frameOfMemory : Obligations.FrameOfMemory := by
  intro i s t h sp k hout
  refine exec_frame (·.byteAt sp k) i s t h fun w hw u => u.byteAt_write w sp k ?_ ?_
  · rintro b key v rfl heq
    exact hout (heq ▸ hw)
  · rintro a v rfl heq
    exact hout (heq ▸ hw)

/-! ### The invariant of every step -/

/-- Every write keeps the canonical form of the memories. -/
theorem State.write_memWf (u : State) (w : Write) (h : u.memWf) : (u.write w).memWf := by
  cases w with
  | data b key v => exact u.storeData_memWf b key v h
  | code a v => exact u.storeCode_memWf a v h
  | _ => simpa [State.memWf, State.write] using h

/-- The memories and the platform's images are in canonical form, and HLT agrees with INTSM: what of
the invariant holds between the parts of a step too. -/
def State.Consistent (s : State) : Prop :=
  s.memWf ∧ (Memory.wf s.plat.xImage = true ∧ Memory.wf s.plat.yImage = true ∧
    Memory.wf s.plat.iImage = true) ∧ s.hlt.agrees s.intsm = true

theorem State.inv_iff (s : State) : s.Inv ↔ s.Consistent ∧ s.xfer = .none := by
  simp only [State.Inv, State.Consistent, State.memWf]
  tauto

/-- HALT waits only where nothing has been received (R330). -/
theorem exec_halt (s : State) :
    exec .halt s = .next (if s.intsm = .idle then { s with hlt := .waiting } else s) := by
  rw [exec_of_plan .halt s _ rfl rfl rfl rfl]
  split <;> rfl

theorem exec_consistent (i : Instr) (s t : State) (h : exec i s = .next t) (hs : s.Consistent) :
    t.Consistent := by
  obtain ⟨hmem, himages, hagrees⟩ := hs
  have hmem' : t.memWf := by
    obtain ⟨-, -, -, ws, -, rfl⟩ := exec_next i s t h
    exact State.writes_keeps State.memWf ws (fun w _ u hu => u.write_memWf w hu) s hmem
  have hplat : t.plat = s.plat := exec_frame (·.plat) i s t h fun w _ u => by simp
  have hintsm : t.intsm = s.intsm := exec_frame (·.intsm) i s t h fun w _ u => by simp
  refine ⟨hmem', hplat ▸ himages, ?_⟩
  by_cases hi : i = .halt
  · subst hi
    rw [exec_halt] at h
    cases h
    split
    · next hidle => rw [hidle]; rfl
    · exact hagrees
  · have hhlt : t.hlt = s.hlt := exec_frame (·.hlt) i s t h fun w hw u => by
      cases w with
      | halt => exact absurd hw hi
      | _ => simp [State.write]
    rw [hhlt, hintsm]
    exact hagrees

theorem Hlt.count_agrees (h : Hlt) (im : Intsm) : h.count.agrees im = h.agrees im := by
  cases h <;> cases im <;> rfl

/-- The sequencing leaves the memories, the platform and INTSM alone, and HLT only counts. -/
theorem State.finish_frame (s t : State) (k : Kind) :
    (s.finish t k).xmem = t.xmem ∧ (s.finish t k).ymem = t.ymem ∧ (s.finish t k).imem = t.imem ∧
      (s.finish t k).plat = t.plat ∧ (s.finish t k).intsm = t.intsm ∧
      (s.finish t k).hlt = t.hlt.count ∧ (s.finish t k).xfer = .none := by
  obtain ⟨pc, page, op, ds, htransfer⟩ := t.transfer_frame
  obtain ⟨pc', page', ds', lc', hhazards, -⟩ := t.transfer.applyHazards_frame s k
  rw [State.finish, hhazards, htransfer]
  exact ⟨rfl, rfl, rfl, rfl, rfl, rfl, rfl⟩

/-- One instruction keeps the invariant, from any state that is consistent. -/
theorem runFetched_inv (s u : State) (w : Code) (h : s.runFetched w = .next u)
    (hs : s.Consistent) : u.Inv := by
  obtain ⟨i, t, -, hexec, rfl⟩ := (runFetched_next_iff s u w).mp h
  obtain ⟨hmem, himages, hagrees⟩ := exec_consistent i s.prepare t hexec hs
  obtain ⟨hx, hy, hi, hplat, hintsm, hhlt, hxfer⟩ := s.finish_frame t (kindOf i)
  refine (State.inv_iff _).mpr ⟨⟨?_, hplat ▸ himages, ?_⟩, hxfer⟩
  · rw [State.memWf, hx, hy, hi]
    exact hmem
  · rw [hhlt, hintsm, Hlt.count_agrees]
    exact hagrees

/-- The environment's part of a boundary keeps the invariant: a request is received only by an idle
state machine, and a waiting core then drains for it. -/
theorem State.takeEvent_inv (s : State) (h : s.Inv) : s.takeEvent.Inv := by
  have hsame := h
  obtain ⟨hx, hy, hi, hxi, hyi, hii, hxfer, hagrees⟩ := h
  unfold State.takeEvent State.receive
  split
  · exact hsame
  · exact hsame
  · split
    · next vec es _ hreceived =>
      obtain ⟨hidle, -⟩ := hreceived
      refine ⟨hx, hy, hi, hxi, hyi, hii, hxfer, ?_⟩
      rw [hidle] at hagrees
      cases hhlt : s.hlt with
      | running => rfl
      | waiting => simp [Hlt.agrees]
      | draining k v => rw [hhlt] at hagrees; exact absurd hagrees (by simp [Hlt.agrees])
    · exact hsame
  · exact hsame

/-- Settles O11: a system reset takes the platform's canonical images; an entry and an instruction
run a word in a consistent state; a halted boundary changes the counter alone. -/
theorem stepKeepsInvariant : Obligations.StepKeepsInvariant := by
  intro s u hs hstep
  have hevent := s.takeEvent_inv hs
  obtain ⟨hcons, hxfer⟩ := (State.inv_iff _).mp hevent
  rcases step_cases s with ⟨-, h⟩ | ⟨-, ⟨vec, -, h⟩ | ⟨-, -, h⟩ | ⟨-, -, h⟩⟩
  · obtain ⟨-, -, -, hx, hy, hi, -, -⟩ := hs
    rw [h] at hstep
    cases hstep
    exact ⟨hx, hy, hi, hx, hy, hi, rfl, rfl⟩
  · rw [h] at hstep
    obtain ⟨-, w, -, -, hrun⟩ := (enterInterrupt_next_iff _ u vec).mp hstep
    obtain ⟨hmem, himages, -⟩ := hcons
    exact runFetched_inv _ u w hrun ⟨hmem, himages, rfl⟩
  · rw [h] at hstep
    cases hstep
    exact hevent
  · rw [h] at hstep
    obtain ⟨w, i, t, hfetch, hdecode, hexec, hu⟩ := (runNext_next_iff _ u).mp hstep
    exact runFetched_inv _ u w ((runFetched_next_iff _ u w).mpr ⟨i, t, hdecode, hexec, hu⟩) hcons

end Sys2Proof.Machine

/-! Results of the ALU and the multiplier: each operation's plan is exact arithmetic narrowed to its
width, and the parallel move follows it. -/

namespace Sys2Proof.Machine

/-- An operation with a parallel move that runs: the operation's writes, then the move's effect. -/
theorem exec_parallel (i : Instr) (s : State) (op : List Write) (pm : PMove) (h : i.Runs s)
    (hplan : i.plan s = both (.ok op) (s.parallel pm))
    (hadmitted : i.admittedIn s = s.parallelAdmitted pm) :
    exec i s = .next ((s.writes op).applyParallel s pm) := by
  obtain ⟨hwf, hfree, hunits, hmem⟩ := h
  rw [exec_eq_runWord i s hunits, hplan]
  exact runParallel_runs i s op pm hwf hfree (hadmitted ▸ hmem)

/-- A two-operand operation, described in any way that agrees with it at both widths. -/
theorem exec_alu2 (i : Instr) (s : State) (f g : (w : Nat) → BitVec w → BitVec w → AluOut w)
    (op1 op2 : AluSrc) (dst : AReg) (pm : PMove) (h : i.Runs s)
    (hplan : i.plan s = both (.ok (s.alu2 f op1 op2 dst)) (s.parallel pm))
    (hadmitted : i.admittedIn s = s.parallelAdmitted pm) (h16 : ∀ a b, f 16 a b = g 16 a b)
    (h40 : ∀ a b, f 40 a b = g 40 a b) :
    exec i s = .next ((s.result2 op1 op2 dst g).applyParallel s pm) := by
  rw [exec_parallel i s _ pm h hplan hadmitted, State.writes_alu2,
    s.result2_congr op1 op2 dst f g h16 h40]

/-- A single-operand operation, described in any way that agrees with it at both widths. -/
theorem exec_alu1 (i : Instr) (s : State) (f g : (w : Nat) → BitVec w → AluOut w)
    (op2 : AluSrc) (dst : AReg) (pm : PMove) (h : i.Runs s)
    (hplan : i.plan s = both (.ok (s.alu1 f op2 dst)) (s.parallel pm))
    (hadmitted : i.admittedIn s = s.parallelAdmitted pm) (h16 : ∀ a, f 16 a = g 16 a)
    (h40 : ∀ a, f 40 a = g 40 a) :
    exec i s = .next ((s.result1 op2 dst g).applyParallel s pm) := by
  rw [exec_parallel i s _ pm h hplan hadmitted, State.writes_alu1,
    s.result1_congr op2 dst f g h16 h40]

/-! ### Add and subtract -/

/-- Settles O19: the adder with carry in 0 or C. -/
theorem addAndAddcResult : Obligations.AddAndAddcResult := by
  intro op1 op2 dst pm s
  constructor
  · exact fun h => exec_alu2 _ s _ _ op1 op2 dst pm h rfl rfl
      (fun a b => by simpa using addCore_word s.mr0.s a b false)
      (fun a b => by simpa using addCore_long s.mr0.s a b false)
  · exact fun h => exec_alu2 _ s _ _ op1 op2 dst pm h rfl rfl
      (fun a b => addCore_word s.mr0.s a b s.mr0.c) (fun a b => addCore_long s.mr0.s a b s.mr0.c)

/-- Settles O20: the subtractor with borrow 0 or `not C`. -/
theorem subAndSubcResult : Obligations.SubAndSubcResult := by
  intro op1 op2 dst pm s
  constructor
  · exact fun h => exec_alu2 _ s _ _ op1 op2 dst pm h rfl rfl
      (fun a b => by simpa using subCore_word s.mr0.s a b true)
      (fun a b => by simpa using subCore_long s.mr0.s a b true)
  · exact fun h => exec_alu2 _ s _ _ op1 op2 dst pm h rfl rfl
      (fun a b => subCore_word s.mr0.s a b s.mr0.c) (fun a b => subCore_long s.mr0.s a b s.mr0.c)

/-- A value added to itself: the carry out is its MSB, whatever the carry in (R153, R154). -/
theorem carry_of_double (w : Nat) (b : BitVec (w + 1)) (cin : Bool) :
    decide (2 ^ (w + 1) ≤ b.toNat + b.toNat + cin.toNat) = b.msb := by
  have hc := cin.toNat_le
  rw [BitVec.msb_eq_decide, decide_eq_decide, Nat.pow_succ]
  simp only [Nat.add_sub_cancel]
  omega

theorem double_word (mode : Bool) (b : Word) (cin : Bool) :
    addCore mode b b cin = narrow 16 mode (2 * b.toInt + cin.toNat) b.msb := by
  rw [addCore_word, ← Int.two_mul, carry_of_double 15 b cin]

theorem double_long (mode : Bool) (b : Long) (cin : Bool) :
    addCore mode b b cin = narrow 40 mode (2 * b.toInt + cin.toNat) b.msb := by
  rw [addCore_long, ← Int.two_mul, carry_of_double 39 b cin]

/-- An operand twice is wide where it is wide once. -/
theorem State.alu2_same (s : State) (f : (w : Nat) → BitVec w → BitVec w → AluOut w) (op2 : AluSrc)
    (dst : AReg) : s.alu2 f op2 op2 dst = s.alu1 (fun w b => f w b b) op2 dst := by
  simp only [State.alu2, State.alu1, wide2, Bool.or_self]

/-- Settles O21: the adder with its operand twice. -/
theorem lslAndLslcResult : Obligations.LslAndLslcResult := by
  intro op2 dst pm s
  constructor
  · exact fun h => exec_alu1 _ s _ _ op2 dst pm h (by rw [← s.alu2_same]; rfl) rfl
      (fun b => by simpa using double_word s.mr0.s b false)
      (fun b => by simpa using double_long s.mr0.s b false)
  · exact fun h => exec_alu1 _ s _ _ op2 dst pm h (by rw [← s.alu2_same]; rfl) rfl
      (fun b => double_word s.mr0.s b s.mr0.c) (fun b => double_long s.mr0.s b s.mr0.c)

/-- Settles O22. -/
theorem absResult : Obligations.AbsResult := fun op2 dst pm s h =>
  exec_alu1 _ s _ _ op2 dst pm h rfl rfl (fun b => absOut_word _ _ b) (fun b => absOut_long _ _ b)

/-! ### Logic and shifts -/

/-- Settles O23: a logic result fits its width, so it is narrowed to itself. -/
theorem logicResults : Obligations.LogicResults := by
  intro op1 op2 dst pm s
  refine ⟨fun h => ?and, fun h => ?or, fun h => ?xor, fun h => ?not⟩
  case not =>
    exact exec_alu1 _ s _ _ op2 dst pm h rfl rfl (fun b => logicOut_word _)
      (fun b => logicOut_long _)
  all_goals
    exact exec_alu2 _ s _ _ op1 op2 dst pm h rfl rfl (fun a b => logicOut_word _)
      (fun a b => logicOut_long _)

/-- ASR's top bit is the sign: half of the signed value, rounded down (R187). -/
theorem asr_word (b : Word) :
    shiftRightOut b.msb b = narrow 16 false (b.toInt / 2) (b.getLsbD 0) := by
  have hb := b.isLt
  rw [shiftRightOut_word]
  congr 1
  rw [BitVec.msb_eq_decide, BitVec.toInt_eq_toNat_cond]
  simp only [decide_eq_true_eq]
  split <;> split <;> omega

theorem asr_long (b : Long) :
    shiftRightOut b.msb b = narrow 40 false (b.toInt / 2) (b.getLsbD 0) := by
  have hb := b.isLt
  rw [shiftRightOut_long]
  congr 1
  rw [BitVec.msb_eq_decide, BitVec.toInt_eq_toNat_cond]
  simp only [decide_eq_true_eq]
  split <;> split <;> omega

/-- Settles O24: the right shift by one with the sign, 0 or C at the top. -/
theorem shiftRightByOneResults : Obligations.ShiftRightByOneResults := by
  intro op2 dst pm s
  refine ⟨fun h => ?asr, fun h => ?lsr, fun h => ?lsrc⟩
  case asr => exact exec_alu1 _ s _ _ op2 dst pm h rfl rfl asr_word asr_long
  case lsr =>
    exact exec_alu1 _ s _ _ op2 dst pm h rfl rfl
      (fun b => by simpa using shiftRightOut_word false b)
      (fun b => by simpa using shiftRightOut_long false b)
  case lsrc =>
    exact exec_alu1 _ s _ _ op2 dst pm h rfl rfl (fun b => shiftRightOut_word s.mr0.c b)
      (fun b => shiftRightOut_long s.mr0.c b)

/-- A word that is narrow writes at width 16 and a wide one at width 40: descriptions need agree only
at the width of the operand. -/
theorem State.result1_congr_width (s : State) (op2 : AluSrc) (dst : AReg)
    (f g : (w : Nat) → BitVec w → AluOut w)
    (h16 : op2.wide = false → ∀ a, f 16 a = g 16 a) (h40 : op2.wide = true → ∀ a, f 40 a = g 40 a) :
    s.result1 op2 dst f = s.result1 op2 dst g := by
  unfold State.result1
  cases hw : op2.wide with
  | true => rw [if_pos rfl, if_pos rfl, h40 hw]
  | false => rw [if_neg (by decide), if_neg (by decide), h16 hw]

/-- ASHL's output with a count in range (R185, R186). -/
theorem State.ashlOut_inRange (s : State) {w : Nat} (a : BitVec w) (n : Int)
    (hlow : -shiftLimit w ≤ n) (hhigh : n ≤ shiftLimit w) :
    s.ashlOut a n = ashlInRange s.mr0.s a n := by
  rw [State.ashlOut, if_neg (by omega)]

/-- Out of range ASHL's output is free, and does not depend on its operand (R185, log 28). -/
theorem State.ashlOut_outOfRange (s : State) {w : Nat} (a b : BitVec w) (n : Int)
    (hout : shiftLimit w < n ∨ n < -shiftLimit w) : s.ashlOut a n = s.ashlOut b n := by
  rw [State.ashlOut, State.ashlOut, if_pos hout, if_pos hout]

/-- Settles O25: in range by the shifter's arithmetic, out of range by its free output. -/
theorem ashlResults : Obligations.AshlResults := by
  intro op1 op2 dst pm s h n limit
  have hlimit : limit = if op1.wide then shiftLimit 40 else shiftLimit 16 := rfl
  have hrun : exec (.ashl op1 op2 dst pm) s =
      .next ((s.result1 op1 dst fun _ a => s.ashlOut a n).applyParallel s pm) :=
    exec_alu1 _ s _ _ op1 dst pm h rfl rfl (fun _ => rfl) (fun _ => rfl)
  constructor
  · intro hlow hhigh
    rw [hrun]
    congr 2
    refine s.result1_congr_width op1 dst _ _ (fun hw a => ?narrow) (fun hw a => ?wide)
    case narrow =>
      rw [hlimit, hw] at hlow hhigh
      rw [s.ashlOut_inRange a n hlow hhigh]
      exact ashlInRange_word _ a n hlow hhigh
    case wide =>
      rw [hlimit, hw] at hlow hhigh
      rw [s.ashlOut_inRange a n hlow hhigh]
      exact ashlInRange_long _ a n hlow hhigh
  · intro hout
    refine ⟨fun w => s.ashlOut (0 : BitVec w) n, ?_⟩
    rw [hrun]
    congr 2
    refine s.result1_congr_width op1 dst _ _ (fun hw a => ?_) (fun hw a => ?_) <;>
    · rw [hlimit, hw] at hout
      exact s.ashlOut_outOfRange a _ n (Or.symm hout)

/-! ### EXP, SAT and RND -/

/-- A 40-bit result whose flags take V from two causes. -/
theorem State.result40_orV (s : State) (dst : AReg) (o : AluOut 40) (p q : Bool) :
    s.result40 dst (o.orV p) q = s.result40 dst o (p || q) := by
  simp [State.result40, AluOut.orV, Flags.orV, Bool.or_assoc]

theorem State.result16_orV (s : State) (dst : AReg) (o : AluOut 16) (p q : Bool) :
    s.result16 dst (o.orV p) q = s.result16 dst o (p || q) := by
  simp [State.result16, AluOut.orV, Flags.orV, Bool.or_assoc]

/-- Settles O26: EXP counts at its operand's width. -/
theorem expResult : Obligations.ExpResult := by
  intro op2 dst pm s h
  have hrun := exec_parallel _ s _ pm h rfl rfl
  cases hw : op2.wide with
  | true =>
    obtain ⟨k, hk, hout⟩ := expOut_eq (s.operand40 op2).1 (by decide) (by decide)
    refine ⟨k, hk, ?_⟩
    rw [hrun, hw, if_pos rfl, hout, State.writes_writeNarrow, State.result16_orV,
      Bool.or_false, Bool.true_and]
  | false =>
    obtain ⟨k, hk, hout⟩ := expOut_eq (s.operand16 op2) (by decide) (by decide)
    refine ⟨k, hk, ?_⟩
    rw [hrun, hw, if_neg (by decide), hout, State.writes_writeNarrow, Bool.false_and]

/-- Settles O27. -/
theorem satResult : Obligations.SatResult := by
  intro op2 dst pm s h x
  rw [exec_parallel _ s _ pm h rfl rfl, State.writes_writeWide, satOut_eq, State.result40_orV]

/-- Settles O28. -/
theorem rndResult : Obligations.RndResult := by
  intro op2 dst pm s h
  obtain ⟨q, hq, hout⟩ := rndOut_eq s.mr0.r (s.operand40 op2).1
  refine ⟨q, hq, ?_⟩
  rw [exec_parallel _ s _ pm h rfl rfl, State.writes_writeNarrow, hout, State.result16_orV,
    State.result16_orV, Bool.or_false]

/-! ### The multiplier -/

/-- The exact product lies in the range of 32 bits under the reading of its modes (R221). -/
theorem exactProduct_bounds (mm : MulMode) (a b : Word) :
    (mm = .uu → 0 ≤ exactProduct mm a b ∧ exactProduct mm a b < 4294967296) ∧
    (mm ≠ .uu → -2147483648 ≤ exactProduct mm a b ∧ exactProduct mm a b < 2147483648) := by
  have ha := a.isLt
  have hb := b.isLt
  have hai : -32768 ≤ a.toInt ∧ a.toInt < 32768 := ⟨BitVec.le_toInt a, BitVec.toInt_lt⟩
  have hbi : -32768 ≤ b.toInt ∧ b.toInt < 32768 := ⟨BitVec.le_toInt b, BitVec.toInt_lt⟩
  obtain ⟨ha1, ha2⟩ := hai
  obtain ⟨hb1, hb2⟩ := hbi
  have hau : (0 : Int) ≤ a.toNat ∧ (a.toNat : Int) ≤ 65535 := by omega
  have hbu : (0 : Int) ≤ b.toNat ∧ (b.toNat : Int) ≤ 65535 := by omega
  cases mm <;> simp only [exactProduct, reduceCtorEq, if_true, if_false, or_true, true_or, or_self,
    false_implies, true_implies, ne_eq, not_true, not_false_iff, true_and, and_true]
  · constructor <;> nlinarith
  · constructor <;> nlinarith
  · constructor <;> nlinarith
  · constructor <;> nlinarith

/-- Settles O29: the pattern is the exact product's image, which fits. -/
theorem productIsExact : Obligations.ProductIsExact := by
  intro mm a b
  obtain ⟨hu, hs⟩ := exactProduct_bounds mm a b
  rw [product_eq]
  split
  · next h =>
    obtain ⟨h1, h2⟩ := hu h
    rw [BitVec.toNat_ofInt]
    omega
  · next h =>
    obtain ⟨h1, h2⟩ := hs h
    exact BitVec.toInt_ofInt_eq_self (by decide) (by simpa using h1) (by simpa using h2)

/-- The multiplier's write is the one that the statements describe (R221, R223). -/
theorem State.write_multiply (t s : State) (mm : MulMode) (op1 op2 : AReg) :
    t.write (s.multiply mm op1 op2) = t.withProduct s mm op1 op2 := by
  rw [State.multiply, State.write, product_eq]
  rfl

/-- Settles O30. -/
theorem mulResult : Obligations.MulResult := by
  intro mm op2 op1 pm s h
  rw [exec_parallel _ s _ pm h rfl rfl, State.writes_cons, State.write_multiply, State.writes_nil]

/-- The previous product goes into the accumulator and the new one into P (R226, R227). -/
theorem State.writes_accumulate (s : State) (f : Long → Long → AluOut 40) (op1 : AReg)
    (mm : MulMode) (op2 acc : AReg) :
    s.writes (s.accumulate f op1 mm op2 acc) =
      (s.result40 acc (f (s.acc acc.acc).value s.pRead.1) s.pRead.2).withProduct s mm op1 op2 := by
  rw [State.accumulate, State.writes_append, State.writes_writeWide, State.writes_cons,
    State.write_multiply, State.writes_nil]

/-- Settles O31: the 40-bit adder and subtractor on the previous product. -/
theorem macAndMsuResult : Obligations.MacAndMsuResult := by
  intro op1 mm op2 acc pm s a p
  constructor
  · intro h
    have hsum : addCore s.mr0.s a p false =
        narrow 40 s.mr0.s (a.toInt + p.toInt) (decide (2 ^ 40 ≤ a.toNat + p.toNat)) := by
      simpa using addCore_long s.mr0.s a p false
    rw [exec_parallel _ s _ pm h rfl rfl, State.writes_accumulate, hsum]
  · intro h
    have hdifference : subCore s.mr0.s a p true =
        narrow 40 s.mr0.s (a.toInt - p.toInt) (decide (p.toNat ≤ a.toNat)) := by
      simpa using subCore_long s.mr0.s a p true
    rw [exec_parallel _ s _ pm h rfl rfl, State.writes_accumulate, hdifference]

end Sys2Proof.Machine

/-! Operands (R142, R222) and moves (R24, R251 to R283): what a register reads as, and the effect of the
words that only move. -/

namespace Sys2Proof.Machine

/-! ### Operands -/

/-- A 16-bit register in a 40-bit operation is 2^16 times its value (R142). -/
theorem widen_toInt (v : Word) : (widen v).toInt = v.toInt * 65536 := by
  have hext : (v.signExtend 24).toInt = v.toInt := BitVec.toInt_signExtend_of_le (by decide)
  have happend : (v.signExtend 24 ++ (0#16 : Word)).toInt = 2 ^ 16 * (v.signExtend 24).toInt + 0 := by
    rw [BitVec.toInt_append]
    simp
  have hwiden : (widen v).toInt = (v.signExtend 24 ++ (0#16 : Word)).toInt := rfl
  rw [hwiden, happend, hext]
  omega

/-- Two-operand words with the code 1010, or with P as Op1, are reserved (R103, R119). -/
theorem reservedWord_of_operand (w : Code) (h4 : 4 ≤ field w 28 4) (h5 : field w 28 4 ≠ 5)
    (h7 : field w 28 4 ≠ 7) (h13 : field w 28 4 ≤ 13)
    (h : field w 24 4 = 10 ∨ field w 24 4 = 11 ∨ field w 20 4 = 10) : reservedWord w = true := by
  have halu2 : reservedAlu2Word w = true := by
    rcases h with h | h | h <;> simp [reservedAlu2Word, h]
  have hashl : reservedAshlWord w = true := by
    rcases h with h | h | h <;> simp [reservedAshlWord, h]
  unfold reservedWord
  split
  case h_7 => exact hashl
  case h_10 => exact halu2
  all_goals omega

/-- Single-operand words with the code 1010 are reserved (R103, R119). -/
theorem reservedWord_of_single (w : Code) (hop : field w 28 4 = 15) (h4 : field w 24 4 ≠ 4)
    (h14 : field w 24 4 < 14) (h : field w 20 4 = 10) : reservedWord w = true := by
  have hsingle : reservedSingleWord w = true := by
    unfold reservedSingleWord
    split
    case h_5 => exact absurd ‹_› h4
    case h_6 => omega
    case h_7 => omega
    case h_11 => rfl
    all_goals simp [h]
  simp only [reservedWord, hop]
  exact hsingle

/-- Settles O18: the values by the width of their parts; the refusals as reserved words. -/
theorem operandValues : Obligations.OperandValues := by
  refine ⟨fun s r x => ⟨rfl, rfl, rfl, rfl, rfl, widen_toInt (s.areg r), rfl, rfl, rfl,
    (s.acc x).value_toNat⟩, fun w h4 h5 h7 h13 h => ?_, fun w hop h4 h14 h => ?_⟩
  · exact (decoderRefusesExactlyReservedWords w).mpr (reservedWord_of_operand w h4 h5 h7 h13 h)
  · exact (decoderRefusesExactlyReservedWords w).mpr (reservedWord_of_single w hop h4 h14 h)

/-! ### The read of P -/

/-- P may be read where S and I are as at the multiplication, or no multiplication wrote it (R223). -/
theorem State.pModeBroken_of_modes (s : State)
    (h : s.pmode = none ∨ s.pmode = some { s := s.mr0.s, i := s.mr0.i }) :
    s.pModeBroken = false := by
  rcases h with h | h <;> simp [State.pModeBroken, pModePolicy, h]

/-- Twice P fits 32 bits exactly where its two top bits agree (R222). -/
theorem fits_double (p : Code) : fits 32 (2 * p.toInt) = (p.getLsbD 31 == p.getLsbD 30) := by
  have hp := p.isLt
  rw [Bool.eq_iff_iff, fits_iff, beq_iff_eq, BitVec.getLsbD, BitVec.getLsbD,
    Nat.testBit_eq_decide_div_mod_eq, Nat.testBit_eq_decide_div_mod_eq, decide_eq_decide,
    BitVec.toInt_eq_toNat_cond]
  split <;> omega

theorem getLsbD_31 (p : Code) : p.getLsbD 31 = decide (p.toInt < 0) := by
  have hp := p.isLt
  rw [BitVec.getLsbD, Nat.testBit_eq_decide_div_mod_eq, decide_eq_decide,
    BitVec.toInt_eq_toNat_cond]
  split <;> omega

/-- P shifted left within 32 bits is twice P, one wrap away where that does not fit. -/
theorem toInt_double (p : Code) :
    ((p <<< 1).signExtend 40).toInt =
      if fits 32 (2 * p.toInt) then 2 * p.toInt
      else if p.toInt < 0 then 2 * p.toInt + 2 ^ 32 else 2 * p.toInt - 2 ^ 32 := by
  have hp := p.isLt
  have hshift : (p <<< 1).toNat = p.toNat * 2 % 2 ^ 32 := by
    rw [BitVec.toNat_shiftLeft, Nat.shiftLeft_eq]
  rw [BitVec.toInt_signExtend_of_le (by decide)]
  simp only [fits_iff, BitVec.toInt_eq_toNat_cond, hshift]
  split <;> split <;> split <;> omega

/-- P shifted left in 40 bits is twice P. -/
theorem toInt_double_long (p : Code) : (p.signExtend 40 <<< 1).toInt = 2 * p.toInt := by
  have hext : (p.signExtend 40).toInt = p.toInt := BitVec.toInt_signExtend_of_le (by decide)
  have hq := (p.signExtend 40).isLt
  have hp : -2147483648 ≤ p.toInt ∧ p.toInt < 2147483648 := ⟨BitVec.le_toInt p, BitVec.toInt_lt⟩
  have hshift : (p.signExtend 40 <<< 1).toNat = (p.signExtend 40).toNat * 2 % 2 ^ 40 := by
    rw [BitVec.toNat_shiftLeft, Nat.shiftLeft_eq]
  rw [← hext] at hp ⊢
  generalize p.signExtend 40 = q at *
  simp only [BitVec.toInt_eq_toNat_cond, hshift] at *
  split <;> split at hp <;> omega

/-- Settles O32: the cases of the read of P by whether twice P fits. -/
theorem readOfProduct : Obligations.ReadOfProduct := by
  intro s hmodes x
  have hbroken := s.pModeBroken_of_modes hmodes
  have hfits := fits_double s.p
  have hneg := getLsbD_31 s.p
  have hread : s.mr0.i = false → s.pRead =
      if fits 32 (2 * x) then ((s.p <<< 1).signExtend 40, false)
      else if s.mr0.s then (if decide (x < 0) then 0xFF80000000 else 0x007FFFFFFF, true)
      else (fractionalOverflow s.p, false) := by
    intro hi
    rw [hfits, ← hneg]
    simp only [State.pRead, hbroken, hi]
    rfl
  have hdouble := toInt_double s.p
  refine ⟨fun hi => ?integer, fun hi hf => ?fitting, fun hi hf hs => ?saturated,
    fun hi hf hs => ?free⟩
  case integer =>
    have h : s.pRead = (s.p.signExtend 40, false) := by
      simp only [State.pRead, hbroken, hi]
      rfl
    rw [h]
    exact ⟨BitVec.toInt_signExtend_of_le (by decide), rfl⟩
  case fitting =>
    rw [hread hi, if_pos hf]
    exact ⟨by rw [hdouble, if_pos hf], rfl⟩
  case saturated =>
    have hout : ¬ (-2147483648 ≤ 2 * x ∧ 2 * x < 2147483648) := by
      rw [← Bool.not_eq_true, fits_iff] at hf
      exact hf
    rw [hread hi, if_neg (by simp [hf]), if_pos hs]
    refine ⟨?_, rfl⟩
    unfold clampTo
    by_cases hx : x < 0
    · rw [if_pos (by simpa using hx), if_pos (by omega)]
      decide
    · rw [if_neg (by simpa using hx), if_neg (by omega), if_pos (by omega)]
      decide
  case free =>
    rw [hread hi, if_neg (by simp [hf]), if_neg (by simp [hs])]
    refine ⟨rfl, ?_⟩
    show (fractionalOverflow s.p).toInt = _
    unfold fractionalOverflow
    cases Config.pfracOvf with
    | wrap32 =>
      show ((s.p <<< 1).signExtend 40).toInt = _
      rw [hdouble, if_neg (by simp [x] at hf; simp [hf])]
    | keep40 => exact toInt_double_long s.p

/-! ### Moves -/

/-- An instruction that runs has the effect of the writes that its plan holds. -/
theorem exec_of_effect (i : Instr) (s t : State) (h : i.Runs s)
    (hplan : ∃ ws, i.plan s = .ok ws ∧ s.writes ws = t) : exec i s = .next t := by
  obtain ⟨hwf, hfree, hunits, -⟩ := h
  obtain ⟨ws, hws, rfl⟩ := hplan
  exact exec_of_plan i s ws hwf hfree hunits hws

/-- A word that is one full move. -/
theorem exec_fullMove (i : Instr) (s : State) (b : Bus) (m : FullMove) (h : i.Runs s)
    (hplan : i.plan s = s.fullMove b m) (hadmitted : i.admittedIn s = s.fullAdmitted b m) :
    exec i s = .next (s.applyMove s b m) := by
  obtain ⟨hwf, hfree, hunits, hmem⟩ := h
  obtain ⟨ws, hw, heffect⟩ := s.fullMove_ok b m (hadmitted ▸ hmem)
  exact exec_of_effect i s _ ⟨hwf, hfree, hunits, hmem⟩ ⟨ws, hplan.trans hw, heffect s⟩

/-- A word that is two full moves. -/
theorem exec_doubleMove (i : Instr) (s : State) (x y : FullMove) (h : i.Runs s)
    (hplan : i.plan s = s.doubleMove x y)
    (hadmitted : i.admittedIn s = (s.fullAdmitted .x x && s.fullAdmitted .y y)) :
    exec i s = .next (s.applyMoves s x y) := by
  obtain ⟨hwf, hfree, hunits, hmem⟩ := h
  obtain ⟨hx, hy⟩ := Bool.and_eq_true_iff.mp (hadmitted ▸ hmem)
  obtain ⟨ws, hw, heffect⟩ := s.doubleMove_ok x y hx hy
  exact exec_of_effect i s _ ⟨hwf, hfree, hunits, hmem⟩ ⟨ws, hplan.trans hw, heffect s⟩

/-- Settles O34: each word plans its moves, whose writes have the moves' effect. -/
theorem moveResults : Obligations.MoveResults := by
  refine ⟨fun n post r s => ⟨fun h => exec_fullMove _ s .x _ h rfl rfl,
      fun h => exec_fullMove _ s .y _ h rfl rfl, fun h => exec_fullMove _ s .x _ h rfl rfl,
      fun h => exec_fullMove _ s .y _ h rfl rfl⟩,
    fun x y s h => exec_doubleMove _ s x y h rfl rfl,
    fun b m s h => exec_fullMove _ s b m h rfl rfl,
    fun x y s h => exec_doubleMove _ s x.full y.full h rfl rfl,
    fun m s h => ?uncoded,
    fun pm s h => exec_parallel _ s [] pm h rfl rfl⟩
  case uncoded =>
    obtain ⟨hwf, hfree, hunits, hmem⟩ := h
    obtain ⟨ws, hw, heffect⟩ := s.uncodedMove_ok m hmem
    exact exec_of_effect _ s _ ⟨hwf, hfree, hunits, hmem⟩ ⟨ws, hw, heffect s⟩

/-- Settles O35: the two register moves one after the other, or the refusal of R283. -/
theorem doubleRegisterMoveResult : Obligations.DoubleRegisterMoveResult := by
  intro xs xd ys yd s
  constructor
  · intro h
    refine exec_of_effect _ s _ h ⟨_, rfl, ?_⟩
    rw [State.writes_append, State.writes_regMove, State.writes_regMove]
  · intro h
    have hsame : (sameUnit xs xd || sameUnit ys yd) = true := by
      simp only [Instr.unitsDiffer] at h
      cases hx : sameUnit xs xd <;> simp_all
    simp only [exec, execMvDouble, hsame, if_true]

/-! ### LDC -/

/-- LDC runs for every register that a move can name (R276). -/
theorem exec_ldc (c : Word) (r : MoveReg) (s : State) :
    exec (.ldc c r) s = .next (s.writeReg r c) :=
  exec_of_plan (.ldc c r) s _ rfl rfl rfl rfl

theorem State.ipr0_setIpr0 (s : State) (v : Word) : (s.setIpr0 v).ipr0 = v := by
  unfold State.setIpr0
  split
  · next h => exact h.symm
  · rfl

theorem State.areg_setAReg (s : State) (r : AReg) (v : Word) : (s.setAReg r v).areg r = v := by
  cases r <;> simp [State.setAReg, State.areg]

/-- A register that drives all sixteen bits reads as the value written to it (R260, R261). -/
theorem State.readReg_writeReg_same (s : State) (port : Port) (r : MoveReg) (v : Word)
    (hnull : r ≠ .null) (hnop : r ≠ .nop) (hlc : r ≠ .lc) (hmr0 : r ≠ .mr0)
    (hguard : ∀ x, r ≠ .guard x) : (s.writeReg r v).readReg port r = v := by
  cases r with
  | areg r => exact s.areg_setAReg r v
  | idx n => exact s.index_setIndex_same n v
  | ipr0 => exact s.ipr0_setIpr0 v
  | guard x => exact absurd rfl (hguard x)
  | null => exact absurd rfl hnull
  | nop => exact absurd rfl hnop
  | lc => exact absurd rfl hlc
  | mr0 => exact absurd rfl hmr0
  | lr0 | lr1 | ls | le | ipr1 => rfl

/-- A write of a guard register takes bits 7:0 (R261). -/
theorem State.acc_writeReg_guard (s : State) (x : Acc) (v : Word) :
    (s.writeReg (.guard x) v).acc x = { s.acc x with x2 := v.extractLsb' 0 8 } := by
  simp [State.writeReg]

/-- Settles O36: R261's table row by row. -/
theorem ldcAndNopResult : Obligations.LdcAndNopResult := by
  refine ⟨exec_nop, fun c r port s => ⟨exec_ldc c r s, ?none, fun h1 h2 h3 h4 h5 =>
    s.readReg_writeReg_same port r c h1 h2 h3 h4 h5, ?lc, fun x hx => ?guard, ?mr0⟩⟩
  case none => rintro (rfl | rfl) <;> rfl
  case lc => rintro rfl; rfl
  case mr0 => rintro rfl; rfl
  case guard =>
    subst hx
    rw [State.acc_writeReg_guard]
    simp

/-- The guard register after a 16-bit write of the high half (R24). -/
theorem signGuard_eq (v : Word) : signGuard v = if v.toInt < 0 then 0xFF else 0x00 := by
  rw [signGuard, BitVec.msb_eq_toInt]
  simp

/-- Settles O38. -/
theorem guardFollowsSixteenBitWrites : Obligations.GuardFollowsSixteenBitWrites := by
  intro s x y v l
  refine ⟨?_, ?_, ?_, s.value_setLong x l, fun hne => ⟨?_, ?_, ?_, ?_⟩⟩
  · simp [State.writeReg, State.setAReg, signGuard_eq]
  · simp [State.writeReg, State.setAReg]
  · rw [State.acc_writeReg_guard, BitVec.setWidth_eq_extractLsb' (by decide)]
  all_goals exact State.acc_setAcc_other s x y _ hne

/-! ### A register stored and loaded back (R262) -/

/-- A store through `(In)` is a store of the register's bus value alone. -/
theorem State.applyMove_store (s : State) (n : IReg) (r : MoveReg) (hnop : r ≠ .nop) :
    s.applyMove s .x { store := true, idx := n, post := 0, reg := r } =
      s.storeData .x (s.index n).toNat (s.readReg .x r) := by
  simp [State.applyMove, State.stepMove, State.stepIndex, State.accessMove, hnop, Bus.port]

/-- A load through `(In)` is a load of the word in memory alone. -/
theorem State.applyMove_load (s : State) (n : IReg) (r : MoveReg) (hnop : r ≠ .nop)
    (hnull : r ≠ .null) :
    s.applyMove s .x { store := false, idx := n, post := 0, reg := r } =
      s.loadReg r (s.loadValue .x (s.index n).toNat) := by
  simp [State.applyMove, State.stepMove, State.stepIndex, State.accessMove, hnop, hnull]

/-- One load names its register once. -/
theorem conflictFree_ldx (n : IReg) (r : MoveReg) : (Instr.ldx n 0 r).ConflictFree := by
  simp only [Instr.ConflictFree, Instr.conflict, Instr.targets, FullMove.targets, postTargets]
  cases r with
  | areg r => cases r <;> simp [MoveReg.targets, AReg.targets, hasRepeat]
  | _ => simp [MoveReg.targets, hasRepeat]

theorem conflictFree_stx (n : IReg) (r : MoveReg) : (Instr.stx n 0 r).ConflictFree := by
  simp [Instr.ConflictFree, Instr.conflict, Instr.targets, FullMove.targets, postTargets, hasRepeat]

/-- An access to RAM or ROM is admitted (R68). -/
theorem State.admitted_of_ram_or_rom (s : State) (sp : Space) (a : Nat)
    (h : s.kindAt sp a = .ram ∨ s.kindAt sp a = .rom) : s.admitted sp a = true := by
  rcases h with h | h <;> simp [State.admitted, h]

/-- What a load leaves in the registers is the register write, but for LSUP (R398). -/
theorem State.loadReg_frame (s : State) (r : MoveReg) (v : Word) :
    ∃ l, s.loadReg r v = { s.writeReg r v with lsup := l } := by
  unfold State.loadReg
  split
  · exact ⟨_, rfl⟩
  · exact ⟨(s.writeReg r v).lsup, rfl⟩

/-- What a register drives, but for LC, does not depend on LSUP. -/
theorem State.readReg_lsup (s : State) (l : Fin 3) (port : Port) (r : MoveReg) (h : r ≠ .lc) :
    ({ s with lsup := l } : State).readReg port r = s.readReg port r := by
  cases r with
  | lc => exact absurd rfl h
  | _ => rfl

/-- Settles O39: the store leaves the register's bus value in memory, and the load writes it back. -/
theorem storeThenLoadRestoresRegister : Obligations.StoreThenLoadRestoresRegister := by
  intro n r s hkind hnull hnop
  have hadmitted := s.admitted_of_ram_or_rom .x _ hkind
  have hstore : exec (.stx n 0 r) s =
      .next (s.storeData .x (s.index n).toNat (s.readReg .x r)) := by
    rw [← s.applyMove_store n r hnop]
    refine exec_fullMove _ s .x _ ⟨rfl, conflictFree_stx n r, rfl, ?_⟩ rfl rfl
    simp [Instr.admittedIn, State.fullAdmitted, Bus.space, hadmitted]
  have hword : (s.storeData .x (s.index n).toNat (s.readReg .x r)).loadValue .x
      (s.index n).toNat = s.readReg .x r := by
    rw [State.loadValue, State.kindAt_congr s _ (by simp), if_neg]
    · exact s.storeData_word16 .x _ _ hkind
    · rcases hkind with h | h <;> simp [Bus.space, h]
  have hload : exec (.ldx n 0 r) (s.storeData .x (s.index n).toNat (s.readReg .x r)) =
      .next ((s.storeData .x (s.index n).toNat (s.readReg .x r)).loadReg r (s.readReg .x r)) := by
    have happly := State.applyMove_load (s.storeData .x (s.index n).toNat (s.readReg .x r)) n r
      hnop hnull
    rw [State.index_storeData, hword] at happly
    rw [← happly]
    refine exec_fullMove _ _ .x _ ⟨rfl, conflictFree_ldx n r, rfl, ?_⟩ rfl rfl
    simp only [Instr.admittedIn, State.fullAdmitted, State.index_storeData, State.admitted,
      State.kindAt_congr s _ (State.storeData_plat ..)]
    simp only [State.admitted] at hadmitted
    simp [Bus.space, hadmitted]
  refine ⟨_, _, hstore, hload, ?_⟩
  generalize ht : s.storeData .x (s.index n).toNat (s.readReg .x r) = t
  have hacc : ∀ x, t.acc x = s.acc x := fun x => ht ▸ s.acc_storeData .x _ _ x
  obtain ⟨l, hl⟩ := t.loadReg_frame r (s.readReg .x r)
  rw [hl]
  refine ⟨t.writeReg_xmem r _, ?guard, ?mr0, ?lc, fun hmr0 hlc hguard => ?rest⟩
  case guard =>
    rintro x rfl
    have hlow : (s.readReg .x (.guard x)).extractLsb' 0 8 = (s.acc x).x2 := by
      apply BitVec.eq_of_getLsbD_eq
      intro k hk
      rw [BitVec.getLsbD_extractLsb']
      refine (congrArg _ (BitVec.getLsbD_append (x := (s.free (.junk .x) 8 : Byte))
        (y := (s.acc x).x2))).trans ?_
      simp [hk]
    have hwrite := t.acc_writeReg_guard x (s.readReg .x (.guard x))
    rw [hlow, hacc] at hwrite
    exact hwrite
  case mr0 => rintro rfl; exact s.mr0.unpack_pack _
  case lc =>
    rintro rfl hfires
    show s.lcSeen .x = s.lc
    simp [State.lcSeen, hfires]
  case rest =>
    rw [State.readReg_lsup _ _ _ _ hlc]
    exact t.readReg_writeReg_same .x r _ hnull hnop hlc hmr0 hguard

end Sys2Proof.Machine

/-! Post-modification of index registers (R265 to R272). -/

namespace Sys2Proof.Machine

/-! ### Linear steps -/

/-- A sum of words as a number (R8). -/
theorem toNat_add_word (i m : Word) : ((i + m).toNat : Int) = (i.toNat + m.toInt) % 65536 := by
  have hi := i.isLt
  have hm := m.isLt
  rw [BitVec.toNat_add, BitVec.toInt_eq_toNat_cond]
  split <;> omega

/-- The linear modes of `*` are the first and the last (R267). -/
theorem starMod_linear (i m : Word) (h : m.toNat < 8192 ∨ 57344 ≤ m.toNat) :
    starMod i m = some (i + m) := by
  have hm := m.isLt
  have hmode : m.toNat / 8192 = 0 ∨ m.toNat / 8192 = 7 := by omega
  rcases hmode with hmode | hmode <;> simp only [starMod, hmode]

theorem postMod_star (i m : Word) : postMod i m 8 = starMod i m := if_pos rfl

/-- Settles O40: both kinds of linear step are sums of words. -/
theorem linearPostModification : Obligations.LinearPostModification := by
  intro i m post
  constructor
  · intro hpost
    refine ⟨_, if_neg hpost, ?_⟩
    rw [toNat_add_word, BitVec.toInt_signExtend_of_le (by decide)]
  · intro hmode
    exact ⟨_, (postMod_star i m).trans (starMod_linear i m hmode), toNat_add_word i m⟩

/-! ### Modulo steps -/

/-- A signed field of a number is the two's complement value of those bits (R6). -/
theorem signedField_eq (m : Word) (lo len : Nat) (hlen : 0 < len) :
    signedField (m.toNat / 2 ^ lo) len = (m.extractLsb' lo len).toInt := by
  have hvalue : (m.extractLsb' lo len).toNat = m.toNat / 2 ^ lo % 2 ^ len := by
    rw [BitVec.extractLsb'_toNat, Nat.shiftRight_eq_div_pow]
  have hhalf : 2 ^ len = 2 * 2 ^ (len - 1) := by
    rw [← Nat.pow_succ', Nat.succ_eq_add_one, Nat.sub_add_cancel hlen]
  rw [signedField, BitVec.toInt_eq_toNat_cond, hvalue, hhalf]
  generalize m.toNat / 2 ^ lo % (2 * 2 ^ (len - 1)) = v
  have hcast : (2 : Int) ^ len = ((2 * 2 ^ (len - 1) : Nat) : Int) := by
    rw [← hhalf]
    simp
  rw [hcast]
  split <;> split <;> omega

/-- The modulo modes of `*`, by the three highest bits of the pair register (R266, R268 to R271). -/
theorem starMod_modulo (i m : Word) :
    (8192 ≤ m.toNat → m.toNat < 16384 →
      starMod i m = modStep i (m.extractLsb' 6 7).toInt ((m.extractLsb' 0 6).toNat + 1)) ∧
    (16384 ≤ m.toNat → m.toNat < 32768 →
      starMod i m = modStep i (m.extractLsb' 6 8).toInt ((m.extractLsb' 0 6).toNat * 64 + 64)) ∧
    (32768 ≤ m.toNat → m.toNat < 40960 → starMod i m = modStep i 1 (m.toNat % 8192 + 1)) ∧
    (40960 ≤ m.toNat → m.toNat < 49152 → starMod i m = modStep i (-1) (m.toNat % 8192 + 1)) := by
  have hsize : (m.extractLsb' 0 6).toNat = m.toNat % 64 := by simp
  have h7 : signedField (m.toNat / 64) 7 = (m.extractLsb' 6 7).toInt :=
    signedField_eq m 6 7 (by decide)
  have h8 : signedField (m.toNat / 64) 8 = (m.extractLsb' 6 8).toInt :=
    signedField_eq m 6 8 (by decide)
  rw [hsize, ← h7, ← h8]
  refine ⟨fun h1 h2 => ?_, fun h1 h2 => ?_, fun h1 h2 => ?_, fun h1 h2 => ?_⟩
  · simp only [starMod, show m.toNat / 8192 = 1 by omega]
  · have hmode : m.toNat / 8192 = 2 ∨ m.toNat / 8192 = 3 := by omega
    rcases hmode with hmode | hmode <;> simp only [starMod, hmode]
  · simp only [starMod, show m.toNat / 8192 = 4 by omega]
  · simp only [starMod, show m.toNat / 8192 = 5 by omega]

/-- The span of a buffer is the smallest power of two that holds it (R268). -/
theorem bufferSpan_eq (size j : Nat) (h1 : 1 ≤ size) (h8192 : size ≤ 8192) (hle : size ≤ 2 ^ j)
    (hlt : 2 ^ j < 2 * size) : bufferSpan size = 2 ^ j := by
  have hj : j < 14 := by
    by_contra hc
    have : 2 ^ 14 ≤ 2 ^ j := Nat.pow_le_pow_right (by decide) (by omega)
    omega
  unfold bufferSpan
  interval_cases j <;>
  · simp only [List.find?_cons]
    simp (disch := omega) only [decide_eq_true, decide_eq_false]
    rfl

/-- The modulo step where its domain and its span are known: the exact place in the buffer. -/
theorem modStep_eq (i : Word) (step : Int) (size j : Nat) (hspan : bufferSpan size = 2 ^ j)
    (hin : i.toNat % 2 ^ j < size ∧ step ≤ size ∧ -(size : Int) ≤ step) :
    ∃ off : Nat, off < size ∧ (off : Int) % size = ((i.toNat % 2 ^ j : Nat) + step) % size ∧
      modStep i step size = some (BitVec.ofNat 16 (i.toNat / 2 ^ j * 2 ^ j + off)) := by
  obtain ⟨hoff, hhigh, hlow⟩ := hin
  unfold modStep
  rw [hspan]
  simp only [show ¬ (i.toNat % 2 ^ j ≥ size ∨ step > size ∨ step < -(size : Int)) by omega, if_false]
  generalize i.toNat / 2 ^ j * 2 ^ j = base
  generalize i.toNat % 2 ^ j = k at *
  by_cases h1 : (k : Int) + step ≥ size
  · obtain ⟨off, hk⟩ : ∃ off : Nat, (k : Int) + step - size = off :=
      ⟨((k : Int) + step - size).toNat, by omega⟩
    refine ⟨off, by omega, by rw [← hk, Int.sub_emod_right], ?_⟩
    rw [if_pos h1, hk]
    rfl
  by_cases h2 : (k : Int) + step < 0
  · obtain ⟨off, hk⟩ : ∃ off : Nat, (k : Int) + step + size = off :=
      ⟨((k : Int) + step + size).toNat, by omega⟩
    refine ⟨off, by omega, by rw [← hk, Int.add_emod_right], ?_⟩
    rw [if_neg h1, if_pos h2, hk]
    rfl
  · obtain ⟨off, hk⟩ : ∃ off : Nat, (k : Int) + step = off := ⟨((k : Int) + step).toNat, by omega⟩
    refine ⟨off, by omega, by rw [← hk], ?_⟩
    rw [if_neg h1, if_neg h2, hk]
    rfl

/-- A place in an aligned buffer: the buffer's number and the place come back (R268, R272). -/
theorem toNat_of_place (i : Word) (j off : Nat) (hj : j ≤ 16) (hoff : off < 2 ^ j) :
    (BitVec.ofNat 16 (i.toNat / 2 ^ j * 2 ^ j + off)).toNat / 2 ^ j = i.toNat / 2 ^ j ∧
    (BitVec.ofNat 16 (i.toNat / 2 ^ j * 2 ^ j + off)).toNat % 2 ^ j = off := by
  have hpos : 0 < 2 ^ j := Nat.two_pow_pos j
  have hsplit : 2 ^ 16 = 2 ^ (16 - j) * 2 ^ j := by rw [← Nat.pow_add, Nat.sub_add_cancel hj]
  have hblock : i.toNat / 2 ^ j < 2 ^ (16 - j) := by
    rw [Nat.div_lt_iff_lt_mul hpos, ← hsplit]
    exact i.isLt
  have hfit : i.toNat / 2 ^ j * 2 ^ j + off < 2 ^ 16 := by
    have hmul : (i.toNat / 2 ^ j + 1) * 2 ^ j ≤ 2 ^ (16 - j) * 2 ^ j :=
      Nat.mul_le_mul_right _ hblock
    rw [Nat.add_mul, Nat.one_mul] at hmul
    omega
  rw [BitVec.toNat_ofNat, Nat.mod_eq_of_lt hfit]
  constructor
  · rw [Nat.add_comm, Nat.add_mul_div_right _ _ hpos, Nat.div_eq_of_lt hoff, Nat.zero_add]
  · rw [Nat.add_comm, Nat.add_mul_mod_self_right, Nat.mod_eq_of_lt hoff]

/-- Settles O41: the modes by their bits; the step by its exact place, and none outside its domain. -/
theorem moduloPostModification : Obligations.ModuloPostModification := by
  refine ⟨fun i m => ?_, fun i step size j h1 h8192 hle hlt => ?_⟩
  · rw [postMod_star]
    exact starMod_modulo i m
  have hspan := bufferSpan_eq size j h1 h8192 hle hlt
  split
  · next hin =>
    obtain ⟨off, hoff, hmod, hstep⟩ := modStep_eq i step size j hspan hin
    have hj : j ≤ 16 := by
      by_contra hc
      have : 2 ^ 17 ≤ 2 ^ j := Nat.pow_le_pow_right (by decide) (by omega)
      omega
    obtain ⟨hbuffer, hplace⟩ := toNat_of_place i j off hj (by omega)
    exact ⟨_, hstep, hbuffer, by rw [hplace]; exact hoff, by rw [hplace]; exact hmod⟩
  · next hout =>
    unfold modStep
    rw [hspan]
    exact if_pos (by omega)

/-! ### Bit-reversed steps -/

/-- Bit `j` of the reversal is bit `k - 1 - j` (R272). -/
theorem testBit_reverseBits (k x j : Nat) :
    (reverseBits k x).testBit j = (decide (j < k) && x.testBit (k - 1 - j)) := by
  induction k generalizing x j with
  | zero => simp [reverseBits]
  | succ k ih =>
    have hlow : reverseBits k (x / 2) < 2 ^ k := by
      apply Nat.lt_pow_two_of_testBit
      intro l hl
      rw [ih]
      simp [show ¬ l < k by omega]
    rw [reverseBits, Nat.mul_comm, Nat.testBit_two_pow_mul_add _ hlow]
    split
    · next hj =>
      rw [ih, Nat.testBit_div_two, show k - 1 - j + 1 = k + 1 - 1 - j by omega]
      simp [hj, show j < k + 1 by omega]
    · next hj =>
      by_cases heq : j = k
      · subst heq
        have hbit : x % 2 = x % 2 ^ 1 := rfl
        rw [hbit, Nat.testBit_mod_two_pow]
        simp
      · rw [Nat.testBit_eq_false_of_lt]
        · simp [show ¬ j < k + 1 by omega]
        · calc x % 2 < 2 := Nat.mod_lt _ (by decide)
            _ = 2 ^ 1 := rfl
            _ ≤ 2 ^ (j - k) := Nat.pow_le_pow_right (by decide) (by omega)

theorem reverseBits_lt (k x : Nat) : reverseBits k x < 2 ^ k := by
  apply Nat.lt_pow_two_of_testBit
  intro j hj
  rw [testBit_reverseBits]
  simp [show ¬ j < k by omega]

/-- Reversing depends on the low bits alone, and reversing them twice gives them back. -/
theorem reverseBits_reverseBits (k x y : Nat) (h : y % 2 ^ k = reverseBits k x) :
    reverseBits k y = x % 2 ^ k := by
  apply Nat.eq_of_testBit_eq
  intro j
  rw [testBit_reverseBits, Nat.testBit_mod_two_pow]
  by_cases hj : j < k
  · have hbit : y.testBit (k - 1 - j) = (reverseBits k x).testBit (k - 1 - j) := by
      rw [← h, Nat.testBit_mod_two_pow]
      simp [show k - 1 - j < k by omega]
    rw [hbit, testBit_reverseBits, show k - 1 - (k - 1 - j) = j by omega]
    simp [hj, show k - 1 - j < k by omega]
  · simp [hj]

/-- The length of a number in bits, where the search reaches its highest 1 bit (R272). -/
theorem bitLength_eq (fuel q k : Nat) (hfuel : k ≤ fuel) (hlow : 2 ^ k ≤ 2 * q) (hhigh : q < 2 ^ k) :
    bitLength fuel q = k := by
  induction fuel generalizing q k with
  | zero =>
    obtain rfl : k = 0 := by omega
    rfl
  | succ fuel ih =>
    cases k with
    | zero => omega
    | succ k =>
      rw [Nat.pow_succ] at hlow hhigh
      have hq : q ≠ 0 := by have := Nat.two_pow_pos k; omega
      rw [bitLength, if_neg hq]
      cases k with
      | zero =>
        have hone : q = 1 := by omega
        subst hone
        cases fuel <;> rfl
      | succ k =>
        rw [Nat.pow_succ] at hlow hhigh
        rw [ih (q / 2) (k + 1) (by omega) (by rw [Nat.pow_succ]; omega) (by rw [Nat.pow_succ]; omega)]
        omega

/-- Settles O42: the new low bits are the reversal of the sum of the reversed low bits. -/
theorem bitReversedPostModification : Obligations.BitReversedPostModification := by
  intro i m k hlow hhigh
  have hmode : m.toNat / 8192 = 6 := by omega
  have hstar : postMod i m 8 = some (bitReverseStep i m) := by
    simp only [postMod_star, starMod, hmode]
  constructor
  · intro hq
    rw [hstar, bitReverseStep, hq]
    rfl
  · intro hk1 hk2
    have hk : k ≤ 13 := by
      by_contra hc
      have : 2 ^ 14 ≤ 2 ^ k := Nat.pow_le_pow_right (by decide) (by omega)
      omega
    have hlen := bitLength_eq 13 (m.toNat % 8192) k hk hk1 hk2
    have hq : m.toNat % 8192 ≠ 0 := by have := Nat.two_pow_pos k; omega
    have hstep : bitReverseStep i m = BitVec.ofNat 16 (i.toNat / 2 ^ k * 2 ^ k +
        reverseBits k ((reverseBits k i.toNat + reverseBits k (m.toNat % 8192)) % 2 ^ k)) := by
      simp only [bitReverseStep, hq, if_false, hlen]
    obtain ⟨hbuffer, hplace⟩ := toNat_of_place i k _ (by omega) (reverseBits_lt k
      ((reverseBits k i.toNat + reverseBits k (m.toNat % 8192)) % 2 ^ k))
    rw [← hstep] at hbuffer hplace
    refine ⟨_, hstar, hbuffer, ?_, fun x j => testBit_reverseBits k x j⟩
    rw [reverseBits_reverseBits k _ _ hplace, Nat.mod_mod]

/-! ### Memory -/

/-- Settles O43: a store to RAM or ROM is read back whole, and only its word changes. -/
theorem storedWordReadsBack : Obligations.StoredWordReadsBack := by
  intro s b key v hkind
  refine ⟨?_, fun sp k hout => s.storeData_byteAt b key v sp k hout⟩
  have hkind' : (s.storeData b key v).kindAt b.space key = s.kindAt b.space key :=
    State.kindAt_congr s _ (by simp) _ _
  rw [State.readData_eq, if_pos (State.admitted_of_ram_or_rom _ _ _ (hkind' ▸ hkind)),
    State.loadValue, if_neg, s.storeData_word16 b key v hkind]
  rw [hkind']
  rcases hkind with h | h <;> simp [h]

theorem State.admitted_of_absent (s : State) (sp : Space) (a : Nat) (h : s.kindAt sp a = .absent) :
    s.admitted sp a = false := by
  simp [State.admitted, h]

/-- A word that is one full move faults where its memory is not there (R68). -/
theorem exec_fullMove_fault (i : Instr) (s : State) (b : Bus) (m : FullMove) (hwf : i.WellFormed)
    (hfree : i.ConflictFree) (hunits : i.unitsDiffer = true) (hplan : i.plan s = s.fullMove b m)
    (hadmitted : s.fullAdmitted b m = false) :
    exec i s = .fault (.noMemory b.space (s.index m.idx).toNat) := by
  have hreject : i.reject = none := hwf
  have hconflict : i.conflict = false := hfree
  rw [exec_eq_runWord i s hunits, runWord, hreject, hconflict, hplan,
    s.fullMove_error b m hadmitted]
  rfl

/-- A store has no writer but the step of its index register. -/
theorem conflictFree_store (m : FullMove) (i : Instr) (hstore : m.store = true)
    (htargets : i.targets = m.targets) : i.ConflictFree := by
  simp only [Instr.ConflictFree, Instr.conflict, htargets, FullMove.targets, hstore, if_true,
    List.nil_append, postTargets]
  split
  · rfl
  · split <;> rfl

/-- Settles O44: a move's access and the fetch each fault at an address that is not admitted. -/
theorem absentAddressStopsCore : Obligations.AbsentAddressStopsCore := by
  intro s n post r hnop
  have habsent : ∀ (b : Bus) (store : Bool), s.kindAt b.space (s.index n).toNat = .absent →
      (store = false → r ≠ .null) →
      s.fullAdmitted b { store := store, idx := n, post := post, reg := r } = false := by
    intro b store hkind hnull
    have hadmitted := s.admitted_of_absent _ _ hkind
    cases store <;> simp_all [State.fullAdmitted]
  refine ⟨fun hx => ⟨fun hfree hnull => ?_, ?_⟩, fun hy => ⟨fun hfree hnull => ?_, ?_⟩,
    fun hruns hpage hkind => ?fetch⟩
  · exact exec_fullMove_fault _ s .x _ rfl hfree rfl rfl (habsent .x false hx fun _ => hnull)
  · exact exec_fullMove_fault _ s .x _ rfl (conflictFree_store _ _ rfl rfl) rfl rfl
      (habsent .x true hx nofun)
  · exact exec_fullMove_fault _ s .y _ rfl hfree rfl rfl (habsent .y false hy fun _ => hnull)
  · exact exec_fullMove_fault _ s .y _ rfl (conflictFree_store _ _ rfl rfl) rfl rfl
      (habsent .y true hy nofun)
  case fetch =>
    have hadmitted := s.admitted_of_absent _ _ hkind
    have hfetch : s.fetch = .error (.noMemory .i s.fetchAddress.toNat) := by
      unfold State.fetchAddress at *
      simp [State.fetch, State.fetchPage, hpage, hadmitted]
    rw [step_of_runs s hruns, State.runNext, State.fetch_takeEvent, hfetch]

end Sys2Proof.Machine

/-! Control flow (R311 to R330) and reset (R51, R390): what each instruction hands to the sequencing. -/

namespace Sys2Proof.Machine

/-- A condition that holds for the flags before and after the preceding instruction is taken (R312). -/
theorem State.takes_of_agree (s : State) (c : Cond) (b : Bool) (hprev : Cond.holds c s.fprev = b)
    (hnow : Cond.holds c s.mr0 = b) : s.takes c = b := by
  simp [State.takes, hprev, hnow]

/-- What the conditional jumps leave, by the outcome of their condition (R313 to R316). -/
theorem exec_jcc (addr : Word) (c : Cond) (s : State) :
    exec (.jcc addr c) s = .next (s.writes (jumpWrites (s.takes c) addr none)) :=
  exec_of_plan (.jcc addr c) s _ rfl rfl rfl rfl

theorem exec_callcc (addr : Word) (c : Cond) (s : State) :
    exec (.callcc addr c) s =
      .next (({ s with lr0 := s.pc + 2 } : State).writes (jumpWrites (s.takes c) addr none)) :=
  exec_of_plan (.callcc addr c) s _ rfl rfl rfl rfl

theorem exec_jrcc (c : Cond) (s : State) :
    exec (.jrcc c) s = .next (s.writes (jumpWrites (s.takes c) s.lr0 none)) :=
  exec_of_plan (.jrcc c) s _ rfl rfl rfl rfl

theorem exec_jrccOp1 (c : Cond) (n : IReg) (s : State) :
    exec (.jrccOp1 c n) s =
      .next (s.writes (jumpWrites (s.takes c) s.lr0 (some (s.index n)))) :=
  exec_of_plan (.jrccOp1 c n) s _ rfl rfl rfl rfl

/-- Settles O46: the condition's outcome decides between the two forms of `jumpWrites`. -/
theorem conditionalJumpAndCallResults : Obligations.ConditionalJumpAndCallResults := by
  intro addr c n s u
  refine ⟨fun hprev hnow => ?_, fun hprev hnow => ?_⟩ <;>
  · have htakes := s.takes_of_agree c _ hprev hnow
    rw [exec_jcc, exec_callcc, exec_jrcc, exec_jrccOp1, htakes]
    exact ⟨rfl, rfl, rfl, rfl⟩

/-- What JMPI leaves (R321). -/
theorem exec_jmpi (addr : Word) (mm : JmpiStep) (n : IReg) (s : State) :
    exec (.jmpi addr mm n) s = .next
      { s.setIndex n (jmpiStep mm (s.index n)) with
          ipr0 := 0, pageOpen := false, xfer := .immediate addr } :=
  exec_of_plan (.jmpi addr mm n) s _ rfl rfl rfl rfl

/-- JMPI's step as a number (R274, R322). -/
theorem toNat_jmpiStep (mm : JmpiStep) (v : Word) :
    ((jmpiStep mm v).toNat : Int) =
      ((v.toNat : Int) + (match mm with | .keep => 0 | .inc => 1 | .dec => -1)) % 65536 := by
  have hv := v.isLt
  cases mm with
  | keep => simp only [jmpiStep]; omega
  | inc =>
    simp only [jmpiStep]
    rw [toNat_add_word]
    rfl
  | dec =>
    have hsub : v - 1 = v + (-1 : Word) := BitVec.sub_eq_add_neg v 1
    simp only [jmpiStep]
    rw [hsub, toNat_add_word]
    rfl

/-- Settles O48: the step by its number; mm = 10 as a reserved word. -/
theorem jmpiResult : Obligations.JmpiResult := by
  refine ⟨fun addr mm n s => ⟨_, toNat_jmpiStep mm (s.index n), exec_jmpi addr mm n s⟩,
    fun w h hmm => ?_⟩
  obtain ⟨hopcode, hdigit⟩ := field_digits_of_byte w 2 10 (by decide) h
  apply (decoderRefusesExactlyReservedWords w).mpr
  simp [reservedWord, hopcode, reservedControlWord, hdigit, hmm]

/-- Settles O49. -/
theorem loopResult : Obligations.LoopResult := fun last count s hwf =>
  exec_of_plan (.loop last count) s _ hwf rfl rfl rfl

/-- Settles O50: `exec_halt` by the state of INTSM. -/
theorem haltResult : Obligations.HaltResult := fun s =>
  ⟨fun h => by rw [exec_halt, if_pos h], fun h => by rw [exec_halt, if_neg h]⟩

/-! ### Reset -/

theorem State.index_reset (n : IReg) : State.reset.index n = 0 := by
  simp [State.index, State.reset]

theorem State.acc_reset (x : Acc) : State.reset.acc x = .zero := by cases x <;> rfl

/-- Settles O8. -/
theorem resetRegisterValues : Obligations.ResetRegisterValues :=
  ⟨State.acc_reset, rfl, State.index_reset, rfl, rfl, rfl, rfl, rfl, rfl, rfl, rfl, rfl, rfl, rfl,
    rfl, rfl, rfl, rfl, rfl⟩

/-- Settles O9: a reset event comes before everything else of the step. -/
theorem systemResetOverridesAll : Obligations.SystemResetOverridesAll := by
  intro s es hevents
  have hdue : s.resetDue = true := by simp [State.resetDue, hevents]
  have hscript : s.systemReset.events = es := by simp [State.systemReset, hevents]
  refine ⟨s.systemReset, by rw [step, State.machineStep, if_pos hdue], State.acc_reset, rfl,
    State.index_reset, rfl, rfl, rfl, rfl, rfl, rfl, rfl, rfl, rfl, rfl, rfl, rfl, rfl, rfl, rfl,
    rfl, hscript, rfl, rfl, rfl, rfl⟩

/-- Settles O10. -/
theorem resetMeetsInvariant : Obligations.ResetMeetsInvariant :=
  ⟨rfl, rfl, rfl, rfl, rfl, rfl, rfl, rfl⟩

end Sys2Proof.Machine

/-! Steps (R32): what a step runs, where it goes on, and when the loop-end test fires. -/

namespace Sys2Proof.Machine

/-- The environment leaves the pending transfer alone. -/
theorem State.takeEvent_ds (s : State) : s.takeEvent.ds = s.ds := by
  obtain ⟨es, im, off, h, hevent⟩ := s.takeEvent_frame
  rw [hevent]

/-- A boundary that runs an instruction runs the one that its word decodes to. -/
theorem step_of_runsNext (s : State) (i : Instr) (h : s.runsNext i) :
    step s = runInstr i s.takeEvent := by
  obtain ⟨hruns, hplain, hdecode⟩ := h
  have hfetch := (s.fetch_takeEvent).trans (s.fetch_plain hplain)
  rw [step_of_runs s hruns]
  simp only [State.runNext, hfetch, State.runFetched, hdecode]

/-- A step whose instruction completes hands the state it leaves to the sequencing. -/
theorem step_of_exec (s t : State) (i : Instr) (h : s.runsNext i)
    (hexec : exec i s.takeEvent.prepare = .next t) :
    step s = .next (s.takeEvent.finish t (kindOf i)) := by
  rw [step_of_runsNext s i h]
  simp only [runInstr, hexec]

/-- Settles O51: by the three outcomes of the instruction. -/
theorem stepRunsDecodedInstruction : Obligations.StepRunsDecodedInstruction := by
  refine fun s i h => ⟨fun t hexec => step_of_exec s t i h hexec, fun f hexec => ?_,
    fun r hexec => ?_⟩
  all_goals
    rw [step_of_runsNext s i h]
    simp only [runInstr, hexec]

/-- A pending transfer holds every entry off (R352). -/
theorem State.entryDue_of_ds (s : State) (h : s.ds ≠ none) : s.entryDue = none := by
  unfold State.entryDue
  split <;> simp [h]

/-- So does a drain that has instructions to go (R330). -/
theorem State.entryDue_of_draining (s : State) (k : Fin 4) (vec : Vec)
    (hhlt : s.hlt = .draining k vec) (hk : k ≠ 0) : s.entryDue = none := by
  have hheld : s.hlt.allowsEntry = false := by simpa [hhlt, Hlt.allowsEntry] using hk
  unfold State.entryDue
  split <;> simp [hheld]

/-- Settles O58: the environment's part of the boundary changes neither the pending transfer nor the
drain, so nothing is due and the instruction runs. -/
theorem entryHeldOffInDelaySlotAndDrain : Obligations.EntryHeldOffInDelaySlotAndDrain := by
  intro s i t hreset hwaiting hplain hdecode hexec hheld
  have hhlt := s.takeEvent_hlt hwaiting
  have hdue : s.takeEvent.entryDue = none := by
    rcases hheld with hds | ⟨k, vec, hdrain, hk⟩
    · exact s.takeEvent.entryDue_of_ds (s.takeEvent_ds ▸ hds)
    · exact s.takeEvent.entryDue_of_draining k vec (hhlt.trans hdrain) hk
  have hruns : s.runs = true := by simp [State.runs, hreset, hdue, hhlt, hwaiting]
  exact step_of_exec s t i ⟨hruns, hplain, hdecode⟩ hexec

/-! ### The loop-end test -/

theorem State.loopFires_iff (s : State) :
    s.loopFires = true ↔ s.pc = s.le ∧ s.fprev.l = false ∧ s.lsup ≠ 1 ∧ s.lc ≠ 0 := by
  simp [State.loopFires, and_assoc]

/-- Settles O54: the two outcomes of the test, and LSUP's three values. -/
theorem loopEndTest : Obligations.LoopEndTest := by
  intro s
  constructor
  · have hcount : ∀ k : Fin 3, (if k = 2 then 1 else 0 : Fin 3).val = k.val - 1 := by decide
    exact hcount s.lsup
  · split
    next h =>
      have hfires := s.loopFires_iff.mpr h
      simp [State.prepare, State.seq, hfires]
    next h =>
      have hquiet : s.loopFires = false := Bool.eq_false_iff.mpr (mt s.loopFires_iff.mp h)
      simp [State.prepare, State.seq, hquiet]

/-! ### The sequencing after an instruction -/

/-- HLT's count by its cases: only a drain counts, down to 0 (R330). -/
theorem Hlt.count_cases (h : Hlt) :
    (h = .running → h.count = .running) ∧ (h = .waiting → h.count = .waiting) ∧
    ∀ k vec, h = .draining k vec → ∃ j : Fin 4, h.count = .draining j vec ∧ j.val = k.val - 1 := by
  have hpred : ∀ k : Fin 4, (if k = 0 then 0 else k - 1 : Fin 4).val = k.val - 1 := by decide
  refine ⟨?_, ?_, fun k vec => ?_⟩ <;> rintro rfl
  · rfl
  · rfl
  · exact ⟨_, rfl, hpred k⟩

/-- The transfer of R32 by its cases. -/
theorem State.transfer_pending (t : State) (d : Delayed) (h : t.ds = some d) :
    t.transfer.pc = d.target ∧ t.transfer.ds = none ∧ t.transfer.ipr0 = d.page.getD t.ipr0 := by
  obtain ⟨target, page⟩ := d
  cases page <;> simp [State.transfer, h]

theorem State.transfer_none (t : State) (hds : t.ds = none) (hx : t.xfer = .none) :
    t.transfer = { t with pc := t.npc } := by
  simp only [State.transfer, hds, hx]

theorem State.transfer_immediate (t : State) (a : Word) (hds : t.ds = none)
    (hx : t.xfer = .immediate a) : t.transfer = { t with pc := a } := by
  simp only [State.transfer, hds, hx]

theorem State.transfer_delayed (t : State) (a : Word) (page : Option Word) (hds : t.ds = none)
    (hx : t.xfer = .delayed a page) :
    t.transfer = { t with pc := t.npc, ds := some { target := a, page := page } } := by
  simp only [State.transfer, hds, hx]

/-- An instruction leaves the pending transfer and the place of the next instruction to the
sequencing. -/
theorem exec_prepare_flow (i : Instr) (s t : State) (h : exec i s.prepare = .next t) :
    t.ds = s.ds ∧ (s.ds = none → t.npc = s.seq) := by
  obtain ⟨-, hnpc, hds, -⟩ := frameOfSequencing i s.prepare t h
  refine ⟨hds, fun hnone => hnpc.trans ?_⟩
  show s.following = s.seq
  simp only [State.following, hnone]

/-- Settles O52: the sequencing is then the transfer alone, by its cases. -/
theorem sequencingOfOrderlyStep : Obligations.SequencingOfOrderlyStep := by
  intro s t i hexec horderly u
  have hu : u = t.transfer.close s.mr0 (kindOf i) := s.finish_orderly t (kindOf i) horderly
  obtain ⟨hds, hnpc⟩ := exec_prepare_flow i s t hexec
  refine ⟨fun d hd => hu ▸ t.transfer_pending d (hds.trans hd), fun hnone => ⟨?ipr0, fun hx => ?none,
    fun a hx => ?immediate, fun a pg hx => ?delayed⟩, ?_⟩
  case ipr0 =>
    rw [hu]
    exact (t.transfer_unpaged (by rw [hds, hnone]; rfl)).1
  case none =>
    rw [hu, t.transfer_none (hds.trans hnone) hx]
    exact ⟨hnpc hnone, hds.trans hnone⟩
  case immediate =>
    rw [hu, t.transfer_immediate a (hds.trans hnone) hx]
    exact ⟨rfl, hds.trans hnone⟩
  case delayed =>
    rw [hu, t.transfer_delayed a pg (hds.trans hnone) hx]
    exact ⟨hnpc hnone, rfl⟩
  obtain ⟨pc, page, op, ds, htransfer⟩ := t.transfer_frame
  have hframe : u = ({ t with pc := pc, ipr0 := page, pageOpen := op, ds := ds } : State).close
      s.mr0 (kindOf i) := by rw [hu, htransfer]
  rw [hframe]
  exact ⟨rfl, rfl, rfl, fun _ => rfl, fun _ => rfl, rfl, rfl, rfl, rfl, rfl, rfl, rfl, rfl, rfl,
    rfl, rfl, t.hlt.count_cases⟩

end Sys2Proof.Machine

/-! What the sequencing keeps where a restriction is violated (D28). -/

namespace Sys2Proof.Machine

/-- Beside PC, DS, the page and LC, the sequencing changes only what every closing changes. -/
theorem State.finish_keeps (s t : State) (k : Kind) :
    ∃ pc page op ds lc, s.finish t k =
      ({ t with pc := pc, ipr0 := page, pageOpen := op, ds := ds, lc := lc } : State).close
        s.mr0 k := by
  obtain ⟨pc, page, op, ds, htransfer⟩ := t.transfer_frame
  obtain ⟨pc', page', ds', lc', hhazards, -⟩ := t.transfer.applyHazards_frame s k
  refine ⟨pc', page', op, ds', lc', ?_⟩
  rw [State.finish, hhazards, htransfer]

/-- Without a violated change-of-flow restriction the flow is the transfer's. -/
theorem State.flowHazard_of_quiet (s t : State) (k : Kind) (hend : s.endHazard k = false)
    (hslot : s.slotHazard k = false) : t.flowHazard s k = t := by
  simp [State.flowHazard, hend, hslot]

/-- R397 alone opens PC, but not DS (log 40). -/
theorem State.finish_flow (s t : State) (k : Kind) (hend : s.endHazard k = false)
    (hslot : s.slotHazard k = false) :
    (s.finish t k).ds = t.transfer.ds ∧
    (s.prepare.loopWriteHazard t.transfer = false → (s.finish t k).pc = t.transfer.pc) := by
  refine ⟨?_, fun hloop => ?_⟩
  · show (t.transfer.applyHazards s k).ds = t.transfer.ds
    unfold State.applyHazards
    rw [s.flowHazard_of_quiet t.transfer k hend hslot]
    split <;> rfl
  · rw [s.finish_orderly t k ⟨hslot, hend, hloop⟩]
    rfl

theorem State.finish_lc (s t : State) (k : Kind) (h : t.transfer.loopHazard s k = false) :
    (s.finish t k).lc = t.lc := by
  obtain ⟨pc, page, op, ds, htransfer⟩ := t.transfer_frame
  obtain ⟨pc', page', ds', lc', hhazards, hlc⟩ := t.transfer.applyHazards_frame s k
  have hkeep : t.transfer.lc = t.lc := by rw [htransfer]
  rw [State.finish, hhazards]
  exact (hlc h).trans hkeep

/-- IPR0 is open only where a page is at stake in a violated restriction. -/
theorem State.finish_ipr0 (s t : State) (k : Kind) (hpage : pagePending t.ds = false)
    (h : (s.endHazard k = false ∧ s.slotHazard k = false) ∨
      (pagePending s.ds = false ∧ pageProduced t.xfer = false)) :
    (s.finish t k).ipr0 = t.ipr0 := by
  have hproduced : t.transfer.xfer = t.xfer := by
    obtain ⟨pc, page, op, ds, htransfer⟩ := t.transfer_frame
    rw [htransfer]
  exact (t.transfer.applyHazards_ipr0 s k (hproduced ▸ h)).trans (t.transfer_unpaged hpage).1

theorem State.finish_pageOpen (s t : State) (k : Kind) (hpage : pagePending t.ds = false) :
    (s.finish t k).pageOpen = t.pageOpen := by
  obtain ⟨pc, page, ds, lc, hhazards, -⟩ := t.transfer.applyHazards_frame s k
  rw [State.finish, hhazards]
  exact (t.transfer_unpaged hpage).2

/-- Settles O60: `finish_keeps` for what stands, and the four parts of the flow one by one. -/
theorem violatedRestrictionFreesOnlyFlow : Obligations.ViolatedRestrictionFreesOnlyFlow := by
  intro s t k u
  obtain ⟨pc, page, op, ds, lc, hu⟩ := s.finish_keeps t k
  refine ⟨congrArg (·.mr0) hu, congrArg (·.fprev) hu, congrArg (·.prevk) hu,
    fun x => congrArg (·.acc x) hu, fun n => congrArg (·.index n) hu, congrArg (·.p) hu,
    congrArg (·.pmode) hu, congrArg (·.lr0) hu, congrArg (·.lr1) hu, congrArg (·.ls) hu,
    congrArg (·.le) hu, congrArg (·.ipr1) hu, congrArg (·.xmem) hu, congrArg (·.ymem) hu,
    congrArg (·.imem) hu, congrArg (·.lsup) hu, congrArg (·.intsm) hu, congrArg (·.irqOff) hu,
    congrArg (·.plat) hu, congrArg (·.events) hu, congrArg (·.sti1) hu, congrArg (·.sti2) hu,
    congrArg (·.memEpoch) hu, congrArg (·.npc) hu, congrArg (·.xfer) hu,
    fun hend hloop hfree => s.finish_lc t k ?lc, s.finish_pageOpen t k,
    fun hpage hs hx => s.finish_ipr0 t k hpage (.inr ⟨hs, hx⟩),
    fun hpage hend hslot => s.finish_ipr0 t k hpage (.inl ⟨hend, hslot⟩),
    s.finish_flow t k, ?hlt⟩
  case lc => simp [State.loopHazard, hend, hloop, hfree]
  case hlt =>
    have hcount : u.hlt = t.hlt.count := congrArg (·.hlt) hu
    rw [hcount]
    exact t.hlt.count_cases

/-! ### The return state -/

/-- The environment leaves the registers of the return state alone. -/
theorem State.takeEvent_returnState (s : State) :
    s.takeEvent.lr1 = s.lr1 ∧ s.takeEvent.ipr1 = s.ipr1 ∧ s.takeEvent.mr0 = s.mr0 := by
  obtain ⟨es, im, off, h, hevent⟩ := s.takeEvent_frame
  rw [hevent]
  exact ⟨rfl, rfl, rfl⟩

theorem State.finish_returnState (s t : State) (k : Kind) :
    (s.finish t k).lr1 = t.lr1 ∧ (s.finish t k).ipr1 = t.ipr1 ∧ (s.finish t k).mr0 = t.mr0 := by
  obtain ⟨pc, page, op, ds, lc, hu⟩ := s.finish_keeps t k
  exact ⟨congrArg (·.lr1) hu, congrArg (·.ipr1) hu, congrArg (·.mr0) hu⟩

/-- An instruction changes LR1 and IPR1, and sets L, only where it names the register. -/
theorem exec_returnState (i : Instr) (s t : State) (h : exec i s = .next t) :
    (t.lr1 = s.lr1 ∨ .control .lr1 ∈ i.written) ∧ (t.ipr1 = s.ipr1 ∨ .control .ipr1 ∈ i.written) ∧
    (t.mr0.l = true → s.mr0.l = true ∨ .control .mr0 ∈ i.written) := by
  obtain ⟨-, -, -, hlr1, -, -, -, -, hipr1⟩ := frameOfRegisters i s t h
  obtain ⟨hmr0, -⟩ := frameOfFlagsAndProduct i s t h
  refine ⟨Decidable.or_iff_not_imp_right.mpr hlr1, Decidable.or_iff_not_imp_right.mpr hipr1,
    fun hl => Decidable.or_iff_not_imp_right.mpr fun hout => ?_⟩
  obtain ⟨-, -, -, hflag, -⟩ := hmr0 hout
  rw [hl] at hflag
  exact (Bool.and_eq_true_iff.mp hflag.symm).1

/-- Settles O57: at a boundary without an entry, either the core waits or one instruction runs, and
the sequencing keeps the return state. -/
theorem onlyEntryAndMovesWriteReturnState : Obligations.OnlyEntryAndMovesWriteReturnState := by
  intro s u hreset hstep
  obtain ⟨hlr1, hipr1, hmr0⟩ := s.takeEvent_returnState
  rcases step_cases s with ⟨hdue, -⟩ | ⟨-, ⟨vec, hdue, -⟩ | ⟨-, hwait, h⟩ | ⟨-, -, h⟩⟩
  · exact absurd (hreset.symm.trans hdue) (by decide)
  · exact .inl (by simp [hdue])
  · rw [h] at hstep
    cases hstep
    exact .inr ⟨none, fun _ => hwait, by simp, .inl hlr1, .inl hipr1, fun hl => .inl (hmr0 ▸ hl)⟩
  · rw [h] at hstep
    obtain ⟨w, i, t, hfetch, hdecode, hexec, rfl⟩ := (runNext_next_iff _ u).mp hstep
    obtain ⟨hlr1', hipr1', hl'⟩ := exec_returnState i _ t hexec
    obtain ⟨hlr1'', hipr1'', hmr0''⟩ := s.takeEvent.finish_returnState t (kindOf i)
    rw [hlr1'', hipr1'', hmr0'', ← hlr1, ← hipr1, ← hmr0]
    exact .inr ⟨some i, nofun, fun j hj => ⟨w, hfetch, Option.some.inj hj ▸ hdecode⟩,
      hlr1'.imp_right fun hin => ⟨i, rfl, hin⟩, hipr1'.imp_right fun hin => ⟨i, rfl, hin⟩,
      fun hl => (hl' hl).imp_right fun hin => ⟨i, rfl, hin⟩⟩

/-! ### Waiting for a request -/

/-- A boundary of a halted core at which no entry is due only spends a step's free values (R330). -/
theorem step_of_waiting (s : State) (hreset : s.resetDue = false)
    (hdue : s.takeEvent.entryDue = none) (hwait : s.takeEvent.hlt = .waiting) :
    step s = .next { s.takeEvent with freeCtr := s.takeEvent.freeCtr + 1 } := by
  rw [step, State.machineStep, if_neg (by simp [hreset])]
  simp only [State.advance, hdue, if_pos hwait]

theorem State.entryDue_of_idle (s : State) (h : s.intsm = .idle) : s.entryDue = none := by
  simp only [State.entryDue, h]

/-- What the environment does with a request (R352, log 54). -/
theorem State.takeEvent_request (s : State) (vec : Vec) (es : List Event)
    (hevents : s.events = .request vec :: es) :
    s.takeEvent = if s.intsm = .idle ∧ s.irqOff = false then { s.receive vec with events := es }
      else s := by
  simp only [State.takeEvent, hevents]

/-- A received request takes an idle machine out of its waiting, with three instructions to go. -/
theorem State.receive_running (s : State) (vec : Vec) (h : s.hlt ≠ .waiting) :
    s.receive vec = { s with intsm := .pending vec, irqOff := true } := by
  simp only [State.receive, if_neg h]

theorem State.receive_waiting (s : State) (vec : Vec) (h : s.hlt = .waiting) :
    s.receive vec = { s with intsm := .pending vec, irqOff := true, hlt := .draining 3 vec } := by
  simp only [State.receive, if_pos h]

/-- A store to an address that is there enables requests again exactly at INT_GLOB_ENA (R358). -/
theorem State.irqOff_storeData (s : State) (b : Bus) (key : Nat) (v : Word)
    (h : s.kindAt b.space key ≠ .absent) :
    (s.storeData b key v).irqOff = if s.plat.intGlobEna = (b, key) then false else s.irqOff := by
  have hnote : ∀ t : State, (t.noteEnable b key).irqOff =
      if t.plat.intGlobEna = (b, key) then false else t.irqOff := by
    intro t
    unfold State.noteEnable
    split <;> rfl
  unfold State.storeData
  split
  case h_1 | h_2 =>
    rw [hnote]
    cases b <;> rfl
  case h_3 => exact hnote s
  case h_4 habsent => exact absurd habsent h

/-- Settles O59: what the environment does at a boundary, by the event that comes. -/
theorem haltWaitsForRequest : Obligations.HaltWaitsForRequest := by
  intro s es
  refine ⟨fun hwait hidle => ⟨fun hevents => ?nothing, fun hevents => ?quiet,
    fun vec hevents hoff => ?held, fun vec hevents hon => ?received⟩,
    fun vec hevents => ⟨fun hrun hidle hon => ?running, fun hheld => ?stays⟩,
    fun b key v h => s.irqOff_storeData b key v h⟩
  case nothing =>
    have htake : s.takeEvent = s := by simp only [State.takeEvent, hevents]
    have hstep := step_of_waiting s (by simp [State.resetDue, hevents])
    rw [htake] at hstep
    exact hstep (s.entryDue_of_idle hidle) hwait
  case quiet =>
    have htake : s.takeEvent = { s with events := es } := by simp only [State.takeEvent, hevents]
    have hstep := step_of_waiting s (by simp [State.resetDue, hevents])
    rw [htake] at hstep
    exact hstep (State.entryDue_of_idle _ hidle) hwait
  case held =>
    have htake : s.takeEvent = s := by
      rw [s.takeEvent_request vec es hevents, if_neg (by simp [hoff])]
    have hstep := step_of_waiting s (by simp [State.resetDue, hevents])
    rw [htake] at hstep
    exact hstep (s.entryDue_of_idle hidle) hwait
  case received =>
    have htake : s.takeEvent = { s with events := es, intsm := .pending vec, irqOff := true,
                                        hlt := .draining 3 vec } := by
      rw [s.takeEvent_request vec es hevents, if_pos ⟨hidle, hon⟩, s.receive_waiting vec hwait]
    refine ⟨htake, ?_⟩
    rw [htake]
    exact State.entryDue_of_draining _ 3 vec rfl (by decide)
  case running =>
    rw [s.takeEvent_request vec es hevents, if_pos ⟨hidle, hon⟩, s.receive_running vec hrun]
  case stays =>
    rw [s.takeEvent_request vec es hevents, if_neg]
    rintro ⟨hidle, hon⟩
    rcases hheld with hoff | hbusy
    · exact absurd (hon.symm.trans hoff) (by decide)
    · exact hbusy hidle

end Sys2Proof.Machine

/-! A jump with its delay slot (R313 to R319). -/

namespace Sys2Proof.Machine

/-- The environment's part of a boundary touches nothing that decides whether a restriction is
violated. -/
theorem State.orderly_takeEvent (s t : State) (k : Kind) (h : s.orderly t k) :
    s.takeEvent.orderly t k := by
  obtain ⟨es, im, off, hlt, hevent⟩ := s.takeEvent_frame
  rw [hevent]
  exact h

/-- Neither the environment nor the loop count touches what a jump reads. -/
theorem State.jumpsTo_prepare (s : State) (j : Instr) (d : Delayed) (h : s.jumpsTo j d) :
    s.takeEvent.prepare.jumpsTo j d := by
  obtain ⟨es, im, off, hlt, hevent⟩ := s.takeEvent_frame
  rw [hevent]
  exact h

/-- A taken jump belongs to the change-of-flow set. -/
theorem State.kindOf_of_jumpsTo (s : State) (j : Instr) (d : Delayed) (h : s.jumpsTo j d) :
    kindOf j = .cof := by
  rcases h with ⟨c, -, ⟨rfl | rfl, -⟩ | ⟨rfl, -⟩ | ⟨n, rfl, -⟩⟩ | ⟨rfl, -⟩ | ⟨n, rfl, -⟩ <;> rfl

/-- What a taken jump leaves: L clear, its transfer, and LR0 by CALLcc. -/
def State.jumped (s : State) (lr0 : Word) (d : Delayed) : State :=
  { s with lr0 := lr0, mr0 := { s.mr0 with l := false }, xfer := .delayed d.target d.page }

theorem State.writes_taken (s : State) (target : Word) (page : Option Word) :
    s.writes (jumpWrites true target page) = s.jumped s.lr0 { target := target, page := page } :=
  s.writes_jumpWrites true target page

theorem exec_of_jumpsTo (s : State) (j : Instr) (d : Delayed) (h : s.jumpsTo j d) :
    ∃ lr0, exec j s = .next (s.jumped lr0 d) ∧ ∀ c, j = .callcc d.target c → lr0 = s.pc + 2 := by
  obtain ⟨target, page⟩ := d
  rcases h with ⟨c, hboth, hform⟩ | ⟨rfl, hd⟩ | ⟨n, rfl, hd⟩
  · have htakes : s.takes c = true := by
      obtain ⟨hprev, hnow⟩ := Bool.and_eq_true_iff.mp hboth
      exact s.takes_of_agree c true hprev hnow
    rcases hform with ⟨rfl | rfl, hpage⟩ | ⟨rfl, hd⟩ | ⟨n, rfl, hd⟩
    · cases hpage
      exact ⟨s.lr0, by rw [exec_jcc, htakes, s.writes_taken], nofun⟩
    · cases hpage
      exact ⟨s.pc + 2, by rw [exec_callcc, htakes, State.writes_taken]; rfl, fun _ _ => rfl⟩
    · cases hd
      exact ⟨s.lr0, by rw [exec_jrcc, htakes, s.writes_taken], nofun⟩
    · cases hd
      exact ⟨s.lr0, by rw [exec_jrccOp1, htakes, s.writes_taken], nofun⟩
  · cases hd
    exact ⟨s.lr0, exec_reti s, nofun⟩
  · cases hd
    exact ⟨s.lr0, exec_retiOp1 n s, nofun⟩

/-- A jump writes no loop register, so R397 does not apply to it. -/
theorem State.loopWriteHazard_jumped (s : State) (lr0 : Word) (d : Delayed) :
    s.loopWriteHazard (s.jumped lr0 d).transfer = false := by
  obtain ⟨pc, page, op, ds, htransfer⟩ := (s.jumped lr0 d).transfer_frame
  rw [htransfer]
  simp [State.loopWriteHazard, State.jumped]

/-- A change of flow that is not at a loop end goes on at the next address. -/
theorem State.seq_of_flow (s : State) (k : Kind) (hflow : k.isFlow = true)
    (h : s.endHazard k = false) : s.seq = s.pc + 1 := by
  have hquiet : s.loopFires = false := by
    simp only [State.endHazard, hflow, Bool.true_and, Bool.or_eq_false_iff] at h
    exact h.2.1
  simp [State.seq, hquiet]

theorem State.seq_takeEvent (s : State) : s.takeEvent.seq = s.seq := by
  obtain ⟨es, im, off, hlt, hevent⟩ := s.takeEvent_frame
  rw [hevent]
  rfl

theorem State.prepare_takeEvent_pc (s : State) : s.takeEvent.prepare.pc = s.pc := by
  obtain ⟨es, im, off, hlt, hevent⟩ := s.takeEvent_frame
  rw [hevent]
  rfl

/-- Settles O53: `sequencingOfOrderlyStep` for the jump, whose transfer becomes pending, and for the
slot, after which it is made. -/
theorem takenJumpRunsItsDelaySlot : Obligations.TakenJumpRunsItsDelaySlot := by
  intro s j d hnext hjump hds hslot hend
  have hflow : (kindOf j).isFlow = true := by rw [s.kindOf_of_jumpsTo j d hjump]; rfl
  obtain ⟨lr0, hexec, hlr0⟩ := exec_of_jumpsTo _ j d (s.jumpsTo_prepare j d hjump)
  have horderly : s.takeEvent.orderly (s.takeEvent.prepare.jumped lr0 d) (kindOf j) := by
    obtain ⟨es, im, off, hlt, hevent⟩ := s.takeEvent_frame
    refine ⟨?_, ?_, State.loopWriteHazard_jumped _ _ _⟩ <;> rw [hevent]
    · exact hslot
    · exact hend
  obtain ⟨-, hseq, -, -, hmr0, -, -, -, hlink, -⟩ :=
    sequencingOfOrderlyStep s.takeEvent _ j hexec horderly
  obtain ⟨-, -, -, hdelayed⟩ := hseq (s.takeEvent_ds.trans hds)
  obtain ⟨hpc, hpending⟩ := hdelayed d.target d.page rfl
  refine ⟨_, step_of_exec s _ j hnext hexec, ?_, hpending, ?_, fun c hc => ?_, ?_⟩
  · rw [hpc, s.seq_takeEvent, s.seq_of_flow _ hflow hend]
  · rw [hmr0]; rfl
  · rw [hlink, ← s.prepare_takeEvent_pc]
    exact hlr0 c hc
  · intro i t hslotRuns hexecSlot horderlySlot
    obtain ⟨hmade, -⟩ := sequencingOfOrderlyStep _ t i hexecSlot
      (State.orderly_takeEvent _ t _ horderlySlot)
    exact ⟨_, step_of_exec _ t i hslotRuns hexecSlot,
      hmade d ((State.takeEvent_ds _).trans hpending)⟩

end Sys2Proof.Machine

/-! The entry of an interrupt (R352, R353) and the word at its vector. -/

namespace Sys2Proof

/-! ### The words of JMPI (R106) -/

/-- JMPI stands for itself alone (R125). -/
theorem eq_jmpi_of_canon (i : Instr) (addr : Word) (mm : JmpiStep) (n : IReg)
    (h : i.canon = .jmpi addr mm n) : i = .jmpi addr mm n := by
  have hdouble : ∀ x y, canonDouble x y ≠ .jmpi addr mm n := by
    intro x y
    unfold canonDouble
    split
    · split <;> nofun
    · split
      · split <;> nofun
      · nofun
  cases i with
  | dmove x y => exact absurd h (hdouble x y)
  | ldx m p r | stx m p r | ldy m p r | sty m p r => exact absurd h (hdouble _ _)
  | ldc c r => simp only [Instr.canon] at h; split at h <;> cases h
  | xor a b r pm => simp only [Instr.canon] at h; split at h <;> cases h
  | jmpi a k m => exact h
  | _ => cases h

/-- In the control group only 1010 is JMPI. -/
theorem digit_of_decodeControl_jmpi (w : Code) (addr : Word) (mm : JmpiStep) (n : IReg)
    (h : decodeControl w = .ok (.jmpi addr mm n)) : field w 24 4 = 10 := by
  have jr : decodeJr w ≠ .ok (.jmpi addr mm n) := by
    unfold decodeJr
    split
    · nofun
    · split <;> nofun
  have loop : decodeLoop w ≠ .ok (.jmpi addr mm n) := by
    unfold decodeLoop
    split <;> nofun
  have jump : ∀ mk : Word → Cond → Instr, (∀ a c, mk a c ≠ .jmpi addr mm n) →
      decodeJump mk w ≠ .ok (.jmpi addr mm n) := by
    intro mk hmk
    unfold decodeJump
    split
    · nofun
    · exact fun hd => hmk _ _ (Except.ok.inj hd)
  unfold decodeControl at h
  split at h
  case h_1 => exact absurd h jr
  case h_2 => split at h <;> cases h
  case h_4 | h_5 | h_6 | h_7 => exact absurd h loop
  case h_8 | h_9 => exact absurd h (jump _ (by rintro _ _ ⟨⟩))
  case h_10 hdigit => exact hdigit
  all_goals cases h

/-- Only the control group holds JMPI. -/
theorem opcode_of_decodeCore_jmpi (w : Code) (addr : Word) (mm : JmpiStep) (n : IReg)
    (h : decodeCore w = .ok (.jmpi addr mm n)) :
    field w 28 4 = 2 ∧ decodeControl w = .ok (.jmpi addr mm n) := by
  have alu2 : ∀ mk : AluSrc → AluSrc → AReg → PMove → Instr,
      (∀ a b r pm, mk a b r pm ≠ .jmpi addr mm n) → decodeAlu2 mk w ≠ .ok (.jmpi addr mm n) := by
    intro mk hmk hd
    obtain ⟨a, b, r, pm, hi, -⟩ := decodeAlu2_ok mk w _ hd
    exact hmk a b r pm hi.symm
  have mac : ∀ mk : AReg → MulMode → AReg → AReg → PMove → Instr,
      (∀ a m b r pm, mk a m b r pm ≠ .jmpi addr mm n) → decodeMac mk w ≠ .ok (.jmpi addr mm n) := by
    intro mk hmk hd
    obtain ⟨a, m, b, r, pm, hi, -⟩ := decodeMac_ok mk w _ hd
    exact hmk a m b r pm hi.symm
  have alu1 : ∀ mk : AluSrc → AReg → PMove → Instr,
      (∀ b r pm, mk b r pm ≠ .jmpi addr mm n) → decodeAlu1 mk w ≠ .ok (.jmpi addr mm n) := by
    intro mk hmk hd
    obtain ⟨b, r, pm, hi, -⟩ := decodeAlu1_ok mk w _ hd
    exact hmk b r pm hi.symm
  have ldc : decodeLdc w ≠ .ok (.jmpi addr mm n) := by
    unfold decodeLdc
    split <;> nofun
  have double : decodeDouble w ≠ .ok (.jmpi addr mm n) := by
    unfold decodeDouble
    split
    · nofun
    · split <;> nofun
  have single : decodeSingle w ≠ .ok (.jmpi addr mm n) := by
    unfold decodeSingle
    split
    case h_5 => unfold decodeNopMove; split <;> nofun
    case h_9 | h_10 => unfold decodeMul; split <;> nofun
    case h_11 => nofun
    all_goals exact alu1 _ (by rintro _ _ _ ⟨⟩)
  unfold decodeCore at h
  split at h
  case h_1 | h_2 => exact absurd h ldc
  case h_3 hopcode => exact ⟨hopcode, h⟩
  case h_4 => exact absurd h double
  case h_6 | h_8 => exact absurd h (mac _ (by rintro _ _ _ _ _ ⟨⟩))
  case h_15 => cases h
  case h_16 => exact absurd h single
  all_goals exact absurd h (alu2 _ (by rintro _ _ _ _ ⟨⟩))

/-- A word that decodes to a JMPI starts with 0x2A. -/
theorem byte_of_decode_jmpi (w : Code) (addr : Word) (mm : JmpiStep) (n : IReg)
    (h : decode w = .ok (.jmpi addr mm n)) : field w 24 8 = 0x2A := by
  obtain ⟨i, hcore, -, hcanon⟩ := (decode_ok_iff w _).mp h
  rw [eq_jmpi_of_canon i addr mm n hcanon] at hcore
  obtain ⟨hopcode, hcontrol⟩ := opcode_of_decodeCore_jmpi w addr mm n hcore
  have hdigit := digit_of_decodeControl_jmpi w addr mm n hcontrol
  have hsplit : field w 24 8 = field w 24 4 + 16 * field w 28 4 := field_split w 24 4 4
  omega

namespace Machine

/-- The entry looks at the word's first byte. -/
theorem isJmpiWord_iff (w : Code) : isJmpiWord w = true ↔ field w 24 8 = 0x2A := by
  have hbyte : (w.extractLsb' 24 8).toNat = field w 24 8 := by
    simp [field, Nat.shiftRight_eq_div_pow]
  rw [isJmpiWord, beq_iff_eq, ← BitVec.toNat_inj, hbyte]
  rfl

/-! ### Which interrupt is entered, and what is fetched at its vector -/

theorem State.entryDue_of_pending (s : State) (vec : Vec) (him : s.intsm = .pending vec)
    (hds : s.ds = none) (hallow : s.hlt.allowsEntry = true) : s.entryDue = some vec := by
  simp [State.entryDue, him, hds, hallow]

theorem step_of_due (s : State) (vec : Vec) (hreset : s.resetDue = false)
    (him : s.takeEvent.intsm = .pending vec) (hds : s.ds = none)
    (hallow : s.takeEvent.hlt.allowsEntry = true) :
    step s = s.takeEvent.enterInterrupt vec := by
  have hdue := State.entryDue_of_pending _ vec him (s.takeEvent_ds.trans hds) hallow
  rw [step, State.machineStep, if_neg (by simp [hreset])]
  simp only [State.advance, hdue]

theorem State.takeEvent_prevk (s : State) : s.takeEvent.prevk = s.prevk := by
  obtain ⟨es, im, off, h, hevent⟩ := s.takeEvent_frame
  rw [hevent]

/-- The vectors stand at the addresses 32 to 63 of page 0 (R353). -/
theorem toNat_vectorAddress (vec : Vec) :
    (codeAddress 0 (vectorAddress vec)).toNat = 32 + vec.val := by
  have hall : ∀ v : Vec, (codeAddress 0 (vectorAddress v)).toNat = 32 + v.val := by decide
  exact hall vec

/-- A plain vector is fetched as it stood before the boundary. -/
theorem State.fetch_vector_plain (s : State) (vec : Vec) (h : s.plainVector vec) :
    (s.takeEvent.takeInterrupt vec).fetch = .ok (s.word32 (32 + vec.val)) := by
  obtain ⟨es, im, off, hlt, hevent⟩ := s.takeEvent_frame
  have hplain : s.takeEvent.plainVector vec := by rw [hevent]; exact h
  have hword : ∀ a, (s.takeEvent.takeInterrupt vec).word32 a = s.word32 a := by
    rw [hevent]
    exact fun _ => rfl
  have haddress : (s.takeEvent.takeInterrupt vec).fetchAddress.toNat = 32 + vec.val :=
    toNat_vectorAddress vec
  rw [State.fetch_plain _ (takeInterrupt_plainFetch _ vec hplain), hword, haddress]

theorem State.fetch_vector_absent (s : State) (vec : Vec)
    (h : s.kindAt .i (32 + vec.val) = .absent) :
    (s.takeEvent.takeInterrupt vec).fetch = .error (.noMemory .i (32 + vec.val)) := by
  obtain ⟨es, im, off, hlt, hevent⟩ := s.takeEvent_frame
  have hpage : (s.takeEvent.takeInterrupt vec).fetchPage = 0 := rfl
  have hadmitted : (s.takeEvent.takeInterrupt vec).admitted .i (32 + vec.val) = false := by
    rw [hevent]
    exact s.admitted_of_absent .i _ h
  have haddress : (codeAddress 0 (s.takeEvent.takeInterrupt vec).pc).toNat = 32 + vec.val :=
    toNat_vectorAddress vec
  simp only [State.fetch, hpage, haddress, hadmitted, Bool.false_eq_true, if_false]

/-- What the entry does with the word fetched at the vector (log 16). -/
theorem State.enterInterrupt_of_fetch (s : State) (vec : Vec) (w : Code) (hprev : s.prevk ≠ .jmpi)
    (hfetch : (s.takeInterrupt vec).fetch = .ok w) :
    s.enterInterrupt vec =
      if isJmpiWord w then (s.takeInterrupt vec).runFetched w else .fault .vectorNotJmpi := by
  simp only [State.enterInterrupt, if_neg hprev, hfetch]

/-- Settles O56: the entry's stops, in its own order. -/
theorem unpredictableEntryStops : Obligations.UnpredictableEntryStops := by
  intro s vec hreset him hds hallow
  rw [step_of_due s vec hreset him hds hallow]
  refine ⟨fun hprev => ?afterJmpi, fun hprev habsent => ?noMemory,
    fun hprev hplain => ⟨fun hbyte => ?notJmpi, fun why hbyte hdecode => ?rejected⟩⟩
  case afterJmpi => rw [State.enterInterrupt, if_pos (s.takeEvent_prevk.trans hprev)]
  all_goals
    have hprev' : s.takeEvent.prevk ≠ .jmpi := s.takeEvent_prevk ▸ hprev
  case noMemory =>
    have hfetch := s.fetch_vector_absent vec habsent
    simp only [State.enterInterrupt, if_neg hprev', hfetch]
  all_goals
    rw [State.enterInterrupt_of_fetch _ vec _ hprev' (s.fetch_vector_plain vec hplain)]
  case notJmpi => rw [if_neg (mt (isJmpiWord_iff _).mp hbyte)]
  case rejected =>
    rw [if_pos ((isJmpiWord_iff _).mpr hbyte)]
    simp only [State.runFetched, hdecode]

/-! ### The state after the entry -/

/-- The vector's JMPI runs with no loop end and no pending transfer: the entry set L and cleared
DS. -/
theorem State.loopFires_takeInterrupt (s : State) (vec : Vec) :
    (s.takeInterrupt vec).loopFires = false := by
  simp [State.loopFires, State.takeInterrupt]

theorem State.prepare_takeInterrupt (s : State) (vec : Vec) :
    (s.takeInterrupt vec).prepare =
      { s.takeInterrupt vec with npc := BitVec.ofNat 16 (33 + vec.val), xfer := .none,
                                 sti1 := none, sti2 := s.sti1 } := by
  have hnext : ∀ v : Vec, vectorAddress v + 1 = BitVec.ofNat 16 (33 + v.val) := by decide
  have hquiet := s.loopFires_takeInterrupt vec
  have hnpc : (s.takeInterrupt vec).following = BitVec.ofNat 16 (33 + vec.val) := by
    have hds : (s.takeInterrupt vec).ds = none := rfl
    simp only [State.following, hds, State.seq, hquiet]
    exact hnext vec
  rw [State.prepare, hnpc, hquiet]
  rfl

/-- No restriction is violated there: L keeps the loop-end test quiet. -/
theorem State.orderly_takeInterrupt (s t : State) (vec : Vec) :
    (s.takeInterrupt vec).orderly t .jmpi := by
  have hquiet := s.loopFires_takeInterrupt vec
  have hl : (s.takeInterrupt vec).mr0.l = true := rfl
  have hl' : (s.takeInterrupt vec).prepare.mr0.l = true := rfl
  refine ⟨rfl, ?_, ?_⟩
  · simp [State.endHazard, hquiet, State.nextIsLoopEnd, hl]
  · simp [State.loopWriteHazard, loopEndAt, hl']

/-- The entry and the vector's JMPI as one state. -/
theorem State.runFetched_entry (s : State) (vec : Vec) (w : Code) (addr : Word) (mm : JmpiStep)
    (n : IReg) (h : decode w = .ok (.jmpi addr mm n)) :
    (s.takeInterrupt vec).runFetched w = .next
      { s.setIndex n (jmpiStep mm (s.index n)) with
          lr1 := s.pc, ipr1 := s.ipr0, mr0 := { s.mr0 with l := true },
          fprev := { s.mr0 with l := true }, ipr0 := 0, pageOpen := false, pc := addr,
          npc := BitVec.ofNat 16 (33 + vec.val), xfer := .none, ds := none, lsup := 0,
          prevk := .jmpi, hlt := .running, intsm := .idle, sti1 := none, sti2 := s.sti1,
          freeCtr := s.freeCtr + 1 } := by
  refine (runFetched_next_iff _ _ w).mpr ⟨_, _, h, exec_jmpi addr mm n _, ?_⟩
  show _ = (s.takeInterrupt vec).finish _ .jmpi
  rw [State.finish_orderly _ _ _ (s.orderly_takeInterrupt _ vec), s.prepare_takeInterrupt vec,
    State.transfer_immediate _ addr rfl rfl]
  rfl

/-- Settles O55. -/
theorem interruptEntryState : Obligations.InterruptEntryState := by
  intro s vec addr mm n hreset him hds hallow hprev hplain hdecode
  have hprev' : s.takeEvent.prevk ≠ .jmpi := s.takeEvent_prevk ▸ hprev
  have hbyte := byte_of_decode_jmpi _ addr mm n hdecode
  refine ⟨_, toNat_jmpiStep mm (s.index n), ?_⟩
  rw [step_of_due s vec hreset him hds hallow,
    State.enterInterrupt_of_fetch _ vec _ hprev' (s.fetch_vector_plain vec hplain),
    if_pos ((isJmpiWord_iff _).mpr hbyte), State.runFetched_entry _ vec _ addr mm n hdecode]
  obtain ⟨es, im, off, hlt, hevent⟩ := s.takeEvent_frame
  rw [hevent]
  rfl

end Machine

end Sys2Proof
